-- ==== Sys2Proof/Word.lean ====
section
/-! DEFINITION. The word types of the block: 64-bit words (R6, R82), 32-bit command words (R100), 4-bit register
indexes (R103) and limb arrays (R31). -/

namespace Sys2Proof

/-- One 64-bit word: a limb (R6), a control block (R33), or a word of the host port (R83). -/
abbrev Word := BitVec 64

/-- One 32-bit command word (R100). -/
abbrev CmdWord := BitVec 32

/-- An index into the integer register file, `x0`..`x15` (R10, R103). -/
abbrev XIdx := BitVec 4

/-- An index into the decimal register file, `d0`..`d15` (R10, R103). -/
abbrev DIdx := BitVec 4

/-- A sequence of 64-bit limbs, least significant first (R31, R81). A register of the block has `N` of them. -/
abbrev LimbArray := List Word

end Sys2Proof
end

