-- ==== Sys2Proof/Config.lean ====
section
/-! DEFINITION. What an implementation of the block fixes: the limb count `N` and the exponent bounds (R7, R8), and the
free values the spec leaves open (R49). -/

namespace Sys2Proof

/-- The parameters of one block (R7, R8). They never change while it runs. -/
structure Params where
  /-- `N`, the limb count (R7). -/
  n : Nat
  /-- `E_MIN`, the least exponent (R8). -/
  eMin : Int
  /-- `E_MAX`, the greatest exponent (R8). -/
  eMax : Int
deriving DecidableEq, Repr

/-- The bounds the spec puts on the parameters: `1 <= N <= 255` (R7) and `-32767 <= E_MIN <= 0 <= E_MAX <= 32768` (R8). -/
abbrev Params.legal (p : Params) : Prop :=
  1 ≤ p.n ∧ p.n ≤ 255 ∧ -32767 ≤ p.eMin ∧ p.eMin ≤ 0 ∧ 0 ≤ p.eMax ∧ p.eMax ≤ 32768

/-- The reference configuration: `N = 2` (R7) with the default exponent bounds (R8).
DESIGN CHOICE (log 1): the parameters the machine after reset has; every meaning is written for all of them. -/
def Config.reference : Params := { n := 2, eMin := -32767, eMax := 32768 }

/-- The word a host-port read of a word not written since reset returns (R49): "an unspecified value, which a model draws
freely". A FREE VALUE: it has no body. `freeWord k off` is the one at offset `off` after `k` resets, so that a repeated read
returns the same word (R85) and a reset leaves any other (R382, log 4). -/
opaque Config.freeWord (resets : Nat) (off : BitVec 16) : Word

end Sys2Proof
end

