-- ==== Sys2Proof/Syntax.lean ====
section
/-! DEFINITION. The commands of CORE-1 as syntax: one constructor for each row of the opcode map (R109), with operands
already decoded (R101 to R107). What each command means is in the Machine folder. -/

namespace Sys2Proof

/-- The overflow dispositions (R104). -/
inductive Mode where
  | wrapping | overflowing | checked | strict | saturating
deriving DecidableEq, Repr

/-- The eight rounding modes, in the order of their codes (R37). -/
inductive RoundMode where
  | up | down | ceiling | floor | halfUp | halfDown | halfEven | strict
deriving DecidableEq, Repr

/-- The eight signals, in the order of their bit indexes (R36). -/
inductive Signal where
  | clamped | divByZero | inexact | invalid | overflow | rounded | subnormal | underflow
deriving DecidableEq, Repr

/-- The commands, in the order of the opcode map (R109). `sgn` is the `s` field (R105): true reads the operands as BigInt. -/
inductive Instr where
  | mov (rd rs1 : XIdx)
  | ldi (rd : XIdx) (imm : BitVec 16)
  | lget (rd rs1 : XIdx) (idx : BitVec 16)
  | lset (rd rs1 : XIdx) (idx : BitVec 16)
  | shl (rd rs1 rs2 : XIdx) (mode : Mode)
  | shr (rd rs1 rs2 : XIdx) (mode : Mode) (sgn : Bool)
  | cmp (rs1 rs2 : XIdx) (sgn : Bool)
  | add (rd rs1 rs2 : XIdx) (mode : Mode) (sgn : Bool)
  | sub (rd rs1 rs2 : XIdx) (mode : Mode) (sgn : Bool)
  | mul (rd rs1 rs2 : XIdx) (mode : Mode) (sgn : Bool)
  | mulw (rd rd2 rs1 rs2 : XIdx)
  | divrem (rd rd2 rs1 rs2 : XIdx) (mode : Mode) (sgn : Bool)
  | divrd (rd rd2 rs1 rs2 : XIdx) (mode : Mode)
  | divw (rd rd2 rs1 rs2 : XIdx) (mode : Mode)
  | tpow10 (rd : XIdx) (k : BitVec 16)
  | tpow5 (rd : XIdx) (k : BitVec 16)
  | trmax (rd : XIdx) (k : BitVec 16)
  | digits (rd rs1 : XIdx)
  | mulp10 (rd rs1 rs2 : XIdx) (mode : Mode)
  | divp10 (rd rd2 rs1 rs2 : XIdx)
  | dmake (rd : DIdx) (rs1 : XIdx) (neg : Bool) (scale : BitVec 16)
  | dctx (rd rs1 : DIdx) (rm : RoundMode) (traps : BitVec 8)
  | dmov (rd rs1 : DIdx)
  | dcoef (rd : XIdx) (rs1 : DIdx)
  | dcb (rd : XIdx) (rs1 : DIdx)
  | dadd (rd rs1 rs2 : DIdx)
  | dsub (rd rs1 rs2 : DIdx)
  | dmul (rd rs1 rs2 : DIdx)
  | dround (rd rs1 : DIdx) (scale : BitVec 16)
  | dtrunc (rd rs1 : DIdx) (scale : BitVec 16)
deriving DecidableEq, Repr

end Sys2Proof
end

