-- ==== Sys2Proof/WellFormed.lean ====
section
/-! DEFINITION. Which terms of `Instr` stand for a legal command: the `mode` check (R110) and the `N` check (R112). The other
checks of R113 cannot fail on a term, because `Instr` has no place for an illegal value: a field that must be zero is
not an operand, and `s` is an operand only where R111 admits it. -/

namespace Sys2Proof

/-- The saturating disposition is legal only for ADD, SUB, MUL and MULP10 (R110). -/
def Mode.notSaturating (m : Mode) : Bool := decide (m ≠ .saturating)

/-- A legal command on a block of `n` limbs (R110, R112). -/
def Instr.wf (n : Nat) : Instr → Bool
  | .shl _ _ _ m => m.notSaturating
  | .shr _ _ _ m _ => m.notSaturating
  | .divrem _ _ _ _ m _ => m.notSaturating
  | .divrd _ _ _ _ m => m.notSaturating
  | .divw _ _ _ _ m => m.notSaturating && decide (n ≠ 1)
  | .mov _ _ => true
  | .ldi _ _ => true
  | .lget _ _ _ => true
  | .lset _ _ _ => true
  | .cmp _ _ _ => true
  | .add _ _ _ _ _ => true
  | .sub _ _ _ _ _ => true
  | .mul _ _ _ _ _ => true
  | .mulw _ _ _ _ => true
  | .tpow10 _ _ => true
  | .tpow5 _ _ => true
  | .trmax _ _ => true
  | .digits _ _ => true
  | .mulp10 _ _ _ _ => true
  | .divp10 _ _ _ _ => true
  | .dmake _ _ _ _ => true
  | .dctx _ _ _ _ => true
  | .dmov _ _ => true
  | .dcoef _ _ => true
  | .dcb _ _ => true
  | .dadd _ _ _ => true
  | .dsub _ _ _ => true
  | .dmul _ _ _ => true
  | .dround _ _ _ => true
  | .dtrunc _ _ _ => true

end Sys2Proof
end

