-- ==== Sys2Proof/Decode.lean ====
section
/-! DEFINITION. The command encoding (R100 to R114): the opcode map, the decoder, total on every word, and the encoder. -/

namespace Sys2Proof

/-- The opcodes of the map (R109), by mnemonic. -/
inductive Opcode where
  | mov | ldi | lget | lset | shl | shr | cmp | add | sub | mul | mulw | divrem | divrd | divw | tpow10 | tpow5
  | trmax | digits | mulp10 | divp10 | dmake | dctx | dmov | dcoef | dcb | dadd | dsub | dmul | dround | dtrunc
deriving DecidableEq, Repr

/-- The two command formats: R (R101) and I (R102). -/
inductive Format where
  | r | i
deriving DecidableEq, Repr

/-- One row of the opcode map (R109). -/
structure Row where
  name : Opcode
  op : BitVec 6
  fmt : Format
  pattern : CmdWord
  mask : CmdWord
  /-- The admitted modes (R110). Format I has no `mode` field. -/
  modes : List Mode
  /-- The admitted values of the `s` field (R111). Format I has no `s` field. -/
  signs : List Bool
deriving DecidableEq, Repr

/-- Modes 000 to 011 (R110). -/
def Mode.toStrict : List Mode := [.wrapping, .overflowing, .checked, .strict]

/-- Modes 000 to 100 (R110). -/
def Mode.all : List Mode := [.wrapping, .overflowing, .checked, .strict, .saturating]

/-- The rows of the opcode map (R109) from MOV to SHR. -/
def limbRows : List Row :=
  [
    ⟨.mov, 0x01#6, .r, 0x04000000#32, 0xFC03FFFF#32, [.wrapping], [false]⟩,
    ⟨.ldi, 0x02#6, .i, 0x08000000#32, 0xFC3F0000#32, [], []⟩,
    ⟨.lget, 0x03#6, .i, 0x0C000000#32, 0xFC030000#32, [], []⟩,
    ⟨.lset, 0x04#6, .i, 0x10000000#32, 0xFC030000#32, [], []⟩,
    ⟨.shl, 0x08#6, .r, 0x20000000#32, 0xFC003C7F#32, Mode.toStrict, [false]⟩,
    ⟨.shr, 0x09#6, .r, 0x24000000#32, 0xFC003C3F#32, Mode.toStrict, [false, true]⟩ ]

/-- The rows of the opcode map (R109) from CMP to DIVW. -/
def arithRows : List Row :=
  [
    ⟨.cmp, 0x10#6, .r, 0x40000000#32, 0xFFC03FBF#32, [.wrapping], [false, true]⟩,
    ⟨.add, 0x11#6, .r, 0x44000000#32, 0xFC003C3F#32, Mode.all, [false, true]⟩,
    ⟨.sub, 0x12#6, .r, 0x48000000#32, 0xFC003C3F#32, Mode.all, [false, true]⟩,
    ⟨.mul, 0x13#6, .r, 0x4C000000#32, 0xFC003C3F#32, Mode.all, [false, true]⟩,
    ⟨.mulw, 0x14#6, .r, 0x50000000#32, 0xFC0003FF#32, [.wrapping], [false]⟩,
    ⟨.divrem, 0x18#6, .r, 0x60000000#32, 0xFC00003F#32, Mode.toStrict, [false, true]⟩,
    ⟨.divrd, 0x19#6, .r, 0x64000000#32, 0xFC00007F#32, Mode.toStrict, [false]⟩,
    ⟨.divw, 0x1A#6, .r, 0x68000000#32, 0xFC00007F#32, Mode.toStrict, [false]⟩ ]

/-- The rows of the opcode map (R109) from TPOW10 to DIVP10. -/
def tableRows : List Row :=
  [
    ⟨.tpow10, 0x20#6, .i, 0x80000000#32, 0xFC3F0000#32, [], []⟩,
    ⟨.tpow5, 0x21#6, .i, 0x84000000#32, 0xFC3F0000#32, [], []⟩,
    ⟨.trmax, 0x22#6, .i, 0x88000000#32, 0xFC3F0000#32, [], []⟩,
    ⟨.digits, 0x23#6, .r, 0x8C000000#32, 0xFC03FFFF#32, [.wrapping], [false]⟩,
    ⟨.mulp10, 0x24#6, .r, 0x90000000#32, 0xFC003C7F#32, Mode.all, [false]⟩,
    ⟨.divp10, 0x25#6, .r, 0x94000000#32, 0xFC0003FF#32, [.wrapping], [false]⟩ ]

/-- The rows of the opcode map (R109) from DMAKE to DCB. -/
def decimalDataRows : List Row :=
  [
    ⟨.dmake, 0x30#6, .i, 0xC0000000#32, 0xFC020000#32, [], []⟩,
    ⟨.dctx, 0x31#6, .i, 0xC4000000#32, 0xFC03F800#32, [], []⟩,
    ⟨.dmov, 0x32#6, .r, 0xC8000000#32, 0xFC03FFFF#32, [.wrapping], [false]⟩,
    ⟨.dcoef, 0x33#6, .r, 0xCC000000#32, 0xFC03FFFF#32, [.wrapping], [false]⟩,
    ⟨.dcb, 0x34#6, .r, 0xD0000000#32, 0xFC03FFFF#32, [.wrapping], [false]⟩ ]

/-- The rows of the opcode map (R109) from DADD to DTRUNC. -/
def decimalArithRows : List Row :=
  [
    ⟨.dadd, 0x38#6, .r, 0xE0000000#32, 0xFC003FFF#32, [.wrapping], [false]⟩,
    ⟨.dsub, 0x39#6, .r, 0xE4000000#32, 0xFC003FFF#32, [.wrapping], [false]⟩,
    ⟨.dmul, 0x3A#6, .r, 0xE8000000#32, 0xFC003FFF#32, [.wrapping], [false]⟩,
    ⟨.dround, 0x3C#6, .i, 0xF0000000#32, 0xFC030000#32, [], []⟩,
    ⟨.dtrunc, 0x3D#6, .i, 0xF4000000#32, 0xFC030000#32, [], []⟩ ]

/-- The complete opcode map (R109). -/
def opcodeMap : List Row :=
  limbRows ++ arithRows ++ tableRows ++ decimalDataRows ++ decimalArithRows

/-- The row of an opcode, if the map lists it (R113). -/
def rowOf (op : BitVec 6) : Option Row := opcodeMap.find? (fun r => r.op == op)

/-- The code of a disposition (R104). -/
def Mode.code : Mode → BitVec 3
  | .wrapping => 0 | .overflowing => 1 | .checked => 2 | .strict => 3 | .saturating => 4

/-- The disposition of a code; 101, 110 and 111 are reserved (R104). -/
def Mode.ofCode (c : BitVec 3) : Option Mode :=
  if c = 0 then some .wrapping else if c = 1 then some .overflowing else if c = 2 then some .checked
  else if c = 3 then some .strict else if c = 4 then some .saturating else none

/-- The code of a rounding mode (R37). -/
def RoundMode.code : RoundMode → BitVec 3
  | .up => 0 | .down => 1 | .ceiling => 2 | .floor => 3
  | .halfUp => 4 | .halfDown => 5 | .halfEven => 6 | .strict => 7

/-- The rounding mode of a code; all eight codes are legal (R37). -/
def RoundMode.ofCode (c : BitVec 3) : RoundMode :=
  if c = 0 then .up else if c = 1 then .down else if c = 2 then .ceiling else if c = 3 then .floor
  else if c = 4 then .halfUp else if c = 5 then .halfDown else if c = 6 then .halfEven else .strict

/-! ### The fields of a word (R101, R102) -/

def fieldOp (w : CmdWord) : BitVec 6 := w.extractLsb' 26 6
def fieldRd (w : CmdWord) : BitVec 4 := w.extractLsb' 22 4
def fieldRs1 (w : CmdWord) : BitVec 4 := w.extractLsb' 18 4
def fieldRs2 (w : CmdWord) : BitVec 4 := w.extractLsb' 14 4
def fieldRd2 (w : CmdWord) : BitVec 4 := w.extractLsb' 10 4
def fieldMode (w : CmdWord) : BitVec 3 := w.extractLsb' 7 3
def fieldS (w : CmdWord) : Bool := w.getLsbD 6
def fieldSign (w : CmdWord) : Bool := w.getLsbD 16
def fieldImm (w : CmdWord) : BitVec 16 := w.extractLsb' 0 16
def fieldCtxMode (w : CmdWord) : RoundMode := RoundMode.ofCode (w.extractLsb' 0 3)
def fieldCtxTraps (w : CmdWord) : BitVec 8 := w.extractLsb' 3 8

/-- Why a word is illegal (R113). -/
inductive Reject where
  /-- The opcode is not in the map. -/
  | unassignedOpcode
  /-- A must-be-zero bit is set (R108). -/
  | mustBeZero
  /-- The mode is reserved or not admitted by the opcode (R110). -/
  | badMode
  /-- `s = 1` where the opcode admits only `s = 0` (R111). -/
  | badSign
  /-- DIVW on a block of one limb (R112). -/
  | needsTwoLimbs
  /-- Fewer than four bytes: not a whole word (R83). Raised by `decodeBytes` only. -/
  | notAWord
deriving DecidableEq, Repr

/-- The command of opcode `o` with the fields of `w` (R114). `m` is the decoded `mode` field; a format I command and a
command that admits only mode 000 do not use it. -/
def build (o : Opcode) (m : Mode) (w : CmdWord) : Instr :=
  match o with
  | .mov => .mov (fieldRd w) (fieldRs1 w)
  | .ldi => .ldi (fieldRd w) (fieldImm w)
  | .lget => .lget (fieldRd w) (fieldRs1 w) (fieldImm w)
  | .lset => .lset (fieldRd w) (fieldRs1 w) (fieldImm w)
  | .shl => .shl (fieldRd w) (fieldRs1 w) (fieldRs2 w) m
  | .shr => .shr (fieldRd w) (fieldRs1 w) (fieldRs2 w) m (fieldS w)
  | .cmp => .cmp (fieldRs1 w) (fieldRs2 w) (fieldS w)
  | .add => .add (fieldRd w) (fieldRs1 w) (fieldRs2 w) m (fieldS w)
  | .sub => .sub (fieldRd w) (fieldRs1 w) (fieldRs2 w) m (fieldS w)
  | .mul => .mul (fieldRd w) (fieldRs1 w) (fieldRs2 w) m (fieldS w)
  | .mulw => .mulw (fieldRd w) (fieldRd2 w) (fieldRs1 w) (fieldRs2 w)
  | .divrem => .divrem (fieldRd w) (fieldRd2 w) (fieldRs1 w) (fieldRs2 w) m (fieldS w)
  | .divrd => .divrd (fieldRd w) (fieldRd2 w) (fieldRs1 w) (fieldRs2 w) m
  | .divw => .divw (fieldRd w) (fieldRd2 w) (fieldRs1 w) (fieldRs2 w) m
  | .tpow10 => .tpow10 (fieldRd w) (fieldImm w)
  | .tpow5 => .tpow5 (fieldRd w) (fieldImm w)
  | .trmax => .trmax (fieldRd w) (fieldImm w)
  | .digits => .digits (fieldRd w) (fieldRs1 w)
  | .mulp10 => .mulp10 (fieldRd w) (fieldRs1 w) (fieldRs2 w) m
  | .divp10 => .divp10 (fieldRd w) (fieldRd2 w) (fieldRs1 w) (fieldRs2 w)
  | .dmake => .dmake (fieldRd w) (fieldRs1 w) (fieldSign w) (fieldImm w)
  | .dctx => .dctx (fieldRd w) (fieldRs1 w) (fieldCtxMode w) (fieldCtxTraps w)
  | .dmov => .dmov (fieldRd w) (fieldRs1 w)
  | .dcoef => .dcoef (fieldRd w) (fieldRs1 w)
  | .dcb => .dcb (fieldRd w) (fieldRs1 w)
  | .dadd => .dadd (fieldRd w) (fieldRs1 w) (fieldRs2 w)
  | .dsub => .dsub (fieldRd w) (fieldRs1 w) (fieldRs2 w)
  | .dmul => .dmul (fieldRd w) (fieldRs1 w) (fieldRs2 w)
  | .dround => .dround (fieldRd w) (fieldRs1 w) (fieldImm w)
  | .dtrunc => .dtrunc (fieldRd w) (fieldRs1 w) (fieldImm w)

/-- The `mode` of a word by the row's format: the decoded field if the row admits it (R110); format I has no `mode`. -/
def decodeMode (row : Row) (w : CmdWord) : Option Mode :=
  match row.fmt with
  | .i => some .wrapping
  | .r => (Mode.ofCode (fieldMode w)).filter row.modes.contains

/-- Decoding (R114), total on every 32-bit word; `n` is the limb count (R112). -/
def decode (n : Nat) (w : CmdWord) : Except Reject Instr :=
  match rowOf (fieldOp w) with
  | none => .error .unassignedOpcode
  | some row =>
    if w &&& row.mask ≠ row.pattern then .error .mustBeZero
    else
      match decodeMode row w with
      | none => .error .badMode
      | some m =>
        if row.fmt = .r ∧ row.signs.contains (fieldS w) = false then .error .badSign
        else if row.name = .divw ∧ n = 1 then .error .needsTwoLimbs
        else .ok (build row.name m w)

/-- A field placed in a word of `w` bits with its lowest bit at position `lo`; every other bit is 0. -/
def place {k w : Nat} (lo : Nat) (v : BitVec k) : BitVec w := v.setWidth w <<< lo

/-- A bit from a Boolean. -/
def bit (b : Bool) : BitVec 1 := BitVec.ofBool b

/-- Byte `b` of a word of the host port, on a byte-addressed host bus: bits `8b+7 .. 8b` (R82). -/
def byteOf {k : Nat} (v : BitVec k) (b : Nat) : BitVec 8 := v.extractLsb' (8 * b) 8

/-- A 32-bit command word from its bytes, the least significant first (R82). -/
def wordOfBytes : List (BitVec 8) → Option CmdWord
  | b0 :: b1 :: b2 :: b3 :: _ => some (place 24 b3 ||| place 16 b2 ||| place 8 b1 ||| place 0 b0)
  | _ => none

/-- Decoding from bytes, total on every list of bytes: the first four, in the order a byte-addressed host bus holds them (R82). -/
def decodeBytes (n : Nat) (bs : List (BitVec 8)) : Except Reject Instr :=
  match wordOfBytes bs with
  | none => .error .notAWord
  | some w => decode n w

/-! ### The encoder (R101, R102, R109) -/

/-- A word of format R (R101): `op` [31:26], `rd` [25:22], `rs1` [21:18], `rs2` [17:14], `rd2` [13:10], `mode` [9:7], `s` [6],
`z` [5:0] zero. -/
def encodeR (op : BitVec 6) (rd rs1 rs2 rd2 : BitVec 4) (m : Mode) (s : Bool) : CmdWord :=
  place 26 op ||| place 22 rd ||| place 18 rs1 ||| place 14 rs2 ||| place 10 rd2 ||| place 7 m.code ||| place 6 (bit s)

/-- A word of format I (R102): `op` [31:26], `rd` [25:22], `rs1` [21:18], `f2` [17:16], `imm16` [15:0]. -/
def encodeI (op : BitVec 6) (rd rs1 : BitVec 4) (f2 : BitVec 2) (imm : BitVec 16) : CmdWord :=
  place 26 op ||| place 22 rd ||| place 18 rs1 ||| place 16 f2 ||| place 0 imm

/-- The `imm16` of DCTX (R106): bits 2..0 the rounding mode, 10..3 the trap mask, 15..11 zero. -/
def contextImm (rm : RoundMode) (traps : BitVec 8) : BitVec 16 := place 3 traps ||| place 0 rm.code

/-- The word of a command (R109). On a term that is not well-formed it is the illegal word with that `mode` field. -/
def encode : Instr → CmdWord
  | .mov rd a => encodeR 0x01 rd a 0 0 .wrapping false
  | .ldi rd imm => encodeI 0x02 rd 0 0 imm
  | .lget rd a idx => encodeI 0x03 rd a 0 idx
  | .lset rd a idx => encodeI 0x04 rd a 0 idx
  | .shl rd a b m => encodeR 0x08 rd a b 0 m false
  | .shr rd a b m s => encodeR 0x09 rd a b 0 m s
  | .cmp a b s => encodeR 0x10 0 a b 0 .wrapping s
  | .add rd a b m s => encodeR 0x11 rd a b 0 m s
  | .sub rd a b m s => encodeR 0x12 rd a b 0 m s
  | .mul rd a b m s => encodeR 0x13 rd a b 0 m s
  | .mulw rd rd2 a b => encodeR 0x14 rd a b rd2 .wrapping false
  | .divrem rd rd2 a b m s => encodeR 0x18 rd a b rd2 m s
  | .divrd rd rd2 a b m => encodeR 0x19 rd a b rd2 m false
  | .divw rd rd2 a b m => encodeR 0x1A rd a b rd2 m false
  | .tpow10 rd k => encodeI 0x20 rd 0 0 k
  | .tpow5 rd k => encodeI 0x21 rd 0 0 k
  | .trmax rd k => encodeI 0x22 rd 0 0 k
  | .digits rd a => encodeR 0x23 rd a 0 0 .wrapping false
  | .mulp10 rd a b m => encodeR 0x24 rd a b 0 m false
  | .divp10 rd rd2 a b => encodeR 0x25 rd a b rd2 .wrapping false
  | .dmake rd a neg scale => encodeI 0x30 rd a (place 0 (bit neg)) scale
  | .dctx rd a rm traps => encodeI 0x31 rd a 0 (contextImm rm traps)
  | .dmov rd a => encodeR 0x32 rd a 0 0 .wrapping false
  | .dcoef rd a => encodeR 0x33 rd a 0 0 .wrapping false
  | .dcb rd a => encodeR 0x34 rd a 0 0 .wrapping false
  | .dadd rd a b => encodeR 0x38 rd a b 0 .wrapping false
  | .dsub rd a b => encodeR 0x39 rd a b 0 .wrapping false
  | .dmul rd a b => encodeR 0x3A rd a b 0 .wrapping false
  | .dround rd a t => encodeI 0x3C rd a 0 t
  | .dtrunc rd a t => encodeI 0x3D rd a 0 t

/-- The opcode of a command (R109). -/
def opcodeOf : Instr → Opcode
  | .mov _ _ => .mov
  | .ldi _ _ => .ldi
  | .lget _ _ _ => .lget
  | .lset _ _ _ => .lset
  | .shl _ _ _ _ => .shl
  | .shr _ _ _ _ _ => .shr
  | .cmp _ _ _ => .cmp
  | .add _ _ _ _ _ => .add
  | .sub _ _ _ _ _ => .sub
  | .mul _ _ _ _ _ => .mul
  | .mulw _ _ _ _ => .mulw
  | .divrem _ _ _ _ _ _ => .divrem
  | .divrd _ _ _ _ _ => .divrd
  | .divw _ _ _ _ _ => .divw
  | .tpow10 _ _ => .tpow10
  | .tpow5 _ _ => .tpow5
  | .trmax _ _ => .trmax
  | .digits _ _ => .digits
  | .mulp10 _ _ _ _ => .mulp10
  | .divp10 _ _ _ _ => .divp10
  | .dmake _ _ _ _ => .dmake
  | .dctx _ _ _ _ => .dctx
  | .dmov _ _ => .dmov
  | .dcoef _ _ => .dcoef
  | .dcb _ _ => .dcb
  | .dadd _ _ _ => .dadd
  | .dsub _ _ _ => .dsub
  | .dmul _ _ _ => .dmul
  | .dround _ _ _ => .dround
  | .dtrunc _ _ _ => .dtrunc

/-- The bytes of a word, the least significant first (R82). -/
def bytesOfWord (w : CmdWord) : List (BitVec 8) := [byteOf w 0, byteOf w 1, byteOf w 2, byteOf w 3]

/-- The first `nbits` bits of `w` as a command word, every higher bit zero. -/
def tableWord (nbits w : Nat) : CmdWord := BitVec.ofNat 32 (w % 2 ^ nbits)

/-- What the decoder of the reference configuration reads from the bits of `w` (log 1), through the bytes that a
byte-addressed host bus would hold (R82). -/
def decodeTableWord (nbits w : Nat) : Option Instr :=
  (decodeBytes Config.reference.n (bytesOfWord (tableWord nbits w))).toOption

end Sys2Proof
end

