-- ==== Sys2Proof/Machine/State.lean ====
section
/-! DEFINITION. The state of the block as plain data (R31 to R45, R49), the host-port accesses it performs (R87), the abort
causes (R341), and the state after reset (R60, R380). -/

namespace Sys2Proof.Machine

/-- One 64-bit word of a register with its written-since-reset mark (R49). -/
structure Slot where
  word : Word
  /-- The mark: the word has been written since reset. -/
  mark : Bool
deriving DecidableEq, Repr

/-- A decimal register (R32): the coefficient, limb 0 first, and the control block (R33). -/
structure DecReg where
  coef : List Slot
  cb : Slot
deriving DecidableEq, Repr

/-- The comparator's result, FLAGS[5:4] (R42). -/
inductive CmpResult where
  | equal | less | greater
deriving DecidableEq, Repr

/-- The fields of FLAGS (R42). Bits 63:6 read as 0 and have no storage (log 16). -/
structure Flags where
  /-- Unsigned carry, borrow or product overflow (bit 0). -/
  cf : Bool
  /-- Signed overflow (bit 1). -/
  vf : Bool
  /-- The overflow flag of the command's disposition (bit 2). -/
  of : Bool
  /-- A checked command produced no result (bit 3). -/
  none : Bool
  /-- The last comparison (bits 5:4). -/
  cmp : CmpResult
deriving DecidableEq, Repr

/-- The fields of STATUS (R43). The other bits read as 0 and have no storage (log 16). -/
structure Status where
  /-- 1 from an abort until reset (bit 0). -/
  aborted : Bool
  /-- The cause code (bits 15:8); 0 when not aborted. -/
  cause : BitVec 8
deriving DecidableEq, Repr

/-- The abort causes (R341). -/
inductive Cause where
  | illegalCommand | intOverflow | intDivByZero | indexRange | reservedOperand | roundStrict
  | signal (g : Signal)
deriving DecidableEq, Repr

/-- One access of the host at the port: a read or a write of one 64-bit word at a 16-bit word offset (R83, R87). -/
inductive HostAccess where
  | read (offset : BitVec 16)
  | write (offset : BitVec 16) (value : Word)
deriving DecidableEq, Repr

/-- The whole machine. -/
structure State where
  /-- The parameters (R7, R8), constant; `CONFIG` (R45) and the tables (R46) are functions of them (log 1, log 15). -/
  cfg : Params
  /-- The integer register file `x0`..`x15` (R31); each register is its limbs, limb 0 first. -/
  x : Vector (List Slot) 16
  /-- The decimal register file `d0`..`d15` (R32). -/
  d : Vector DecReg 16
  /-- `FLAGS` (R42). -/
  flags : Flags
  /-- `STATUS` (R43). -/
  status : Status
  /-- `ABORT_CMD` (R44). -/
  abortCmd : Word
  /-- The model's own: the host-port accesses still to be performed, in the order the host issued them (R90, log 6). -/
  port : List HostAccess
  /-- The model's own: the word the last host read returned (R87, log 7). -/
  readData : Word
  /-- The model's own: how many times `RESET` has been written, which names the free values of unwritten words (R49, R382,
  log 4). -/
  resets : Nat
deriving DecidableEq, Repr

/-- Why the machine stops. -/
inductive Fault where
  /-- `FAULT_UNWRITTEN`: a command reads a register that has a word not written since reset. Raised by every command that
  reads a register. The spec states the stop: the read "is a fault of the model" and "not a read of some value" (R49); "a model
  stops with it", and "the hardware's behaviour then is not specified" (R344); it stops the model "whatever else the command
  would do" (R348). SAFE. -/
  | unwritten
deriving DecidableEq, Repr

/-- Why an instruction has no meaning. -/
inductive Refusal where
  /-- The instruction has no meaning in the model yet. Raised by no arm: every command has its meaning. SAFE. -/
  | notModelled (mnemonic : String)
deriving DecidableEq, Repr

/-- What one command or one access of the port answers. -/
abbrev Outcome := Host.Outcome State Fault Refusal

/-- FLAGS after reset: 0 (R60). -/
def Flags.zero : Flags := { cf := false, vf := false, of := false, none := false, cmp := .equal }

/-- STATUS after reset: 0 (R60). -/
def Status.zero : Status := { aborted := false, cause := 0 }

/-- A word that has not been written since reset (R49). DESIGN CHOICE (log 2): it holds 0; its mark is clear, so nothing
reads it. -/
def Slot.unwritten : Slot := { word := 0, mark := false }

/-- An integer register of `n` limbs after reset (R60). -/
def unwrittenX (n : Nat) : List Slot := List.replicate n Slot.unwritten

/-- A decimal register with a coefficient of `n` limbs after reset (R60). -/
def unwrittenD (n : Nat) : DecReg := { coef := List.replicate n Slot.unwritten, cb := Slot.unwritten }

/-- The state after reset of a block with parameters `p` (R60, R380, R381), with no access waiting at the port. -/
def State.resetOf (p : Params) : State :=
  { cfg := p
    x := Vector.replicate 16 (unwrittenX p.n)
    d := Vector.replicate 16 (unwrittenD p.n)
    flags := Flags.zero
    status := Status.zero
    abortCmd := 0
    port := []
    readData := 0
    resets := 0 }

/-- The state after reset of the reference configuration (R7, R8, log 1). -/
def State.reset : State := State.resetOf Config.reference

end Sys2Proof.Machine
end

