-- ==== Sys2Proof/Machine/Operands.lean ====
section
/-! DEFINITION. The readings of operands: limb arrays as BigUInt and BigInt (R11, R12, R31, R81), the ranges of an N-limb
value (R9), and the immediates (R106). -/

namespace Sys2Proof.Machine

/-! ### Ranges (R9) -/

/-- The width of an `n`-limb value in bits, `64N` (R31). -/
def width (n : Nat) : Nat := 64 * n

/-- `2^(64N)`, the number of patterns of an N-limb register (R12). -/
def modulus (n : Nat) : Nat := 2 ^ width n

/-- `MAXU` (R9). -/
def maxU (n : Nat) : Nat := modulus n - 1

/-- `MAXS` (R9). -/
def maxS (n : Nat) : Int := 2 ^ (width n - 1) - 1

/-- `MINS` (R9). -/
def minS (n : Nat) : Int := -(2 ^ (width n - 1))

/-! ### Limb arrays (R11, R12) -/

/-- `uval`: the BigUInt reading, the sum of `limb[i] * 2^(64i)` (R12, R31). -/
def uval : LimbArray → Nat
  | [] => 0
  | w :: ws => w.toNat + 2 ^ 64 * uval ws

/-- The `n` limbs of the low `64n` bits of a natural, limb 0 first (R11, R81). -/
def limbsOf : Nat → Nat → LimbArray
  | 0, _ => []
  | n + 1, v => BitVec.ofNat 64 v :: limbsOf n (v / 2 ^ 64)

/-- `sval`: the BigInt reading, two's complement by the top bit of limb N-1 (R12). -/
def sval (n : Nat) (a : LimbArray) : Int :=
  if (uval a).testBit (width n - 1) then (uval a : Int) - modulus n else uval a

/-- The integer reading an `s` field selects (R105). -/
def reading (n : Nat) (sgn : Bool) (a : LimbArray) : Int := if sgn then sval n a else uval a

/-- `pat`: the pattern of an integer, `v mod 2^(64N)` (R12). -/
def pat (n : Nat) (v : Int) : LimbArray := limbsOf n (v % (modulus n : Int)).toNat

/-- Limb `j` of a limb array (R11). -/
def limb (a : LimbArray) (j : Nat) : Word := a.getD j 0

/-- `zext_64N` of a word or of any natural below `2^(64N)` (R11). -/
def zext (n : Nat) (v : Nat) : LimbArray := limbsOf n v

/-- The largest value of an unsigned destination, as a pattern (R9). -/
def patMaxU (n : Nat) : LimbArray := limbsOf n (maxU n)

/-! ### Immediates (R106) -/

/-- A limb index or a table index: the immediate, unsigned (R106). -/
def immIndex (imm : BitVec 16) : Nat := imm.toNat

/-- A scale: the immediate as `i16` (R106). -/
def sval16 (imm : BitVec 16) : Int := imm.toInt

/-- `pat16`: the 16-bit two's-complement pattern of an integer (R273). -/
def pat16 (v : Int) : BitVec 16 := BitVec.ofInt 16 v

end Sys2Proof.Machine
end

