-- ==== Sys2Proof/Machine/Flags.lean ====
section
/-! DEFINITION. The flag computations of the integer commands (R42, R144, R172) and the words FLAGS, STATUS and CONFIG show
the host (R42, R43, R45). -/

namespace Sys2Proof.Machine

/-- The three flag values an integer command computes before its disposition (R144). -/
structure ArithFlags where
  cf : Bool
  vf : Bool
  of : Bool
deriving DecidableEq, Repr

/-- All three flags 0. -/
def ArithFlags.clear : ArithFlags := { cf := false, vf := false, of := false }

/-- An unsigned result outside `0..MAXU`: a carry, a borrow or a product that does not fit (R172, R175). -/
def unsignedOverflow (n : Nat) (tu : Int) : Bool := decide (tu < 0 ∨ (maxU n : Int) < tu)

/-- A signed result outside `MINS..MAXS` (R172). -/
def signedOverflow (n : Nat) (ts : Int) : Bool := decide (ts < minS n ∨ maxS n < ts)

/-- The flags of the adder family from the two exact results: CF, VF, and OF by the signedness (R172). -/
def adderFlags (n : Nat) (sgn : Bool) (tu ts : Int) : ArithFlags :=
  { cf := unsignedOverflow n tu
    vf := signedOverflow n ts
    of := if sgn then signedOverflow n ts else unsignedOverflow n tu }

/-- The flags of a command whose only flag is OF (R146, R147, R204). -/
def overflowOnly (o : Bool) : ArithFlags := { cf := false, vf := false, of := o }

/-- FLAGS after a command that writes CF, VF, OF and NONE; CMP is kept (R42, R144). -/
def Flags.withArith (f : Flags) (a : ArithFlags) (none : Bool) : Flags :=
  { f with cf := a.cf, vf := a.vf, of := a.of, none := none }

/-- The comparison of two readings (R170). -/
def compareReadings (a b : Int) : CmpResult :=
  if a < b then .less else if b < a then .greater else .equal

/-- The code of a comparison in FLAGS[5:4] (R42). -/
def CmpResult.code : CmpResult → BitVec 2
  | .equal => 0 | .less => 1 | .greater => 2

/-- FLAGS as the host reads it (R42). -/
def Flags.toWord (f : Flags) : Word :=
  place 0 (bit f.cf) ||| place 1 (bit f.vf) ||| place 2 (bit f.of) ||| place 3 (bit f.none) ||| place 4 f.cmp.code

/-- STATUS as the host reads it (R43). -/
def Status.toWord (t : Status) : Word := place 0 (bit t.aborted) ||| place 8 t.cause

/-- CONFIG as the host reads it: `N` in bits 15:0 (R45). -/
def configWord (p : Params) : Word := place 0 (BitVec.ofNat 16 p.n)

/-- The bit index of a signal (R36). -/
def signalIndex : Signal → Nat
  | .clamped => 0 | .divByZero => 1 | .inexact => 2 | .invalid => 3
  | .overflow => 4 | .rounded => 5 | .subnormal => 6 | .underflow => 7

/-- The code of an abort cause (R341): a signal's cause is `0x10` plus its bit index. -/
def Cause.code : Cause → BitVec 8
  | .illegalCommand => 0x01
  | .intOverflow => 0x02
  | .intDivByZero => 0x03
  | .indexRange => 0x04
  | .reservedOperand => 0x05
  | .roundStrict => 0x06
  | .signal g => 0x10 + BitVec.ofNat 8 (signalIndex g)

end Sys2Proof.Machine
end

