-- ==== Sys2Proof/Machine/Ops.lean ====
section
/-! DEFINITION. The shared operations: reading and writing registers with their marks (R49), taking an abort (R345) and
leaving the aborted state (R347, R380), the disposition procedure (R144), division by zero (R201), and the frame every
command runs in (R340). -/

namespace Sys2Proof.Machine

/-- Why a command's rule stops before its writes (R340): an operand is not written, or the rule raises an abort. -/
inductive Stop where
  | unwritten
  | abort (c : Cause)
deriving DecidableEq, Repr

/-! ### Registers (R31, R32, R49) -/

/-- A register is written when the marks of all its words are set (R49). -/
def allMarked (r : List Slot) : Bool := r.all Slot.mark

/-- The words of a register. -/
def slotWords (r : List Slot) : List Word := r.map Slot.word

/-- A register's words as a command writes them: every mark set (R49). -/
def markedSlots (a : LimbArray) : List Slot := a.map fun w => { word := w, mark := true }

/-- The storage of `x[r]`. -/
def State.xSlots (s : State) (r : XIdx) : List Slot := s.x[r.toNat]'r.isLt

/-- The storage of `d[r]`. -/
def State.dSlots (s : State) (r : DIdx) : DecReg := s.d[r.toNat]'r.isLt

/-- Replace the storage of `x[r]`. -/
def State.setXSlots (s : State) (r : XIdx) (v : List Slot) : State :=
  { s with x := s.x.set r.toNat v r.isLt }

/-- Replace the storage of `d[r]`. -/
def State.setDSlots (s : State) (r : DIdx) (v : DecReg) : State :=
  { s with d := s.d.set r.toNat v r.isLt }

/-- `x[r]` as a source operand of a command (R14, R340). One word of it not written is `FAULT_UNWRITTEN` (R49), whichever of its
words the command uses (log 3). -/
def State.readX (s : State) (r : XIdx) : Except Stop LimbArray :=
  if allMarked (s.xSlots r) then .ok (slotWords (s.xSlots r)) else .error .unwritten

/-- `x[r] <- a` by a command; it sets every mark of the register (R14, R49). -/
def State.writeX (s : State) (r : XIdx) (a : LimbArray) : State := s.setXSlots r (markedSlots a)

/-- The contents of a decimal register as a command reads them: coefficient and control block, raw. -/
structure DecWord where
  coef : LimbArray
  cb : Word
deriving DecidableEq, Repr

/-- `d[r]` as a source operand of a command, raw bits (R14, R340). One word of it not written is `FAULT_UNWRITTEN` (R49),
whichever of its words the command uses (log 3). -/
def State.readD (s : State) (r : DIdx) : Except Stop DecWord :=
  if allMarked (s.dSlots r).coef && (s.dSlots r).cb.mark then
    .ok { coef := slotWords (s.dSlots r).coef, cb := (s.dSlots r).cb.word }
  else .error .unwritten

/-- `d[r] <- v` by a command; it sets every mark of the register (R14, R49). -/
def State.writeD (s : State) (r : DIdx) (v : DecWord) : State :=
  s.setDSlots r { coef := markedSlots v.coef, cb := { word := v.cb, mark := true } }

/-! ### Aborts and reset (R345, R347, R380) -/

/-- Taking an abort (R345): STATUS and ABORT_CMD record the cause and the command word; no register and no flag is written. -/
def State.takeAbort (s : State) (c : Cause) (w : CmdWord) : State :=
  { s with status := { aborted := true, cause := c.code }, abortCmd := w.setWidth 64 }

/-- The reset of R380, the only way out of the aborted state (R347). It clears FLAGS, STATUS, ABORT_CMD and every mark. The
contents of the registers become unspecified (R382): the model holds 0 in them, which nothing can read (log 5), and
counts the reset, which gives unwritten words new free values (log 4). The host's own side of the port is not the block's and
is kept. -/
def State.resetBlock (s : State) : State :=
  { State.resetOf s.cfg with port := s.port, readData := s.readData, resets := s.resets + 1 }

/-! ### The command frame (R340) -/

/-- How a command ends (R340): its writes all happen; or it aborts, and none does; or an operand was not written,
and the model stops (R49, R344, R348). -/
def conclude (w : CmdWord) (s : State) : Except Stop State → Outcome
  | .ok t => .next t
  | .error .unwritten => .fault .unwritten
  | .error (.abort c) => .next (s.takeAbort c w)

/-- Run a command's rule (R340). A term that is no legal command of this block is the illegal word with its fields, and
aborts before any operand is read (R113, R348, log 11). The command word is the one that encodes the command (log 10). -/
def runCommand (i : Instr) (s : State) (rule : Except Stop State) : Outcome :=
  conclude (encode i) s (if i.wf s.cfg.n then rule else .error (.abort .illegalCommand))

/-! ### The disposition procedure (R144) and division by zero (R201) -/

/-- One destination with the pattern it receives. -/
abbrev XWrite := XIdx × LimbArray

/-- Write the destinations in order, `rd` and then `rd2`, so that the last of two equal ones remains (R15). -/
def State.writeXs (s : State) (ws : List XWrite) : State := ws.foldl (fun t p => t.writeX p.1 p.2) s

/-- Write CF, VF, OF and NONE (R42). -/
def State.putArith (s : State) (f : ArithFlags) (none : Bool) : State :=
  { s with flags := s.flags.withArith f none }

/-- `Finish` (R144). `exc` is the exceptional case with its abort cause, if the command is in it; `sat` is read only in
saturating mode. -/
def finish (mode : Mode) (exc : Option Cause) (res sat : List XWrite) (f : ArithFlags) (s : State) :
    Except Stop State :=
  match mode, exc with
  | .wrapping, _ => .ok ((s.writeXs res).putArith f false)
  | .overflowing, _ => .ok ((s.writeXs res).putArith f false)
  | .checked, some _ => .ok (s.putArith f true)
  | .checked, none => .ok ((s.writeXs res).putArith f false)
  | .strict, some c => .error (.abort c)
  | .strict, none => .ok ((s.writeXs res).putArith f false)
  | .saturating, some _ => .ok ((s.writeXs sat).putArith f false)
  | .saturating, none => .ok ((s.writeXs res).putArith f false)

/-- The exceptional case of a command whose only cause is an integer overflow (R341). -/
def onOverflow (exc : Bool) : Option Cause := if exc then some .intOverflow else none

/-- `DivZero` (R201): checked writes no destination and sets NONE; every other mode aborts. -/
def divZero (mode : Mode) (s : State) : Except Stop State :=
  match mode with
  | .checked => .ok (s.putArith ArithFlags.clear true)
  | _ => .error (.abort .intDivByZero)

end Sys2Proof.Machine
end

