-- ==== Sys2Proof/Machine/Arith.lean ====
section
/-! DEFINITION. The comparator, the adder and subtractor, and the multipliers: CMP, ADD, SUB, MUL, MULW (R170, R172 to R176). -/

namespace Sys2Proof.Machine

/-- `CMP[.s] xa, xb` (R170). It writes FLAGS.CMP alone. -/
def execCmp (rs1 rs2 : XIdx) (sgn : Bool) (s : State) : Outcome :=
  runCommand (.cmp rs1 rs2 sgn) s do
    let a ← s.readX rs1
    let b ← s.readX rs2
    let n := s.cfg.n
    .ok { s with flags := { s.flags with cmp := compareReadings (reading n sgn a) (reading n sgn b) } }

/-- A signed result saturated in the direction `up` says (R173 to R175). -/
def patSigned (n : Nat) (up : Bool) : LimbArray := if up then pat n (maxS n) else pat n (minS n)

/-- The saturated sum (R173). -/
def satAdd (n : Nat) (sgn : Bool) (ts : Int) : LimbArray :=
  if sgn then patSigned n (decide (maxS n < ts)) else patMaxU n

/-- The saturated difference (R174). -/
def satSub (n : Nat) (sgn : Bool) (ts : Int) : LimbArray :=
  if sgn then patSigned n (decide (maxS n < ts)) else zext n 0

/-- The saturated product (R175). -/
def satMul (n : Nat) (sgn : Bool) (ts : Int) : LimbArray :=
  if sgn then patSigned n (decide (0 < ts)) else patMaxU n

/-- The end of ADD, SUB and MUL: the exact results `tu` and `ts` of the two readings go through the disposition (R173 to R175). -/
def finishAdder (rd : XIdx) (mode : Mode) (sgn : Bool) (tu ts : Int) (sat : LimbArray) (s : State) :
    Except Stop State :=
  let f := adderFlags s.cfg.n sgn tu ts
  finish mode (onOverflow f.of) [(rd, pat s.cfg.n tu)] [(rd, sat)] f s

/-- `ADD[.mode][.s] xd, xa, xb` (R173). -/
def execAdd (rd rs1 rs2 : XIdx) (mode : Mode) (sgn : Bool) (s : State) : Outcome :=
  runCommand (.add rd rs1 rs2 mode sgn) s do
    let a ← s.readX rs1
    let b ← s.readX rs2
    let n := s.cfg.n
    finishAdder rd mode sgn (uval a + uval b) (sval n a + sval n b) (satAdd n sgn (sval n a + sval n b)) s

/-- `SUB[.mode][.s] xd, xa, xb` (R174). -/
def execSub (rd rs1 rs2 : XIdx) (mode : Mode) (sgn : Bool) (s : State) : Outcome :=
  runCommand (.sub rd rs1 rs2 mode sgn) s do
    let a ← s.readX rs1
    let b ← s.readX rs2
    let n := s.cfg.n
    finishAdder rd mode sgn ((uval a : Int) - uval b) (sval n a - sval n b) (satSub n sgn (sval n a - sval n b)) s

/-- `MUL[.mode][.s] xd, xa, xb` (R175). -/
def execMul (rd rs1 rs2 : XIdx) (mode : Mode) (sgn : Bool) (s : State) : Outcome :=
  runCommand (.mul rd rs1 rs2 mode sgn) s do
    let a ← s.readX rs1
    let b ← s.readX rs2
    let n := s.cfg.n
    finishAdder rd mode sgn (uval a * uval b) (sval n a * sval n b) (satMul n sgn (sval n a * sval n b)) s

/-- `MULW xlo, xhi, xa, xb` (R176). -/
def execMulw (rd rd2 rs1 rs2 : XIdx) (s : State) : Outcome :=
  runCommand (.mulw rd rd2 rs1 rs2) s do
    let a ← s.readX rs1
    let b ← s.readX rs2
    let t := uval a * uval b
    let n := s.cfg.n
    finish .wrapping none [(rd, zext n (t % modulus n)), (rd2, zext n (t / modulus n))] [] ArithFlags.clear s

end Sys2Proof.Machine
end

