-- ==== Sys2Proof/Machine/Decimal.lean ====
section
/-! DEFINITION. Decimal values: the control block's layout (R33 to R38), signal sets (R36), reading an arithmetic operand (R260),
the value a register denotes (R39) and its accessors (R40). -/

namespace Sys2Proof.Machine

/-! ### Signal sets (R36) -/

/-- A set of signals: bit `i` is signal `i` of R36. -/
abbrev SignalSet := BitVec 8

/-- The set of one signal. -/
def single (g : Signal) : SignalSet := 1#8 <<< signalIndex g

/-- Membership. -/
def SignalSet.has (t : SignalSet) (g : Signal) : Bool := t.getLsbD (signalIndex g)

/-- The set of one signal if a condition holds, else the empty set. -/
def raiseIf (b : Bool) (g : Signal) : SignalSet := if b then single g else 0

/-! ### The control block (R33) -/

def cbScale (cb : Word) : BitVec 16 := cb.extractLsb' 0 16
def cbSign (cb : Word) : Bool := cb.getLsbD 16
def cbSpecial (cb : Word) : BitVec 2 := cb.extractLsb' 17 2
def cbSignals (cb : Word) : SignalSet := cb.extractLsb' 19 8
def cbRm (cb : Word) : RoundMode := RoundMode.ofCode (cb.extractLsb' 27 3)
def cbTraps (cb : Word) : SignalSet := cb.extractLsb' 30 8
def cbReserved (cb : Word) : BitVec 26 := cb.extractLsb' 38 26

/-- A well-formed control block (R35). -/
def cbWellFormed (cb : Word) : Bool := decide (cbSpecial cb ≠ 3#2) && decide (cbReserved cb = 0)

/-- A context: a rounding mode and a trap mask (R261). -/
structure Context where
  rm : RoundMode
  traps : SignalSet
deriving DecidableEq, Repr

/-- The default context: HalfUp, traps DivByZero, Invalid and Overflow (R38). -/
def Context.default : Context := { rm := .halfUp, traps := 0x1A }

/-- The context a control block carries. -/
def cbContext (cb : Word) : Context := { rm := cbRm cb, traps := cbTraps cb }

/-- Finite, NaN or infinite (R34, R260). -/
inductive Kind where
  | finite | nan | inf
deriving DecidableEq, Repr

/-- The `special` field of a kind (R34). -/
def Kind.code : Kind → BitVec 2
  | .finite => 0 | .nan => 1 | .inf => 2

/-- The kind of a `special` field; 11 is reserved (R34, R35). -/
def Kind.ofCode (c : BitVec 2) : Option Kind :=
  if c = 0 then some .finite else if c = 1 then some .nan else if c = 2 then some .inf else none

/-- A control block from its fields, the reserved bits zero (R33, R273). -/
def packCb (scale : BitVec 16) (sign : Bool) (kind : Kind) (signals : SignalSet) (ctx : Context) : Word :=
  place 0 scale ||| place 16 (bit sign) ||| place 17 kind.code ||| place 19 signals ||| place 27 ctx.rm.code |||
    place 30 ctx.traps

/-- A control block with its context replaced, every other bit kept (R291). -/
def cbWithContext (cb : Word) (ctx : Context) : Word :=
  place 0 (cb.extractLsb' 0 27) ||| place 27 ctx.rm.code ||| place 30 ctx.traps ||| place 38 (cbReserved cb)

/-! ### Arithmetic operands (R260) -/

/-- An arithmetic decimal operand as `ReadDec` gives it (R260). -/
structure DecOperand where
  kind : Kind
  /-- The coefficient `C`. -/
  coef : Nat
  /-- The sign `g`: true is minus. -/
  neg : Bool
  /-- The exponent `e = -scale`. -/
  exp : Int
  /-- The signal set `S`. -/
  signals : SignalSet
  ctx : Context
deriving DecidableEq, Repr

/-- The check and unpacking of `ReadDec` (R260, R342): a malformed control block aborts. -/
def readDec (v : DecWord) : Except Stop DecOperand :=
  if cbReserved v.cb ≠ 0 then .error (.abort .reservedOperand)
  else
    match Kind.ofCode (cbSpecial v.cb) with
    | none => .error (.abort .reservedOperand)
    | some k =>
      .ok { kind := k, coef := uval v.coef, neg := cbSign v.cb, exp := -sval16 (cbScale v.cb),
            signals := cbSignals v.cb, ctx := cbContext v.cb }

/-! ### Values and accessors (R39, R40) -/

/-- What a decimal register denotes (R39). -/
inductive Denotation where
  | finite (q : Rat)
  | inf (neg : Bool)
  | nan
deriving DecidableEq, Repr

/-- `(-1)^g * C * 10^e` (R39). -/
def finiteValue (coef : Nat) (neg : Bool) (exp : Int) : Rat := (if neg then -1 else 1) * coef * (10 : Rat) ^ exp

/-- The value of an operand (R39). -/
def DecOperand.value (v : DecOperand) : Denotation :=
  match v.kind with
  | .finite => .finite (finiteValue v.coef v.neg v.exp)
  | .inf => .inf v.neg
  | .nan => .nan

/-- The value a decimal register's contents denote, if the control block is well-formed (R39). -/
def denote (v : DecWord) : Option Denotation := (readDec v).toOption.map DecOperand.value

/-- `scale()` (R40). -/
def scaleOf (v : DecWord) : Int := sval16 (cbScale v.cb)

/-- `is_negative` (R40). -/
def isNegative (v : DecWord) : Bool := cbSign v.cb

/-- `is_zero` (R40). -/
def isZero (v : DecWord) : Bool := decide (cbSpecial v.cb = 0) && decide (uval v.coef = 0)

/-- `is_nan` (R40). -/
def isNan (v : DecWord) : Bool := decide (cbSpecial v.cb = 1)

/-- `is_infinite` (R40). -/
def isInfinite (v : DecWord) : Bool := decide (cbSpecial v.cb = 2)

/-- `is_op_<signal>` (R40). -/
def isOp (v : DecWord) (g : Signal) : Bool := (cbSignals v.cb).has g

end Sys2Proof.Machine
end

