-- ==== Sys2Proof/Machine/Tables.lean ====
section
/-! DEFINITION. The read-only tables (R46), the digit count (R234), and the commands over them: TPOW10, TPOW5, TRMAX, DIGITS,
MULP10, DIVP10 (R230 to R232, R236 to R238). -/

namespace Sys2Proof.Machine

/-- The number of digits of `m` in base `b`, with one digit for 0; `fuel` bounds the digits counted. -/
def digitsWithin (b : Nat) : (fuel m : Nat) → Nat
  | 0, _ => 1
  | fuel + 1, m => if m < b then 1 else digitsWithin b fuel (m / b) + 1

/-- The number of digits of `m` in base `b >= 2`. A number has no more digits than bits. -/
def digitCount (b m : Nat) : Nat := digitsWithin b (m.log2 + 1) m

/-- `dc(m)`, the decimal digit count, with `dc(0) = 1` (R234). -/
def dc (m : Nat) : Nat := digitCount 10 m

/-- `K10(N)`, the largest `k` with `10^k <= MAXU` (R9). -/
def k10 (n : Nat) : Nat := digitCount 10 (maxU n) - 1

/-- `K5(N)`, the largest `k` with `5^k <= MAXU` (R9). -/
def k5 (n : Nat) : Nat := digitCount 5 (maxU n) - 1

/-- `MAX_CLENGTH(N)` (R9). -/
def maxCLength (n : Nat) : Nat := k10 n + 1

/-- `ROM10[k]`, for `k <= K10(N)` (R46). -/
def rom10 (k : Nat) : Nat := 10 ^ k

/-- `ROM5[k]`, for `k <= K5(N)` (R46). -/
def rom5 (k : Nat) : Nat := 5 ^ k

/-- `ROMRMAX[k]`, for `k <= K10(N)` (R46). -/
def romRMax (n k : Nat) : Nat := maxU n / 10 ^ k

/-- A table read: an index beyond the table aborts (R230 to R232). -/
def tableRead (rd : XIdx) (last k : Nat) (entry : Nat) (s : State) : Except Stop State :=
  if last < k then .error (.abort .indexRange) else .ok (s.writeX rd (zext s.cfg.n entry))

/-- `TPOW10 xd, k` (R230). -/
def execTpow10 (rd : XIdx) (k : BitVec 16) (s : State) : Outcome :=
  runCommand (.tpow10 rd k) s (tableRead rd (k10 s.cfg.n) (immIndex k) (rom10 (immIndex k)) s)

/-- `TPOW5 xd, k` (R231). -/
def execTpow5 (rd : XIdx) (k : BitVec 16) (s : State) : Outcome :=
  runCommand (.tpow5 rd k) s (tableRead rd (k5 s.cfg.n) (immIndex k) (rom5 (immIndex k)) s)

/-- `TRMAX xd, k` (R232). -/
def execTrmax (rd : XIdx) (k : BitVec 16) (s : State) : Outcome :=
  runCommand (.trmax rd k) s (tableRead rd (k10 s.cfg.n) (immIndex k) (romRMax s.cfg.n (immIndex k)) s)

/-- `DIGITS xd, xa` (R236). -/
def execDigits (rd rs1 : XIdx) (s : State) : Outcome :=
  runCommand (.digits rd rs1) s do
    let a ← s.readX rs1
    .ok (s.writeX rd (zext s.cfg.n (dc (uval a))))

/-- The power of ten MULP10 and DIVP10 use for the amount `k`: `10^k`, with `k` cut to `64N`. For every `k >= 64N` the results
of R237 and R238 are those of `k = 64N`, since `2^(64N)` divides `10^k` and `10^k > MAXU` (log 12). -/
def powerFor (n k : Nat) : Nat := 10 ^ min k (width n)

/-- `MULP10[.mode] xd, xa, xb` (R237). -/
def execMulp10 (rd rs1 rs2 : XIdx) (mode : Mode) (s : State) : Outcome :=
  runCommand (.mulp10 rd rs1 rs2 mode) s do
    let a ← s.readX rs1
    let b ← s.readX rs2
    let n := s.cfg.n
    let t := uval a * powerFor n (uval b)
    let exc := decide (maxU n < t)
    finish mode (onOverflow exc) [(rd, pat n t)] [(rd, patMaxU n)] { cf := exc, vf := false, of := exc } s

/-- `DIVP10 xq, xr, xa, xb` (R238). -/
def execDivp10 (rd rd2 rs1 rs2 : XIdx) (s : State) : Outcome :=
  runCommand (.divp10 rd rd2 rs1 rs2) s do
    let a ← s.readX rs1
    let b ← s.readX rs2
    let n := s.cfg.n
    let p := powerFor n (uval b)
    finish .wrapping none [(rd, zext n (uval a / p)), (rd2, zext n (uval a % p))] [] ArithFlags.clear s

end Sys2Proof.Machine
end

