-- ==== Sys2Proof/Machine/Normalizer.lean ====
section
/-! DEFINITION. Rounding and the normalizer (R262 to R270), the Strict and trap checks (R271, R272) and the write of a decimal
result (R273 to R276). -/

namespace Sys2Proof.Machine

/-- The increment of `RoundDiv` for a quotient `q` and remainder `r` by `p` (R262). -/
def roundUp (rm : RoundMode) (neg : Bool) (p q r : Nat) : Bool :=
  match rm with
  | .up => decide (r ≠ 0)
  | .down => false
  | .ceiling => decide (r ≠ 0) && !neg
  | .floor => decide (r ≠ 0) && neg
  | .halfUp => decide (p ≤ 2 * r)
  | .halfDown => decide (p < 2 * r)
  | .halfEven => decide (p < 2 * r) || (decide (2 * r = p) && decide (q % 2 = 1))
  | .strict => false

/-- `RoundDiv(M, k, g, rm)` (R262). -/
def roundDiv (m k : Nat) (neg : Bool) (rm : RoundMode) : Nat :=
  if k = 0 then m
  else m / 10 ^ k + (if roundUp rm neg (10 ^ k) (m / 10 ^ k) (m % 10 ^ k) then 1 else 0)

/-- The least `k' >= k` with `RoundDiv(M, k', g, rm) <= lim`, looked for among the first `fuel` candidates. -/
def leastFit (lim m : Nat) (neg : Bool) (rm : RoundMode) : (fuel k : Nat) → Nat
  | 0, k => k
  | fuel + 1, k => if roundDiv m k neg rm ≤ lim then k else leastFit lim m neg rm fuel (k + 1)

/-- `k0`, the least shift count of at least `kreq` that fits (R266). `dc(M)` candidates suffice. -/
def fitCount (lim m : Nat) (neg : Bool) (rm : RoundMode) (kreq : Nat) : Nat :=
  leastFit lim m neg rm (dc m) kreq

/-- What the normalizer answers (R264). -/
structure NormResult where
  kind : Kind
  coef : Nat
  neg : Bool
  exp : Int
  /-- `new`: the signals raised. -/
  new : SignalSet
deriving DecidableEq, Repr

/-- Stage 4, the range stage (R269). -/
def rangeStage (p : Params) (c : Nat) (neg : Bool) (e : Int) (new : SignalSet) : NormResult :=
  if e ≤ p.eMax then { kind := .finite, coef := c, neg := neg, exp := e, new := new }
  else
    let c' := c * 10 ^ (e - p.eMax).toNat
    if c' ≤ maxU p.n then
      { kind := .finite, coef := c', neg := neg, exp := p.eMax,
        new := new ||| single .clamped ||| single .rounded }
    else
      { kind := .inf, coef := 0, neg := neg, exp := 0,
        new := new ||| single .overflow ||| single .inexact ||| single .rounded }

/-- Stages 1 to 3 for a zero (R268), then stage 4. -/
def normZero (p : Params) (neg : Bool) (e : Int) (kreq : Nat) : NormResult :=
  let e' := e + kreq
  rangeStage p 0 neg (max e' p.eMin)
    (raiseIf (decide (0 < kreq)) .rounded ||| raiseIf (decide (e' < p.eMin)) .clamped)

/-- Stages 1 to 3 for a nonzero magnitude (R266), then stage 4. -/
def normNonzero (p : Params) (m : Nat) (neg : Bool) (e : Int) (rm : RoundMode) (kreq : Nat) : NormResult :=
  let k0 := fitCount (maxU p.n) m neg rm kreq
  let k := max k0 (p.eMin - e).toNat
  rangeStage p (roundDiv m k neg rm) neg (e + k)
    (raiseIf (decide (0 < k)) .rounded ||| raiseIf (decide (m % 10 ^ k ≠ 0)) .inexact |||
      raiseIf (decide (e + k0 < p.eMin)) .underflow ||| raiseIf (decide (e + dc m - 1 < p.eMin)) .subnormal)

/-- The normalizer, `NORM(M, g, e, rm, kreq)` (R264). -/
def normOf (p : Params) (m : Nat) (neg : Bool) (e : Int) (rm : RoundMode) (kreq : Nat) : NormResult :=
  if m = 0 then normZero p neg e kreq else normNonzero p m neg e rm kreq

/-! ### Checks and the write (R271 to R276) -/

/-- The signals in the source's priority order, the first the most important (R272, R348, R349). -/
def signalPriority : List Signal :=
  [.divByZero, .invalid, .overflow, .underflow, .inexact, .rounded, .subnormal, .clamped]

/-- The trapped signal that an abort names (R272). -/
def firstTrapped (t : SignalSet) : Option Signal := signalPriority.find? t.has

/-- The signal a host names for a result that carries several (R349). The block has no command for it. -/
def reportedSignal (v : DecWord) : Option Signal := firstTrapped (cbSignals v.cb)

/-- The contents of a decimal register with a result (R273), canonical for the specials (R274). -/
def resultWord (n : Nat) (r : NormResult) (inherited : SignalSet) (ctx : Context) : DecWord :=
  { coef := zext n (if r.kind = .finite then r.coef else 0)
    cb := packCb (if r.kind = .finite then pat16 (-r.exp) else 0) (decide (r.kind ≠ .nan) && r.neg) r.kind
      (inherited ||| r.new) ctx }

/-- The Strict check (R271), then the trap check (R272), then the write of `d[rd]` (R273). -/
def finishDecimal (rd : DIdx) (r : NormResult) (inherited : SignalSet) (ctx : Context) (s : State) :
    Except Stop State :=
  if ctx.rm = .strict ∧ r.new.has .inexact = true then .error (.abort .roundStrict)
  else
    match firstTrapped (r.new &&& ctx.traps) with
    | some g => .error (.abort (.signal g))
    | none => .ok (s.writeD rd (resultWord s.cfg.n r inherited ctx))

/-- A NaN result that raises `new` (R274, R276, R310). -/
def nanResult (new : SignalSet) : NormResult := { kind := .nan, coef := 0, neg := false, exp := 0, new := new }

/-- An Infinity result with its sign; no new signal (R274, R310). -/
def infResult (neg : Bool) : NormResult := { kind := .inf, coef := 0, neg := neg, exp := 0, new := 0 }

end Sys2Proof.Machine
end

