-- ==== Sys2Proof/Machine/DecimalArith.lean ====
section
/-! DEFINITION. Decimal add, subtract and multiply: DADD, DSUB, DMUL (R310 to R315). None writes FLAGS (R277). -/

namespace Sys2Proof.Machine

/-- What the alignment loop leaves (R311): the scale difference `D` at which it stopped, the coefficient of the operand of
larger scale, and the signals raised. -/
structure Aligned where
  diff : Nat
  coef : Nat
  new : SignalSet
deriving DecidableEq, Repr

/-- The loop of `Align` (R311), from the scale difference `D`: while the operand of smaller scale, `lo`, does not fit at the
larger scale, the operand of larger scale drops one digit, rounded by the context's mode. -/
def alignLoop (lim : Nat) (rm : RoundMode) (hiNeg : Bool) (lo : Nat) : (diff hi : Nat) → (new : SignalSet) → Aligned
  | 0, hi, new => { diff := 0, coef := hi, new := new }
  | diff + 1, hi, new =>
    if lo * 10 ^ (diff + 1) ≤ lim then { diff := diff + 1, coef := hi, new := new }
    else
      alignLoop lim rm hiNeg lo diff (roundDiv hi 1 hiNeg rm)
        (new ||| single .rounded ||| raiseIf (decide (hi % 10 ≠ 0)) .inexact)

/-- `Combine` (R312): the sign and magnitude of the sum of two aligned magnitudes; true is minus. -/
def combine (a : Nat) (negA : Bool) (b : Nat) (negB : Bool) (rm : RoundMode) : Nat × Bool :=
  if negA = negB then (a + b, negA)
  else if b < a then (a - b, negA)
  else if a < b then (b - a, negB)
  else (0, decide (rm = .floor))

/-- The sum of a finite operand `hi` and a finite operand `lo` whose exponent is not less (R311 to R313). -/
def addAligned (p : Params) (rm : RoundMode) (hi lo : DecOperand) : NormResult :=
  let al := alignLoop (maxU p.n) rm hi.neg lo.coef (lo.exp - hi.exp).toNat hi.coef 0
  let sum := combine (lo.coef * 10 ^ al.diff) lo.neg al.coef hi.neg rm
  let r := normOf p sum.1 sum.2 (lo.exp - al.diff) rm 0
  { r with new := al.new ||| r.new }

/-- The sum of two finite operands; the one of larger scale is `hi`, and `a` when the scales are equal (R311). -/
def addFinite (p : Params) (rm : RoundMode) (a b : DecOperand) : NormResult :=
  if a.exp ≤ b.exp then addAligned p rm a b else addAligned p rm b a

/-- The result of DADD (R276, R310, R313). -/
def addResult (p : Params) (a b : DecOperand) : NormResult :=
  match a.kind, b.kind with
  | .nan, _ => nanResult 0
  | _, .nan => nanResult 0
  | .inf, .inf => if a.neg = b.neg then infResult a.neg else nanResult (single .invalid)
  | .inf, .finite => infResult a.neg
  | .finite, .inf => infResult b.neg
  | .finite, .finite => addFinite p a.ctx.rm a b

/-- The result of DMUL (R276, R310, R315). -/
def mulResult (p : Params) (a b : DecOperand) : NormResult :=
  match a.kind, b.kind with
  | .nan, _ => nanResult 0
  | _, .nan => nanResult 0
  | .inf, .inf => infResult (xor a.neg b.neg)
  | .inf, .finite => if b.coef = 0 then nanResult (single .invalid) else infResult (xor a.neg b.neg)
  | .finite, .inf => if a.coef = 0 then nanResult (single .invalid) else infResult (xor a.neg b.neg)
  | .finite, .finite => normOf p (a.coef * b.coef) (xor a.neg b.neg) (a.exp + b.exp) a.ctx.rm 0

/-- The sign of the second operand inverted, but for a NaN (R314). -/
def negateOperand (b : DecOperand) : DecOperand := if b.kind = .nan then b else { b with neg := !b.neg }

/-- Reading two arithmetic operands: both registers first (R340), then `rs1` is checked before `rs2` (R260, R348). -/
def readDec2 (s : State) (rs1 rs2 : DIdx) : Except Stop (DecOperand × DecOperand) := do
  let u ← s.readD rs1
  let v ← s.readD rs2
  let a ← readDec u
  let b ← readDec v
  .ok (a, b)

/-- `DADD dd, da, db` (R313). -/
def execDadd (rd rs1 rs2 : DIdx) (s : State) : Outcome :=
  runCommand (.dadd rd rs1 rs2) s do
    let (a, b) ← readDec2 s rs1 rs2
    finishDecimal rd (addResult s.cfg a b) (a.signals ||| b.signals) a.ctx s

/-- `DSUB dd, da, db` (R314). -/
def execDsub (rd rs1 rs2 : DIdx) (s : State) : Outcome :=
  runCommand (.dsub rd rs1 rs2) s do
    let (a, b) ← readDec2 s rs1 rs2
    finishDecimal rd (addResult s.cfg a (negateOperand b)) (a.signals ||| b.signals) a.ctx s

/-- `DMUL dd, da, db` (R315). -/
def execDmul (rd rs1 rs2 : DIdx) (s : State) : Outcome :=
  runCommand (.dmul rd rs1 rs2) s do
    let (a, b) ← readDec2 s rs1 rs2
    finishDecimal rd (mulResult s.cfg a b) (a.signals ||| b.signals) a.ctx s

end Sys2Proof.Machine
end

