-- ==== Sys2Proof/Machine/DecimalData.lean ====
section
/-! DEFINITION. The commands that build, move, read and round decimal registers: DMAKE, DCTX, DMOV, DCOEF, DCB, DROUND, DTRUNC
(R290, R291, R295 to R299). None writes FLAGS (R277). -/

namespace Sys2Proof.Machine

/-- `DMAKE[.neg] dd, xa, scale` (R290). -/
def execDmake (rd : DIdx) (rs1 : XIdx) (neg : Bool) (scale : BitVec 16) (s : State) : Outcome :=
  runCommand (.dmake rd rs1 neg scale) s do
    let a ← s.readX rs1
    finishDecimal rd (normOf s.cfg (uval a) neg (-sval16 scale) Context.default.rm 0) 0 Context.default s

/-- `DCTX dd, da, ctx` (R291). -/
def execDctx (rd rs1 : DIdx) (rm : RoundMode) (traps : BitVec 8) (s : State) : Outcome :=
  runCommand (.dctx rd rs1 rm traps) s do
    let v ← s.readD rs1
    let _ ← readDec v
    .ok (s.writeD rd { coef := v.coef, cb := cbWithContext v.cb { rm := rm, traps := traps } })

/-- `DMOV dd, da` (R295). -/
def execDmov (rd rs1 : DIdx) (s : State) : Outcome :=
  runCommand (.dmov rd rs1) s do
    let v ← s.readD rs1
    .ok (s.writeD rd v)

/-- `DCOEF xd, da` (R296). -/
def execDcoef (rd : XIdx) (rs1 : DIdx) (s : State) : Outcome :=
  runCommand (.dcoef rd rs1) s do
    let v ← s.readD rs1
    .ok (s.writeX rd v.coef)

/-- `DCB xd, da` (R297). -/
def execDcb (rd : XIdx) (rs1 : DIdx) (s : State) : Outcome :=
  runCommand (.dcb rd rs1) s do
    let v ← s.readD rs1
    .ok (s.writeX rd (zext s.cfg.n v.cb.toNat))

/-- `kreq`, the digits a target scale `t` asks to drop from a value of exponent `e` (R298, R299). -/
def dropCount (e t : Int) : Nat := (-e - t).toNat

/-- The result of DROUND (R298). -/
def roundResult (p : Params) (v : DecOperand) (t : Int) : NormResult :=
  match v.kind with
  | .nan => nanResult 0
  | .inf => infResult v.neg
  | .finite => normOf p v.coef v.neg v.exp v.ctx.rm (dropCount v.exp t)

/-- `DROUND dd, da, t` (R298). -/
def execDround (rd rs1 : DIdx) (scale : BitVec 16) (s : State) : Outcome :=
  runCommand (.dround rd rs1 scale) s do
    let w ← s.readD rs1
    let v ← readDec w
    finishDecimal rd (roundResult s.cfg v (sval16 scale)) v.signals v.ctx s

/-- The result of DTRUNC (R299). The truncation raises nothing. -/
def truncResult (p : Params) (v : DecOperand) (t : Int) : NormResult :=
  match v.kind with
  | .nan => nanResult 0
  | .inf => infResult v.neg
  | .finite =>
    let k := dropCount v.exp t
    normOf p (v.coef / 10 ^ k) v.neg (v.exp + k) v.ctx.rm 0

/-- `DTRUNC dd, da, t` (R299). -/
def execDtrunc (rd rs1 : DIdx) (scale : BitVec 16) (s : State) : Outcome :=
  runCommand (.dtrunc rd rs1 scale) s do
    let w ← s.readD rs1
    let v ← readDec w
    finishDecimal rd (truncResult s.cfg v (sval16 scale)) v.signals v.ctx s

end Sys2Proof.Machine
end

