-- ==== Sys2Proof/Machine/Division.lean ====
section
/-! DEFINITION. The long-division engine's commands: DIVREM, DIVRD, DIVW (R200 to R204). Quotients and remainders are the exact
ones (R200); the path the engine takes cannot be observed. -/

namespace Sys2Proof.Machine

/-- The signed overflow of a division: `MINS / -1` (R202). -/
def signedDivOverflow (n : Nat) (a b : Int) : Bool := decide (a = minS n ∧ b = -1)

/-- `DIVREM` after its operands are read (R202). Signed division truncates toward zero. -/
def divremRule (rd rd2 : XIdx) (mode : Mode) (sgn : Bool) (a b : LimbArray) (s : State) : Except Stop State :=
  let n := s.cfg.n
  if sgn then
    if sval n b = 0 then divZero mode s
    else
      let exc := signedDivOverflow n (sval n a) (sval n b)
      finish mode (onOverflow exc)
        [(rd, pat n ((sval n a).tdiv (sval n b))), (rd2, pat n ((sval n a).tmod (sval n b)))] []
        { cf := false, vf := exc, of := exc } s
  else
    if uval b = 0 then divZero mode s
    else finish mode none [(rd, zext n (uval a / uval b)), (rd2, zext n (uval a % uval b))] [] ArithFlags.clear s

/-- `DIVREM[.mode][.s] xq, xr, xa, xb` (R202). -/
def execDivrem (rd rd2 rs1 rs2 : XIdx) (mode : Mode) (sgn : Bool) (s : State) : Outcome :=
  runCommand (.divrem rd rd2 rs1 rs2 mode sgn) s do
    let a ← s.readX rs1
    let b ← s.readX rs2
    divremRule rd rd2 mode sgn a b s

/-- `DIVRD[.mode] xq, xr, xa, xb` (R203). Only limb 0 of `xb` is the divisor. -/
def execDivrd (rd rd2 rs1 rs2 : XIdx) (mode : Mode) (s : State) : Outcome :=
  runCommand (.divrd rd rd2 rs1 rs2 mode) s do
    let a ← s.readX rs1
    let b ← s.readX rs2
    let v := (limb b 0).toNat
    let n := s.cfg.n
    if v = 0 then divZero mode s
    else finish mode none [(rd, zext n (uval a / v)), (rd2, zext n (uval a % v))] [] ArithFlags.clear s

/-- `DIVW` after its operands are read: `hi` and `lo` are the dividend's limbs, `v` the divisor (R204). -/
def divwRule (rd rd2 : XIdx) (mode : Mode) (hi lo v : Nat) (s : State) : Except Stop State :=
  let n := s.cfg.n
  let u := hi * 2 ^ 64 + lo
  let exc := decide (v ≤ hi)
  if v = 0 then divZero mode s
  else
    finish mode (onOverflow exc) [(rd, zext n (u / v % 2 ^ 64)), (rd2, zext n (u % v))] [] (overflowOnly exc) s

/-- `DIVW[.mode] xq, xr, xa, xb` (R204). Illegal when `N = 1` (R112). -/
def execDivw (rd rd2 rs1 rs2 : XIdx) (mode : Mode) (s : State) : Outcome :=
  runCommand (.divw rd rd2 rs1 rs2 mode) s do
    let a ← s.readX rs1
    let b ← s.readX rs2
    divwRule rd rd2 mode (limb a 1).toNat (limb a 0).toNat (limb b 0).toNat s

end Sys2Proof.Machine
end

