-- ==== Sys2Proof/Machine/Limb.lean ====
section
/-! DEFINITION. Moves, limb indexing and shifts: MOV, LDI, LGET, LSET, SHL, SHR (R140 to R143, R146, R147). -/

namespace Sys2Proof.Machine

/-- `MOV xd, xa` (R140). -/
def execMov (rd rs1 : XIdx) (s : State) : Outcome :=
  runCommand (.mov rd rs1) s do
    let a ← s.readX rs1
    .ok (s.writeX rd a)

/-- `LDI xd, imm` (R141). No register is read. -/
def execLdi (rd : XIdx) (imm : BitVec 16) (s : State) : Outcome :=
  runCommand (.ldi rd imm) s (.ok (s.writeX rd (zext s.cfg.n imm.toNat)))

/-- `LGET xd, xa, idx` (R142). -/
def execLget (rd rs1 : XIdx) (idx : BitVec 16) (s : State) : Outcome :=
  runCommand (.lget rd rs1 idx) s do
    let a ← s.readX rs1
    if s.cfg.n ≤ immIndex idx then .error (.abort .indexRange)
    else .ok (s.writeX rd (zext s.cfg.n (limb a (immIndex idx)).toNat))

/-- `LSET xd, xa, idx` (R143). It reads its destination (R49). -/
def execLset (rd rs1 : XIdx) (idx : BitVec 16) (s : State) : Outcome :=
  runCommand (.lset rd rs1 idx) s do
    let v ← s.readX rd
    let a ← s.readX rs1
    if s.cfg.n ≤ immIndex idx then .error (.abort .indexRange)
    else .ok (s.writeX rd (v.set (immIndex idx) (limb a 0)))

/-- The exceptional case of a shift: the amount is at least the width (R146, R147). -/
def shiftOverflow (n amount : Nat) : Bool := decide (width n ≤ amount)

/-- The left shift by the amount modulo the width (R146). -/
def shiftLeft (n : Nat) (a : LimbArray) (amount : Nat) : LimbArray :=
  pat n (uval a * 2 ^ (amount % width n) : Nat)

/-- The right shift by the amount modulo the width: zero fill, or sign fill when `sgn` (R147). -/
def shiftRight (n : Nat) (sgn : Bool) (a : LimbArray) (amount : Nat) : LimbArray :=
  pat n (reading n sgn a / (2 ^ (amount % width n) : Nat))

/-- `SHL[.mode] xd, xa, xb` (R146). -/
def execShl (rd rs1 rs2 : XIdx) (mode : Mode) (s : State) : Outcome :=
  runCommand (.shl rd rs1 rs2 mode) s do
    let a ← s.readX rs1
    let b ← s.readX rs2
    let exc := shiftOverflow s.cfg.n (uval b)
    finish mode (onOverflow exc) [(rd, shiftLeft s.cfg.n a (uval b))] [] (overflowOnly exc) s

/-- `SHR[.mode][.s] xd, xa, xb` (R147). -/
def execShr (rd rs1 rs2 : XIdx) (mode : Mode) (sgn : Bool) (s : State) : Outcome :=
  runCommand (.shr rd rs1 rs2 mode sgn) s do
    let a ← s.readX rs1
    let b ← s.readX rs2
    let exc := shiftOverflow s.cfg.n (uval b)
    finish mode (onOverflow exc) [(rd, shiftRight s.cfg.n sgn a (uval b))] [] (overflowOnly exc) s

end Sys2Proof.Machine
end

