-- ==== Sys2Proof/Machine/Dispatch.lean ====
section
/-! DEFINITION. The meaning of every command, one arm for each constructor of `Instr` (R109). -/

namespace Sys2Proof.Machine

def exec (i : Instr) (s : State) : Host.Outcome State Fault Refusal :=
  match i with
  | .mov rd rs1 => Sys2Proof.Machine.execMov rd rs1 s
  | .ldi rd imm => Sys2Proof.Machine.execLdi rd imm s
  | .lget rd rs1 idx => Sys2Proof.Machine.execLget rd rs1 idx s
  | .lset rd rs1 idx => Sys2Proof.Machine.execLset rd rs1 idx s
  | .shl rd rs1 rs2 mode => Sys2Proof.Machine.execShl rd rs1 rs2 mode s
  | .shr rd rs1 rs2 mode sgn => Sys2Proof.Machine.execShr rd rs1 rs2 mode sgn s
  | .cmp rs1 rs2 sgn => Sys2Proof.Machine.execCmp rs1 rs2 sgn s
  | .add rd rs1 rs2 mode sgn => Sys2Proof.Machine.execAdd rd rs1 rs2 mode sgn s
  | .sub rd rs1 rs2 mode sgn => Sys2Proof.Machine.execSub rd rs1 rs2 mode sgn s
  | .mul rd rs1 rs2 mode sgn => Sys2Proof.Machine.execMul rd rs1 rs2 mode sgn s
  | .mulw rd rd2 rs1 rs2 => Sys2Proof.Machine.execMulw rd rd2 rs1 rs2 s
  | .divrem rd rd2 rs1 rs2 mode sgn => Sys2Proof.Machine.execDivrem rd rd2 rs1 rs2 mode sgn s
  | .divrd rd rd2 rs1 rs2 mode => Sys2Proof.Machine.execDivrd rd rd2 rs1 rs2 mode s
  | .divw rd rd2 rs1 rs2 mode => Sys2Proof.Machine.execDivw rd rd2 rs1 rs2 mode s
  | .tpow10 rd k => Sys2Proof.Machine.execTpow10 rd k s
  | .tpow5 rd k => Sys2Proof.Machine.execTpow5 rd k s
  | .trmax rd k => Sys2Proof.Machine.execTrmax rd k s
  | .digits rd rs1 => Sys2Proof.Machine.execDigits rd rs1 s
  | .mulp10 rd rs1 rs2 mode => Sys2Proof.Machine.execMulp10 rd rs1 rs2 mode s
  | .divp10 rd rd2 rs1 rs2 => Sys2Proof.Machine.execDivp10 rd rd2 rs1 rs2 s
  | .dmake rd rs1 neg scale => Sys2Proof.Machine.execDmake rd rs1 neg scale s
  | .dctx rd rs1 rm traps => Sys2Proof.Machine.execDctx rd rs1 rm traps s
  | .dmov rd rs1 => Sys2Proof.Machine.execDmov rd rs1 s
  | .dcoef rd rs1 => Sys2Proof.Machine.execDcoef rd rs1 s
  | .dcb rd rs1 => Sys2Proof.Machine.execDcb rd rs1 s
  | .dadd rd rs1 rs2 => Sys2Proof.Machine.execDadd rd rs1 rs2 s
  | .dsub rd rs1 rs2 => Sys2Proof.Machine.execDsub rd rs1 rs2 s
  | .dmul rd rs1 rs2 => Sys2Proof.Machine.execDmul rd rs1 rs2 s
  | .dround rd rs1 scale => Sys2Proof.Machine.execDround rd rs1 scale s
  | .dtrunc rd rs1 scale => Sys2Proof.Machine.execDtrunc rd rs1 scale s

end Sys2Proof.Machine
end

