-- ==== Sys2Proof/Machine/HostPort.lean ====
section
/-! DEFINITION. The host port (R80 to R93): the word map (R86), reads and writes (R87 to R89), and issuing a command (R340). -/

namespace Sys2Proof.Machine

/-- What a word offset of the host port names (R86). -/
inductive PortWord where
  | command | status | abortCmd | flags | config | reset
  | xLimb (r : XIdx) (j : Nat)
  | dLimb (r : DIdx) (j : Nat)
  | dCb (r : DIdx)
  | unlisted
deriving DecidableEq, Repr

/-- The offsets of the port's named words (R86). -/
def offCommand : BitVec 16 := 0x0000
def offStatus : BitVec 16 := 0x0001
def offAbortCmd : BitVec 16 := 0x0002
def offFlags : BitVec 16 := 0x0003
def offConfig : BitVec 16 := 0x0004
def offReset : BitVec 16 := 0x0005

/-- The host-port map of a block of `n` limbs (R86): `0x1000 + 0x100*i + j` is limb `j` of `x[i]`, `0x2000 + 0x100*i + j`
limb `j` of the coefficient of `d[i]`, and `0x2000 + 0x100*i + 0xFF` its control block. -/
def portMap (n : Nat) (off : BitVec 16) : PortWord :=
  let page := off.extractLsb' 12 4
  let r := off.extractLsb' 8 4
  let j := (off.extractLsb' 0 8).toNat
  if off = offCommand then .command
  else if off = offStatus then .status
  else if off = offAbortCmd then .abortCmd
  else if off = offFlags then .flags
  else if off = offConfig then .config
  else if off = offReset then .reset
  else if page = 1 then if j < n then .xLimb r j else .unlisted
  else if page = 2 then if j = 0xFF then .dCb r else if j < n then .dLimb r j else .unlisted
  else .unlisted

/-- A word of a register as the host sees it: `none` when the word has not been written since reset (R49). -/
def Slot.visible (t : Slot) : Option Word := if t.mark then some t.word else none

/-- Word `j` of a register. -/
def slotAt (r : List Slot) (j : Nat) : Slot := r.getD j Slot.unwritten

/-- The word at an offset (R86, R87): `none` is an unspecified value (R49). A write-only or unlisted offset reads as 0. -/
def State.portWord (s : State) (off : BitVec 16) : Option Word :=
  match portMap s.cfg.n off with
  | .command => some 0
  | .status => some s.status.toWord
  | .abortCmd => some s.abortCmd
  | .flags => some s.flags.toWord
  | .config => some (configWord s.cfg)
  | .reset => some 0
  | .xLimb r j => (slotAt (s.xSlots r) j).visible
  | .dLimb r j => (slotAt (s.dSlots r).coef j).visible
  | .dCb r => (s.dSlots r).cb.visible
  | .unlisted => some 0

/-- `HostRead(a)` (R87). The block's state does not change, and a repeated read returns the same word (R85); the word goes to
the host. An unspecified word is a free value, one for each offset and reset (R49, log 4). -/
def State.hostRead (s : State) (off : BitVec 16) : State :=
  { s with readData := (s.portWord off).getD (Config.freeWord s.resets off) }

/-- A word written by the host: its mark is set (R49). -/
def hostSlot (v : Word) : Slot := { word := v, mark := true }

/-- A host write to a register word stores all 64 bits as written, even a malformed control block (R87, R88). -/
def State.writeXLimb (s : State) (r : XIdx) (j : Nat) (v : Word) : State :=
  s.setXSlots r ((s.xSlots r).set j (hostSlot v))

/-- A host write to a limb of a coefficient (R87, R88). -/
def State.writeDLimb (s : State) (r : DIdx) (j : Nat) (v : Word) : State :=
  s.setDSlots r { s.dSlots r with coef := (s.dSlots r).coef.set j (hostSlot v) }

/-- A host write to a control block, raw (R88). -/
def State.writeDCb (s : State) (r : DIdx) (v : Word) : State :=
  s.setDSlots r { s.dSlots r with cb := hostSlot v }

/-- `Issue(w)` (R340): ignored while aborted (R346); an illegal word aborts (R113); else the command runs. -/
def issue (w : CmdWord) (s : State) : Outcome :=
  if s.status.aborted then .next s
  else
    match decode s.cfg.n w with
    | .error _ => .next (s.takeAbort .illegalCommand w)
    | .ok i => exec i s

/-- `HostWrite(a, v)` (R87). -/
def hostWrite (off : BitVec 16) (v : Word) (s : State) : Outcome :=
  match portMap s.cfg.n off with
  | .command => issue (v.setWidth 32) s
  | .reset => .next s.resetBlock
  | .xLimb r j => .next (s.writeXLimb r j v)
  | .dLimb r j => .next (s.writeDLimb r j v)
  | .dCb r => .next (s.writeDCb r v)
  | .status => .next s
  | .abortCmd => .next s
  | .flags => .next s
  | .config => .next s
  | .unlisted => .next s

/-- One access of the host port (R87). -/
def perform (a : HostAccess) (s : State) : Outcome :=
  match a with
  | .read off => .next (s.hostRead off)
  | .write off v => hostWrite off v s

/-- The next access of the port, performed whole before the one after it (R84, R90). With none waiting, the block idles and
keeps all state (R356). -/
def performNext (s : State) : Outcome :=
  match s.port with
  | [] => .next s
  | a :: rest => perform a { s with port := rest }

/-- The host issues one more access before the ones waiting: the next one the block performs. -/
def State.withAccess (s : State) (a : HostAccess) : State := { s with port := a :: s.port }

/-- The write of a command word to `COMMAND`; the bits above the word are ignored by the block (R86). -/
def commandWrite (w : CmdWord) : HostAccess := .write offCommand (w.setWidth 64)

end Sys2Proof.Machine
end

