-- ==== Sys2Proof/Machine/Step.lean ====
section
/-! DEFINITION. One step of the machine: the next host-port access, whole (R84, R90). -/

namespace Sys2Proof.Machine

/-- One step: the block performs the next host-port access (R87, R90). A write to `COMMAND` runs one command (R340). -/
def step (s : State) : Host.Outcome State Fault Refusal := performNext s

/-- `s` with the first `nbits` bits of `w` waiting at the port as the next command: the host's write of the word to `COMMAND`
(R87). The block fetches nothing (R92), so this is all that it takes (log 6). -/
def State.withFetchWord (s : State) (nbits w : Nat) : State := s.withAccess (commandWrite (tableWord nbits w))

end Sys2Proof.Machine
end

