-- ==== Sys2Proof/Machine/Assembler.lean ====
section
/-! DEFINITION. The assembler's view of a command (R115 to R118): mnemonic, suffixes and operands in order, the pseudo-instructions
and their expansions, and the line as text. No step uses this file. -/

namespace Sys2Proof.Machine

/-- An operand as it is written (R115, R117). -/
inductive AsmOperand where
  | x (r : XIdx)
  | d (r : DIdx)
  /-- An immediate, in decimal; negative where R106 reads the field as `i16` (R115). -/
  | imm (v : Int)
  | rm (m : RoundMode)
  | traps (t : BitVec 8)
deriving DecidableEq, Repr

/-- One line of assembly (R115 to R117). -/
structure AsmLine where
  mnemonic : String
  suffixes : List String
  operands : List AsmOperand
deriving DecidableEq, Repr

/-- The mode suffix; `.wr` is the default and is omitted (R104, R116). -/
def modeSuffix : Mode → List String
  | .wrapping => []
  | .overflowing => ["ov"]
  | .checked => ["ck"]
  | .strict => ["st"]
  | .saturating => ["sat"]

/-- The signedness suffix; `.u` is the default and is omitted (R116). -/
def signSuffix (sgn : Bool) : List String := if sgn then ["s"] else []

/-- A line with a mode and a signedness (R116). -/
def arithLine (name : String) (mode : Mode) (sgn : Bool) (ops : List AsmOperand) : AsmLine :=
  { mnemonic := name, suffixes := modeSuffix mode ++ signSuffix sgn, operands := ops }

/-- A line with no mode and no signedness. -/
def plainLine (name : String) (ops : List AsmOperand) : AsmLine := { mnemonic := name, suffixes := [], operands := ops }

/-- The assembly of a command: destinations first (R117). -/
def assemblyOf : Instr → AsmLine
  | .mov rd a => plainLine "mov" [.x rd, .x a]
  | .ldi rd imm => plainLine "ldi" [.x rd, .imm imm.toNat]
  | .lget rd a idx => plainLine "lget" [.x rd, .x a, .imm (immIndex idx)]
  | .lset rd a idx => plainLine "lset" [.x rd, .x a, .imm (immIndex idx)]
  | .shl rd a b m => arithLine "shl" m false [.x rd, .x a, .x b]
  | .shr rd a b m sgn => arithLine "shr" m sgn [.x rd, .x a, .x b]
  | .cmp a b sgn => arithLine "cmp" .wrapping sgn [.x a, .x b]
  | .add rd a b m sgn => arithLine "add" m sgn [.x rd, .x a, .x b]
  | .sub rd a b m sgn => arithLine "sub" m sgn [.x rd, .x a, .x b]
  | .mul rd a b m sgn => arithLine "mul" m sgn [.x rd, .x a, .x b]
  | .mulw rd rd2 a b => plainLine "mulw" [.x rd, .x rd2, .x a, .x b]
  | .divrem rd rd2 a b m sgn => arithLine "divrem" m sgn [.x rd, .x rd2, .x a, .x b]
  | .divrd rd rd2 a b m => arithLine "divrd" m false [.x rd, .x rd2, .x a, .x b]
  | .divw rd rd2 a b m => arithLine "divw" m false [.x rd, .x rd2, .x a, .x b]
  | .tpow10 rd k => plainLine "tpow10" [.x rd, .imm (immIndex k)]
  | .tpow5 rd k => plainLine "tpow5" [.x rd, .imm (immIndex k)]
  | .trmax rd k => plainLine "trmax" [.x rd, .imm (immIndex k)]
  | .digits rd a => plainLine "digits" [.x rd, .x a]
  | .mulp10 rd a b m => arithLine "mulp10" m false [.x rd, .x a, .x b]
  | .divp10 rd rd2 a b => plainLine "divp10" [.x rd, .x rd2, .x a, .x b]
  | .dmake rd a neg scale =>
    { mnemonic := "dmake", suffixes := if neg then ["neg"] else [], operands := [.d rd, .x a, .imm (sval16 scale)] }
  | .dctx rd a rm traps => plainLine "dctx" [.d rd, .d a, .rm rm, .traps traps]
  | .dmov rd a => plainLine "dmov" [.d rd, .d a]
  | .dcoef rd a => plainLine "dcoef" [.x rd, .d a]
  | .dcb rd a => plainLine "dcb" [.x rd, .d a]
  | .dadd rd a b => plainLine "dadd" [.d rd, .d a, .d b]
  | .dsub rd a b => plainLine "dsub" [.d rd, .d a, .d b]
  | .dmul rd a b => plainLine "dmul" [.d rd, .d a, .d b]
  | .dround rd a t => plainLine "dround" [.d rd, .d a, .imm (sval16 t)]
  | .dtrunc rd a t => plainLine "dtrunc" [.d rd, .d a, .imm (sval16 t)]

/-- The pseudo-instructions (R118). There is no `dneg` and no `nop`. -/
inductive Pseudo where
  | clr (rd : XIdx)
  | li (rd : XIdx) (imm : BitVec 16)
  | cmpu (a b : XIdx)
  | cmps (a b : XIdx)
deriving DecidableEq, Repr

/-- The expansion of a pseudo-instruction (R118). -/
def expandPseudo : Pseudo → Instr
  | .clr rd => .ldi rd 0
  | .li rd imm => .ldi rd imm
  | .cmpu a b => .cmp a b false
  | .cmps a b => .cmp a b true

/-- The name of a rounding mode (R37, R117). -/
def roundModeName : RoundMode → String
  | .up => "Up" | .down => "Down" | .ceiling => "Ceiling" | .floor => "Floor"
  | .halfUp => "HalfUp" | .halfDown => "HalfDown" | .halfEven => "HalfEven" | .strict => "Strict"

/-- An operand as text; the trap mask is written in decimal (R115, R117). -/
def operandText : AsmOperand → String
  | .x r => "x" ++ toString r.toNat
  | .d r => "d" ++ toString r.toNat
  | .imm v => toString v
  | .rm m => "rm=" ++ roundModeName m
  | .traps t => "traps=" ++ toString t.toNat

/-- A line as text (R115, R116). -/
def lineText (l : AsmLine) : String :=
  String.join (l.mnemonic :: l.suffixes.map fun t => "." ++ t) ++ " " ++
    String.intercalate ", " (l.operands.map operandText)

end Sys2Proof.Machine
end

