-- ==== Sys2Proof/Machine/Informative.lean ====
section
/-! DEFINITION. The algorithms that the spec prints as informative (R171, R205 to R208, R267) and the table forms of the digit count
and of the reduced-maximum test (R233, R234). No command runs them (log 8): the meanings use the exact results. -/

namespace Sys2Proof.Machine

/-! ### The comparator (R171) -/

/-- Compare limb by limb, the most significant first (R171, R81). -/
def compareFromTop : LimbArray → LimbArray → CmpResult
  | u :: us, v :: vs => if u = v then compareFromTop us vs else if u < v then .less else .greater
  | _, _ => .equal

/-- The top bit of limb N-1 (R12). -/
def topBit (n : Nat) (a : LimbArray) : Bool := (limb a (n - 1)).getLsbD 63

/-- `Compare(a, b, s)` (R171): signs first, then magnitudes. -/
def compareLimbs (n : Nat) (sgn : Bool) (a b : LimbArray) : CmpResult :=
  if sgn ∧ topBit n a ≠ topBit n b then (if topBit n a then .less else .greater)
  else compareFromTop a.reverse b.reverse

/-! ### The 128-by-64 fast divider (R205) -/

/-- The half-limb base of R205. -/
def halfBase : Nat := 2 ^ 32

/-- The shift that sets the top bit of a nonzero 64-bit divisor (R205). -/
def leadingZeros64 (v : Nat) : Nat := 63 - v.log2

/-- The correction loop of one quotient digit (R205): `q` and `rhat` are the estimate and its remainder, `vn1` and `vn0` the
divisor's halves, `u` the next dividend digit. The source says that at most 2 corrections happen; `fuel` counts them. -/
def correctDigit (b vn1 vn0 u : Nat) : (fuel q rhat : Nat) → Nat
  | 0, q, _ => q
  | fuel + 1, q, rhat =>
    if b ≤ q ∨ b * rhat + u < q * vn0 then
      if b ≤ rhat + vn1 then q - 1 else correctDigit b vn1 vn0 u fuel (q - 1) (rhat + vn1)
    else q

/-- One quotient digit: the estimate `top div vn1`, corrected (R205). -/
def quotientDigit (b vn1 vn0 top u : Nat) : Nat := correctDigit b vn1 vn0 u 2 (top / vn1) (top % vn1)

/-- `DivW(hi, lo, v)` (R205), for `v != 0` and `hi < v`: quotient and remainder. -/
def divWide (hi lo v : Nat) : Nat × Nat :=
  let b := halfBase
  let s := leadingZeros64 v
  let vn := v * 2 ^ s
  let vn1 := vn / b
  let vn0 := vn % b
  let un32 := if s = 0 then hi else (hi * 2 ^ s ||| lo / 2 ^ (64 - s)) % 2 ^ 64
  let un10 := lo * 2 ^ s % 2 ^ 64
  let un1 := un10 / b
  let un0 := un10 % b
  let q1 := quotientDigit b vn1 vn0 un32 un1
  let un21 := (((un32 * b + un1 : Nat) - (q1 * vn : Nat) : Int) % (2 ^ 64 : Int)).toNat
  let q0 := quotientDigit b vn1 vn0 un21 un0
  let r := (((un21 * b + un0 : Nat) - (q0 * vn : Nat) : Int) % (2 ^ 64 : Int)).toNat / 2 ^ s
  (q1 * b + q0, r)

/-! ### Division by one limb (R206) -/

/-- The loop of `DivDigit` over the limbs from the top one down (R206): the quotient limbs in the same order, and the last
remainder. -/
def divDigitFromTop (v : Nat) : (limbs : List Word) → (r : Nat) → List Word × Nat
  | [], r => ([], r)
  | u :: us, r =>
    let qr := divWide r u.toNat v
    let rest := divDigitFromTop v us qr.2
    (BitVec.ofNat 64 qr.1 :: rest.1, rest.2)

/-- `DivDigit(u, v)` (R206): the quotient's limbs, limb 0 first, and the remainder. -/
def divDigit (u : LimbArray) (v : Nat) : LimbArray × Nat :=
  let qr := divDigitFromTop v u.reverse 0
  (qr.1.reverse, qr.2)

/-! ### Long division (R207) -/

/-- The limb base of R207. -/
def limbBase : Nat := 2 ^ 64

/-- The limb count of a nonzero number: the least `n` with `v < B^n` (R208). -/
def limbCount (v : Nat) : Nat := v.log2 / 64 + 1

/-- The correction loop of one quotient limb (R207): `v1`, `v0` are the divisor's two leading limbs, `u` the third limb of the
window. `fuel` bounds the corrections. -/
def correctLimb (v1 v0 u : Nat) : (fuel q rhat : Nat) → Nat := correctDigit limbBase v1 v0 u

/-- One turn of the loop of R207 at limb `j`, on the whole remaining dividend `un`: the quotient limb and the new dividend. The
window is the limbs `j+n .. j`; the limbs above it are zero. -/
def divideStep (n vn j un : Nat) : Nat × Nat :=
  let window := un / limbBase ^ j
  let num := window / limbBase ^ (n - 1)
  let v1 := vn / limbBase ^ (n - 1)
  let v0 := vn / limbBase ^ (n - 2) % limbBase
  let u := window / limbBase ^ (n - 2) % limbBase
  let qhat := correctLimb v1 v0 u 2 (num / v1) (num % v1)
  if qhat * vn ≤ window then (qhat, un % limbBase ^ j + (window - qhat * vn) * limbBase ^ j)
  else (qhat - 1, un % limbBase ^ j + (window + vn - qhat * vn) * limbBase ^ j)

/-- The loop of R207 from limb `j - 1` down to limb 0: the quotient and what is left of the dividend. -/
def divideLoop (n vn : Nat) : (j un : Nat) → Nat × Nat
  | 0, un => (0, un)
  | j + 1, un =>
    let qu := divideStep n vn j un
    let rest := divideLoop n vn j qu.2
    (qu.1 * limbBase ^ j + rest.1, rest.2)

/-- `BasecaseDivRem(u, v)` (R207) for a divisor of `n >= 2` limbs with a nonzero top limb and a dividend of `m + n` limbs. -/
def basecaseDivRem (n m u v : Nat) : Nat × Nat :=
  let s := leadingZeros64 (v / limbBase ^ (n - 1))
  let qr := divideLoop n (v * 2 ^ s) (m + 1) (u * 2 ^ s)
  (qr.1, qr.2 % limbBase ^ n / 2 ^ s)

/-- The path of unsigned DIVREM (R208): one limb, a dividend below the divisor, or the long division. -/
def divremPath (n u v : Nat) : Nat × Nat :=
  if v < limbBase then
    let qr := divDigit (limbsOf n u) v
    (uval qr.1, qr.2)
  else if u < v then (0, u)
  else basecaseDivRem (limbCount v) (n - limbCount v) u v

/-! ### The tables at work (R233, R234, R267) -/

/-- The reduced-maximum test (R233). -/
def fitsScaled (n x k : Nat) : Bool := decide (x ≤ romRMax n k)

/-- The digit count from the table of powers, without division (R234). -/
def dcByTable (n m : Nat) : Nat :=
  1 + ((List.range (k10 n)).filter fun i => decide (rom10 (i + 1) ≤ m)).length

/-- The least `k' >= k` with `M div 10^k' <= lim`, among the first `fuel` candidates (R267). -/
def leastCut (lim m : Nat) : (fuel k : Nat) → Nat
  | 0, k => k
  | fuel + 1, k => if m / 10 ^ k ≤ lim then k else leastCut lim m fuel (k + 1)

/-- `k0` by R267: the least cut that fits, and one more where rounding carries out of the last digit. -/
def fitCountByCut (lim m : Nat) (neg : Bool) (rm : RoundMode) (kreq : Nat) : Nat :=
  let ka := leastCut lim m (dc m) kreq
  if roundDiv m ka neg rm = lim + 1 then ka + 1 else ka

end Sys2Proof.Machine
end

