-- ==== Sys2Proof/Safety.lean ====
section
/-! DEFINITION. The terms in which claims are made: which registers a command reads and writes, the invariants of the machine, safe
steps, and the states that differ only in what nothing has written. -/

namespace Sys2Proof.Machine

/-! ### The operands of a command (R50, R109) -/

/-- The integer registers a command reads: the operands its rule lists, LSET's destination among them (R49, R50). -/
def readsX : Instr → List XIdx
  | .mov _ a => [a]
  | .ldi _ _ => []
  | .lget _ a _ => [a]
  | .lset rd a _ => [rd, a]
  | .shl _ a b _ => [a, b]
  | .shr _ a b _ _ => [a, b]
  | .cmp a b _ => [a, b]
  | .add _ a b _ _ => [a, b]
  | .sub _ a b _ _ => [a, b]
  | .mul _ a b _ _ => [a, b]
  | .mulw _ _ a b => [a, b]
  | .divrem _ _ a b _ _ => [a, b]
  | .divrd _ _ a b _ => [a, b]
  | .divw _ _ a b _ => [a, b]
  | .tpow10 _ _ => []
  | .tpow5 _ _ => []
  | .trmax _ _ => []
  | .digits _ a => [a]
  | .mulp10 _ a b _ => [a, b]
  | .divp10 _ _ a b => [a, b]
  | .dmake _ a _ _ => [a]
  | .dctx _ _ _ _ => []
  | .dmov _ _ => []
  | .dcoef _ _ => []
  | .dcb _ _ => []
  | .dadd _ _ _ => []
  | .dsub _ _ _ => []
  | .dmul _ _ _ => []
  | .dround _ _ _ => []
  | .dtrunc _ _ _ => []

/-- The decimal registers a command reads (R49, R50). -/
def readsD : Instr → List DIdx
  | .dctx _ a _ _ => [a]
  | .dmov _ a => [a]
  | .dcoef _ a => [a]
  | .dcb _ a => [a]
  | .dadd _ a b => [a, b]
  | .dsub _ a b => [a, b]
  | .dmul _ a b => [a, b]
  | .dround _ a _ => [a]
  | .dtrunc _ a _ => [a]
  | .mov _ _ => []
  | .ldi _ _ => []
  | .lget _ _ _ => []
  | .lset _ _ _ => []
  | .shl _ _ _ _ => []
  | .shr _ _ _ _ _ => []
  | .cmp _ _ _ => []
  | .add _ _ _ _ _ => []
  | .sub _ _ _ _ _ => []
  | .mul _ _ _ _ _ => []
  | .mulw _ _ _ _ => []
  | .divrem _ _ _ _ _ _ => []
  | .divrd _ _ _ _ _ => []
  | .divw _ _ _ _ _ => []
  | .tpow10 _ _ => []
  | .tpow5 _ _ => []
  | .trmax _ _ => []
  | .digits _ _ => []
  | .mulp10 _ _ _ _ => []
  | .divp10 _ _ _ _ => []
  | .dmake _ _ _ _ => []

/-- The integer registers a command may write (R109): `rd`, and `rd2` where it has one. -/
def writesX : Instr → List XIdx
  | .mov rd _ => [rd]
  | .ldi rd _ => [rd]
  | .lget rd _ _ => [rd]
  | .lset rd _ _ => [rd]
  | .shl rd _ _ _ => [rd]
  | .shr rd _ _ _ _ => [rd]
  | .cmp _ _ _ => []
  | .add rd _ _ _ _ => [rd]
  | .sub rd _ _ _ _ => [rd]
  | .mul rd _ _ _ _ => [rd]
  | .mulw rd rd2 _ _ => [rd, rd2]
  | .divrem rd rd2 _ _ _ _ => [rd, rd2]
  | .divrd rd rd2 _ _ _ => [rd, rd2]
  | .divw rd rd2 _ _ _ => [rd, rd2]
  | .tpow10 rd _ => [rd]
  | .tpow5 rd _ => [rd]
  | .trmax rd _ => [rd]
  | .digits rd _ => [rd]
  | .mulp10 rd _ _ _ => [rd]
  | .divp10 rd rd2 _ _ => [rd, rd2]
  | .dmake _ _ _ _ => []
  | .dctx _ _ _ _ => []
  | .dmov _ _ => []
  | .dcoef rd _ => [rd]
  | .dcb rd _ => [rd]
  | .dadd _ _ _ => []
  | .dsub _ _ _ => []
  | .dmul _ _ _ => []
  | .dround _ _ _ => []
  | .dtrunc _ _ _ => []

/-- The decimal registers a command may write (R109). -/
def writesD : Instr → List DIdx
  | .dmake rd _ _ _ => [rd]
  | .dctx rd _ _ _ => [rd]
  | .dmov rd _ => [rd]
  | .dadd rd _ _ => [rd]
  | .dsub rd _ _ => [rd]
  | .dmul rd _ _ => [rd]
  | .dround rd _ _ => [rd]
  | .dtrunc rd _ _ => [rd]
  | .mov _ _ => []
  | .ldi _ _ => []
  | .lget _ _ _ => []
  | .lset _ _ _ => []
  | .shl _ _ _ _ => []
  | .shr _ _ _ _ _ => []
  | .cmp _ _ _ => []
  | .add _ _ _ _ _ => []
  | .sub _ _ _ _ _ => []
  | .mul _ _ _ _ _ => []
  | .mulw _ _ _ _ => []
  | .divrem _ _ _ _ _ _ => []
  | .divrd _ _ _ _ _ => []
  | .divw _ _ _ _ _ => []
  | .tpow10 _ _ => []
  | .tpow5 _ _ => []
  | .trmax _ _ => []
  | .digits _ _ => []
  | .mulp10 _ _ _ _ => []
  | .divp10 _ _ _ _ => []
  | .dcoef _ _ => []
  | .dcb _ _ => []

/-- The commands that write CF, VF, OF and NONE (R42, R145). -/
def writesArith : Instr → Bool
  | .add _ _ _ _ _ => true
  | .sub _ _ _ _ _ => true
  | .mul _ _ _ _ _ => true
  | .mulw _ _ _ _ => true
  | .shl _ _ _ _ => true
  | .shr _ _ _ _ _ => true
  | .divrem _ _ _ _ _ _ => true
  | .divrd _ _ _ _ _ => true
  | .divw _ _ _ _ _ => true
  | .mulp10 _ _ _ _ => true
  | .divp10 _ _ _ _ => true
  | .mov _ _ => false
  | .ldi _ _ => false
  | .lget _ _ _ => false
  | .lset _ _ _ => false
  | .cmp _ _ _ => false
  | .tpow10 _ _ => false
  | .tpow5 _ _ => false
  | .trmax _ _ => false
  | .digits _ _ => false
  | .dmake _ _ _ _ => false
  | .dctx _ _ _ _ => false
  | .dmov _ _ => false
  | .dcoef _ _ => false
  | .dcb _ _ => false
  | .dadd _ _ _ => false
  | .dsub _ _ _ => false
  | .dmul _ _ _ => false
  | .dround _ _ _ => false
  | .dtrunc _ _ _ => false

/-- The command that writes FLAGS.CMP (R42). -/
def writesCmp : Instr → Bool
  | .cmp _ _ _ => true
  | .add _ _ _ _ _ => false
  | .sub _ _ _ _ _ => false
  | .mul _ _ _ _ _ => false
  | .mulw _ _ _ _ => false
  | .shl _ _ _ _ => false
  | .shr _ _ _ _ _ => false
  | .divrem _ _ _ _ _ _ => false
  | .divrd _ _ _ _ _ => false
  | .divw _ _ _ _ _ => false
  | .mulp10 _ _ _ _ => false
  | .divp10 _ _ _ _ => false
  | .mov _ _ => false
  | .ldi _ _ => false
  | .lget _ _ _ => false
  | .lset _ _ _ => false
  | .tpow10 _ _ => false
  | .tpow5 _ _ => false
  | .trmax _ _ => false
  | .digits _ _ => false
  | .dmake _ _ _ _ => false
  | .dctx _ _ _ _ => false
  | .dmov _ _ => false
  | .dcoef _ _ => false
  | .dcb _ _ => false
  | .dadd _ _ _ => false
  | .dsub _ _ _ => false
  | .dmul _ _ _ => false
  | .dround _ _ _ => false
  | .dtrunc _ _ _ => false

/-! ### Written registers (R49) -/

/-- `x[r]` is written (R49). -/
def State.writtenX (s : State) (r : XIdx) : Prop := allMarked (s.xSlots r) = true

/-- `d[r]` is written (R49). -/
def State.writtenD (s : State) (r : DIdx) : Prop :=
  allMarked (s.dSlots r).coef = true ∧ (s.dSlots r).cb.mark = true

/-- Every register the command reads is written. -/
def operandsWritten (i : Instr) (s : State) : Prop :=
  (∀ r ∈ readsX i, s.writtenX r) ∧ (∀ r ∈ readsD i, s.writtenD r)

/-! ### Invariants -/

/-- Every register has the words the spec gives it (R31, R32). -/
def State.shaped (s : State) : Prop :=
  (∀ r : XIdx, (s.xSlots r).length = s.cfg.n) ∧ (∀ r : DIdx, (s.dSlots r).coef.length = s.cfg.n)

/-- STATUS and ABORT_CMD say what R43 and R44 say: both are 0 when the block is not aborted, CAUSE is a code of R341 when it
is, and ABORT_CMD holds a 32-bit word. -/
def State.abortRecordOk (s : State) : Prop :=
  (s.status.aborted = false → s.status.cause = 0 ∧ s.abortCmd = 0) ∧
  (s.status.aborted = true → ∃ c : Cause, s.status.cause = c.code) ∧
  s.abortCmd.toNat < 2 ^ 32

/-- The machine's invariant: legal parameters (R7, R8), registers of N limbs (R31, R32), a consistent abort record (R43, R44). -/
def State.wf (s : State) : Prop := s.cfg.legal ∧ s.shaped ∧ s.abortRecordOk

/-- Every written control block is well-formed (R35). -/
def State.controlBlocksOk (s : State) : Prop :=
  ∀ r : DIdx, (s.dSlots r).cb.mark = true → cbWellFormed (s.dSlots r).cb.word = true

/-- The access stores a malformed control block: what only the host can do (R35, R88). -/
def HostAccess.storesMalformed (n : Nat) : HostAccess → Prop
  | .read _ => False
  | .write off v => (∃ r, portMap n off = .dCb r) ∧ cbWellFormed v = false

/-! ### What a command leaves (R144, R273) -/

/-- `x[r]` is written, has N limbs, and its BigUInt reading is `v` (R12). -/
def State.holdsX (s : State) (r : XIdx) (v : Nat) : Prop :=
  ∃ a, s.readX r = .ok a ∧ a.length = s.cfg.n ∧ uval a = v

/-- `t` is `s` but for FLAGS and the integer registers `rs`. -/
def State.keepsAllButX (t s : State) (rs : List XIdx) : Prop :=
  (∀ q, q ∉ rs → t.xSlots q = s.xSlots q) ∧ t.d = s.d ∧ t.cfg = s.cfg ∧ t.status = s.status ∧
  t.abortCmd = s.abortCmd ∧ t.port = s.port ∧ t.readData = s.readData ∧ t.resets = s.resets

/-- `t` is `s` but for the decimal register `r`. -/
def State.keepsAllButD (t s : State) (r : DIdx) : Prop :=
  (∀ q, q ≠ r → t.dSlots q = s.dSlots q) ∧ t.x = s.x ∧ t.cfg = s.cfg ∧ t.flags = s.flags ∧ t.status = s.status ∧
  t.abortCmd = s.abortCmd ∧ t.port = s.port ∧ t.readData = s.readData ∧ t.resets = s.resets

/-- The command completes and writes `x[rd]` with `v`; no flag and nothing else changes. -/
def writesValue (i : Instr) (s : State) (rd : XIdx) (v : Nat) : Prop :=
  ∃ t, exec i s = .next t ∧ t.holdsX rd v ∧ t.keepsAllButX s [rd] ∧ t.flags = s.flags

/-- The command aborts with cause `c` (R345): STATUS and ABORT_CMD record it, and nothing else changes. -/
def abortsWith (i : Instr) (s : State) (c : Cause) : Prop :=
  exec i s = .next { s with status := { aborted := true, cause := c.code }, abortCmd := (encode i).setWidth 64 }

/-- The command ends as the disposition procedure says (R144), for one destination `rd` with the result `v`, the saturated
result `sat`, the exceptional case `exc` with the cause INT_OVERFLOW, and the flag values `f`:
strict mode aborts in the exceptional case; else CF, VF and OF are `f` and CMP is kept; checked mode in the exceptional
case sets NONE and keeps `rd`; else NONE is 0 and `rd` receives `sat` in the exceptional case of saturating mode, and `v`
otherwise. -/
def finishesAs (i : Instr) (s : State) (mode : Mode) (exc : Bool) (f : ArithFlags) (rd : XIdx) (v sat : Nat) : Prop :=
  if mode = .strict ∧ exc = true then abortsWith i s .intOverflow
  else
    ∃ t, exec i s = .next t ∧ t.keepsAllButX s [rd] ∧
      t.flags = { cf := f.cf, vf := f.vf, of := f.of, none := decide (mode = .checked) && exc, cmp := s.flags.cmp } ∧
      if mode = .checked ∧ exc = true then t.xSlots rd = s.xSlots rd
      else t.holdsX rd (if mode = .saturating ∧ exc = true then sat else v)

/-- The same (R144) for two destinations, `rd` with `v` and `rd2` with `v2`; of two equal ones `rd2`'s value remains (R15).
No command with two destinations saturates (R110). -/
def finishesAsPair (i : Instr) (s : State) (mode : Mode) (exc : Bool) (f : ArithFlags) (rd rd2 : XIdx) (v v2 : Nat) :
    Prop :=
  if mode = .strict ∧ exc = true then abortsWith i s .intOverflow
  else
    ∃ t, exec i s = .next t ∧ t.keepsAllButX s [rd, rd2] ∧
      t.flags = { cf := f.cf, vf := f.vf, of := f.of, none := decide (mode = .checked) && exc, cmp := s.flags.cmp } ∧
      if mode = .checked ∧ exc = true then t.x = s.x else (rd ≠ rd2 → t.holdsX rd v) ∧ t.holdsX rd2 v2

/-- A decimal command ends as R271 to R273 say, with the result `r` of its rule, the operands' signals `inh` and the context
`ctx`: the Strict check; then the trap check, which names the first trapped new signal in the priority order; else it
completes: `d[rd]` holds the result with the signals `inh` and the new ones and the context, and nothing else changes. -/
def finishesDecimal (i : Instr) (s : State) (rd : DIdx) (r : NormResult) (inh : SignalSet) (ctx : Context) : Prop :=
  if ctx.rm = .strict ∧ r.new.has .inexact = true then abortsWith i s .roundStrict
  else
    (∀ g before after, [Signal.divByZero, .invalid, .overflow, .underflow, .inexact, .rounded, .subnormal, .clamped] =
        before ++ g :: after → (∀ b ∈ before, (r.new &&& ctx.traps).has b = false) →
        (r.new &&& ctx.traps).has g = true → abortsWith i s (.signal g)) ∧
    ((∀ g, (r.new &&& ctx.traps).has g = false) →
      ∃ t w, exec i s = .next t ∧ t.keepsAllButD s rd ∧ t.readD rd = .ok w ∧ w.coef.length = s.cfg.n ∧
        uval w.coef = (if r.kind = .finite then r.coef else 0) ∧
        sval16 (cbScale w.cb) = (if r.kind = .finite then -r.exp else 0) ∧
        cbSign w.cb = (if r.kind = .nan then false else r.neg) ∧ cbSpecial w.cb = r.kind.code ∧
        cbSignals w.cb = inh ||| r.new ∧ cbRm w.cb = ctx.rm ∧ cbTraps w.cb = ctx.traps ∧ cbReserved w.cb = 0)

/-! ### Offsets of the host port (R86) -/

/-- The offset of limb `j` of `x[r]`. -/
def offX (r : XIdx) (j : Nat) : BitVec 16 := BitVec.ofNat 16 (0x1000 + 0x100 * r.toNat + j)

/-- The offset of limb `j` of the coefficient of `d[r]`. -/
def offD (r : DIdx) (j : Nat) : BitVec 16 := BitVec.ofNat 16 (0x2000 + 0x100 * r.toNat + j)

/-- The offset of the control block of `d[r]`. -/
def offCb (r : DIdx) : BitVec 16 := BitVec.ofNat 16 (0x2000 + 0x100 * r.toNat + 0xFF)

/-- The offset names a word of a register (R86). -/
def registerOffset (n : Nat) (off : BitVec 16) : Prop :=
  (∃ r j, j < n ∧ off = offX r j) ∨ (∃ r j, j < n ∧ off = offD r j) ∨ (∃ r, off = offCb r)

/-! ### Safe steps -/

/-- A safe step: the machine goes on. The one way not to is `FAULT_UNWRITTEN` (R344). -/
def State.safe (s : State) : Prop := ∃ t, step s = .next t

/-! ### What nothing has written cannot be seen (R48, R49, R382) -/

/-- Two words agree in what can be seen of them: their marks, and the word where the mark is set. -/
def Slot.agrees (a b : Slot) : Prop := a.mark = b.mark ∧ (a.mark = true → a.word = b.word)

/-- Two registers agree word by word. -/
def slotsAgree (a b : List Slot) : Prop := List.Forall₂ Slot.agrees a b

/-- Two states agree in all but the contents of words not written since reset. -/
def State.agrees (s t : State) : Prop :=
  s.cfg = t.cfg ∧ s.flags = t.flags ∧ s.status = t.status ∧ s.abortCmd = t.abortCmd ∧ s.port = t.port ∧
  s.readData = t.readData ∧ s.resets = t.resets ∧
  (∀ r : XIdx, slotsAgree (s.xSlots r) (t.xSlots r)) ∧
  (∀ r : DIdx, slotsAgree (s.dSlots r).coef (t.dSlots r).coef ∧ Slot.agrees (s.dSlots r).cb (t.dSlots r).cb)

/-- Two answers agree: the same stop, or next states that agree. -/
def outcomesAgree : Outcome → Outcome → Prop
  | .next s, .next t => s.agrees t
  | .fault a, .fault b => a = b
  | .refused a, .refused b => a = b
  | _, _ => False

end Sys2Proof.Machine
end

