-- ==== Sys2Proof/Certificates/Slice0/Obligations.lean ====
section
/-! DEFINITION. The statements about the model, from the numbered rules of the spec: the encoding, the host port, aborts and reset,
the machine's invariants, what each command does, the normalizer, and the informative algorithms. -/

open Sys2Proof Sys2Proof.Machine

/-! ### Encoding (R100 to R114) -/

/-- Decoding the word of a legal command gives the command back, with every operand at every value (R101 to R114). -/
def Obligations.DecodeOfEncode : Prop :=
  ∀ (n : Nat) (i : Instr), i.wf n = true → decode n (encode i) = .ok i

/-- Every word that decodes is the word of the command it decodes to, and that command is legal on the block: no bit of a
legal word is dropped (R108, R114). -/
def Obligations.EncodeOfDecode : Prop :=
  ∀ (n : Nat) (w : CmdWord) (i : Instr), decode n w = .ok i → encode i = w ∧ i.wf n = true

/-- The words that decode are those that match a row of the opcode map and pass the `mode`, `s` and `N` checks; every other
word is illegal (R109 to R114). -/
def Obligations.DecodeAcceptsExactlyLegalWords : Prop :=
  ∀ (n : Nat) (w : CmdWord),
    (∃ i, decode n w = .ok i) ↔
      ∃ row ∈ opcodeMap, w &&& row.mask = row.pattern ∧
        (row.fmt = .r → (∃ m ∈ row.modes, fieldMode w = m.code) ∧ fieldS w ∈ row.signs) ∧
        (row.name = .divw → n ≠ 1)

/-- Words written out from the pattern strings of R109, one of each family, decode to the commands they stand for. -/
def Obligations.SampleWordsDecode : Prop :=
  -- 001001ddddaaaabbbb0000mmms000000
  decode 2 0b00100100110001001000000111000000 = .ok (.shr 3 1 2 .strict true) ∧
  -- 010010ddddaaaabbbb0000mmms000000
  decode 2 0b01001011110000100100001001000000 = .ok (.sub 15 0 9 .saturating true) ∧
  -- 011000ddddaaaabbbbeeeemmms000000
  decode 2 0b01100001010110011110000101000000 = .ok (.divrem 5 8 6 7 .checked true) ∧
  -- 100010dddd000000iiiiiiiiiiiiiiii
  decode 2 0b10001000010000000000000000011110 = .ok (.trmax 1 30) ∧
  -- 110001ddddaaaa0000000iiiiiiiiiii
  decode 2 0b11000100100001000000000011010010 = .ok (.dctx 2 1 .ceiling 0x1A) ∧
  -- 111010ddddaaaabbbb00000000000000
  decode 2 0b11101000110001001000000000000000 = .ok (.dmul 3 1 2) ∧
  -- DIVW has no meaning on a block of one limb (R112), and the all-zero word is illegal (R113)
  decode 1 0b01101000110001001001000000000000 = .error .needsTwoLimbs ∧
  decode 2 0 = .error .unassignedOpcode

/-! ### The host port, aborts and reset (R80 to R93, R340 to R348, R380 to R382) -/

/-- A write to `COMMAND` of a block that is not aborted runs the command its low 32 bits decode to: the step is that
command's meaning, on the state with this access taken off the port (R86, R87, R340). An illegal word aborts with
ILLEGAL_COMMAND and the word in `ABORT_CMD`; no operand is read, so no state makes it fault (R113, R348). -/
def Obligations.StepRunsDecodedCommand : Prop :=
  ∀ (s : State) (v : Word) (rest : List HostAccess),
    s.port = .write offCommand v :: rest → s.status.aborted = false →
    (∀ i, decode s.cfg.n (v.setWidth 32) = .ok i → Sys2Proof.Machine.step s = exec i { s with port := rest }) ∧
    ((∀ i, decode s.cfg.n (v.setWidth 32) ≠ .ok i) →
      Sys2Proof.Machine.step s =
        .next { s with port := rest, status := { aborted := true, cause := 0x01 }, abortCmd := v &&& 0xFFFFFFFF })

/-- The aborted state (R89, R346): a write to `COMMAND` changes nothing; a write to a register word still stores its word, and a
read of a word still returns it. A read of a word not written still answers some word and changes nothing else (R49); which
one is a free value of the model's choice (log 4). -/
def Obligations.AbortedBlockIgnoresCommands : Prop :=
  ∀ (s : State) (rest : List HostAccess), s.wf → s.status.aborted = true →
    (∀ v, s.port = .write offCommand v :: rest → Sys2Proof.Machine.step s = .next { s with port := rest }) ∧
    (∀ off v, registerOffset s.cfg.n off → s.port = .write off v :: rest →
      ∃ t, Sys2Proof.Machine.step s = .next t ∧ t.portWord off = some v ∧ t.status = s.status) ∧
    (∀ off v, s.portWord off = some v → s.port = .read off :: rest →
      Sys2Proof.Machine.step s = .next { s with port := rest, readData := v }) ∧
    (∀ off, s.portWord off = none → s.port = .read off :: rest →
      ∃ v, Sys2Proof.Machine.step s = .next { s with port := rest, readData := v })

/-- The only way out of the aborted state is a write to `RESET`, which clears STATUS, ABORT_CMD and FLAGS; until then they stay
as they are, so no second abort is recorded (R347). -/
def Obligations.AbortLeftOnlyByReset : Prop :=
  ∀ (s t : State), s.status.aborted = true → Sys2Proof.Machine.step s = .next t →
    ((∃ v rest, s.port = .write offReset v :: rest) →
      t.status = Status.zero ∧ t.abortCmd = 0 ∧ t.flags = Flags.zero) ∧
    ((¬ ∃ v rest, s.port = .write offReset v :: rest) →
      t.status = s.status ∧ t.abortCmd = s.abortCmd ∧ t.flags = s.flags)

/-- A write of any value to `RESET` clears FLAGS, STATUS, ABORT_CMD and every mark, and keeps the parameters (R380). That the
host's own side of the port is kept and that the reset is counted are the model's choices (log 4, log 5). -/
def Obligations.ResetWriteClearsBlock : Prop :=
  ∀ (s : State) (v : Word) (rest : List HostAccess), s.port = .write offReset v :: rest →
    ∃ t, Sys2Proof.Machine.step s = .next t ∧ t.flags.toWord = 0 ∧ t.status.toWord = 0 ∧ t.abortCmd = 0 ∧
      (∀ r, ∀ w ∈ t.xSlots r, w.mark = false) ∧
      (∀ r, (∀ w ∈ (t.dSlots r).coef, w.mark = false) ∧ (t.dSlots r).cb.mark = false) ∧
      t.cfg = s.cfg ∧ t.port = rest ∧ t.readData = s.readData ∧ t.resets = s.resets + 1

/-- What the host reads at the control words (R42 to R45, R86): each field at its bits, the reserved bits 0, and 0 at `COMMAND` and
`RESET`; the read changes nothing else (R85). -/
def Obligations.HostReadsControlWords : Prop :=
  ∀ (s : State) (off : BitVec 16) (rest : List HostAccess), s.wf → s.port = .read off :: rest →
    ∃ v, (off = 0x0000 → v = 0) ∧
      (off = 0x0001 → v.getLsbD 0 = s.status.aborted ∧ v.extractLsb' 1 7 = 0 ∧ v.extractLsb' 8 8 = s.status.cause ∧
        v.extractLsb' 16 48 = 0) ∧
      (off = 0x0002 → v = s.abortCmd) ∧
      (off = 0x0003 → v.getLsbD 0 = s.flags.cf ∧ v.getLsbD 1 = s.flags.vf ∧ v.getLsbD 2 = s.flags.of ∧
        v.getLsbD 3 = s.flags.none ∧
        v.extractLsb' 4 2 = (match s.flags.cmp with | .equal => 0 | .less => 1 | .greater => 2) ∧
        v.extractLsb' 6 58 = 0) ∧
      (off = 0x0004 → v.toNat = s.cfg.n) ∧
      (off = 0x0005 → v = 0) ∧
      (off.toNat ≤ 5 → Sys2Proof.Machine.step s = .next { s with port := rest, readData := v })

/-- What the host reads at a register word (R49, R86, R87): the word, if it has been written since reset; if it has not, some
word, a free value of the model's choice (log 4). An offset that the map does not list reads as 0. Nothing but the host's own
read data changes (R85). -/
def Obligations.HostReadsRegisterWords : Prop :=
  ∀ (s : State) (off : BitVec 16) (rest : List HostAccess), s.wf → s.port = .read off :: rest →
    (∀ w : Slot,
      (∃ r j, j < s.cfg.n ∧ off = offX r j ∧ (s.xSlots r)[j]? = some w) ∨
      (∃ r j, j < s.cfg.n ∧ off = offD r j ∧ (s.dSlots r).coef[j]? = some w) ∨
      (∃ r, off = offCb r ∧ (s.dSlots r).cb = w) →
      (w.mark = true → Sys2Proof.Machine.step s = .next { s with port := rest, readData := w.word }) ∧
      (w.mark = false →
        ∃ v, Sys2Proof.Machine.step s = .next { s with port := rest, readData := v })) ∧
    (¬ registerOffset s.cfg.n off → 5 < off.toNat →
      Sys2Proof.Machine.step s = .next { s with port := rest, readData := 0 })

/-- What a host write does (R49, R87, R88): at a register word it stores all 64 bits, whatever they are, and marks the word; at a
read-only or unlisted offset it does nothing. Nothing else changes. -/
def Obligations.HostWritesRegisterWords : Prop :=
  ∀ (s : State) (off : BitVec 16) (v : Word) (rest : List HostAccess), s.wf → s.port = .write off v :: rest →
    (∀ r j, j < s.cfg.n → off = offX r j →
      ∃ t, Sys2Proof.Machine.step s = .next t ∧ t.xSlots r = (s.xSlots r).set j ⟨v, true⟩ ∧
        t.keepsAllButX { s with port := rest } [r] ∧ t.flags = s.flags) ∧
    (∀ r j, j < s.cfg.n → off = offD r j →
      ∃ t, Sys2Proof.Machine.step s = .next t ∧
        t.dSlots r = { coef := (s.dSlots r).coef.set j ⟨v, true⟩, cb := (s.dSlots r).cb } ∧
        t.keepsAllButD { s with port := rest } r) ∧
    (∀ r, off = offCb r →
      ∃ t, Sys2Proof.Machine.step s = .next t ∧ t.dSlots r = { coef := (s.dSlots r).coef, cb := ⟨v, true⟩ } ∧
        t.keepsAllButD { s with port := rest } r) ∧
    (¬ registerOffset s.cfg.n off → off ≠ 0x0000 → off ≠ 0x0005 →
      Sys2Proof.Machine.step s = .next { s with port := rest })

/-- No step shows what a word held before it was written since reset: two states that agree in all but such contents step to
answers that agree in all but such contents (R48, R49, R382). -/
def Obligations.UnwrittenContentsInvisible : Prop :=
  ∀ s t : State, s.agrees t → outcomesAgree (Sys2Proof.Machine.step s) (Sys2Proof.Machine.step t)

/-! ### Invariants of every step -/

/-- The state after reset meets the machine's invariant, for every legal choice of the parameters; so does the reference one
(log 1). -/
def Obligations.ResetStateWellFormed : Prop :=
  (∀ p : Params, p.legal → (State.resetOf p).wf ∧ (State.resetOf p).controlBlocksOk) ∧
  State.reset.wf ∧ State.reset.controlBlocksOk

/-- The reset values (R60): FLAGS, STATUS and ABORT_CMD read as 0, CONFIG as `N`, and every mark is clear, so that no register is
written. -/
def Obligations.ResetStateValues : Prop :=
  ∀ p : Params, p.legal →
    (State.resetOf p).flags.toWord = 0 ∧ (State.resetOf p).status.toWord = 0 ∧ (State.resetOf p).abortCmd = 0 ∧
    (configWord (State.resetOf p).cfg).toNat = p.n ∧
    (∀ r, ∀ w ∈ (State.resetOf p).xSlots r, w.mark = false) ∧
    (∀ r, (∀ w ∈ ((State.resetOf p).dSlots r).coef, w.mark = false) ∧ ((State.resetOf p).dSlots r).cb.mark = false) ∧
    (∀ r, ¬ (State.resetOf p).writtenX r ∧ ¬ (State.resetOf p).writtenD r)

/-- Every step keeps the machine's invariant: legal parameters, registers of `N` limbs, STATUS and ABORT_CMD both 0 or a cause of
R341 with a command word (R31, R32, R43, R44, R341). -/
def Obligations.StepKeepsInvariant : Prop :=
  ∀ s t : State, s.wf → Sys2Proof.Machine.step s = .next t → t.wf

/-- Every control block that a step writes is well-formed, unless the step is the host's own write of a malformed one (R35). -/
def Obligations.StepKeepsControlBlocksWellFormed : Prop :=
  ∀ s t : State, s.controlBlocksOk → (∀ a rest, s.port = a :: rest → ¬ a.storesMalformed s.cfg.n) →
    Sys2Proof.Machine.step s = .next t → t.controlBlocksOk

/-- No step changes the parameters, so CONFIG and the tables are constant (R45, R46), and no step adds an access to the port:
the host's stream is performed in its order, one access a step (R90). -/
def Obligations.StepKeepsParametersAndOrder : Prop :=
  ∀ s t : State, Sys2Proof.Machine.step s = .next t → t.cfg = s.cfg ∧ t.port = s.port.tail

/-! ### All commands (R15, R42, R49, R340 to R348) -/

/-- A command stops the model exactly when it is legal and one of the registers it reads is not written (R49, R50, R340, R348);
nothing is refused. Two clauses are the model's reading: a command that uses only some words of a register (LGET, LSET, DIVRD,
DIVW, DCOEF, DCB) stops for any unwritten word of it (log 3); and an ill-formed term, which no step reaches, aborts as the
illegal word does and so does not stop (log 11). -/
def Obligations.CommandFaultsExactlyOnUnwrittenOperand : Prop :=
  ∀ (i : Instr) (s : State),
    ((∃ f, exec i s = .fault f) ↔ i.wf s.cfg.n = true ∧ ¬ operandsWritten i s) ∧ ∀ r, exec i s ≠ .refused r

/-- A legal command whose operands are written completes, and its destinations are then written registers (but for a checked
command without a result, which sets NONE), unless its rule raises an abort: a strict overflow, a zero divisor, an index out of
range, a malformed control block, or a trapped or strict decimal result. The premises rule these out by the mode, the divisor,
the index, and a context of the first decimal operand that traps nothing and is not Strict (R144, R201, R271, R272, R341). -/
def Obligations.CommandCompletesWhenNothingAborts : Prop :=
  ∀ (i : Instr) (s : State), s.wf → i.wf s.cfg.n = true → operandsWritten i s →
    (match i with
      | .shl _ _ _ m => m ≠ .strict
      | .shr _ _ _ m _ => m ≠ .strict
      | .add _ _ _ m _ => m ≠ .strict
      | .sub _ _ _ m _ => m ≠ .strict
      | .mul _ _ _ m _ => m ≠ .strict
      | .mulp10 _ _ _ m => m ≠ .strict
      | .divrem _ _ _ b m _ => m ≠ .strict ∧ ∃ v, s.readX b = .ok v ∧ uval v ≠ 0
      | .divrd _ _ _ b m => m ≠ .strict ∧ ∃ v, s.readX b = .ok v ∧ uval v % 2 ^ 64 ≠ 0
      | .divw _ _ _ b m => m ≠ .strict ∧ ∃ v, s.readX b = .ok v ∧ uval v % 2 ^ 64 ≠ 0
      | .lget _ _ idx => idx.toNat < s.cfg.n
      | .lset _ _ idx => idx.toNat < s.cfg.n
      | .tpow10 _ k => 10 ^ k.toNat < 2 ^ (64 * s.cfg.n)
      | .tpow5 _ k => 5 ^ k.toNat < 2 ^ (64 * s.cfg.n)
      | .trmax _ k => 10 ^ k.toNat < 2 ^ (64 * s.cfg.n)
      | .dmake _ _ _ _ => s.cfg.eMin = -32767 ∧ s.cfg.eMax = 32768
      | .dctx _ a _ _ => ∃ v, s.readD a = .ok v ∧ cbWellFormed v.cb = true
      | .dround _ a _ => ∃ v, s.readD a = .ok v ∧ cbWellFormed v.cb = true ∧ cbTraps v.cb = 0 ∧ cbRm v.cb ≠ .strict
      | .dtrunc _ a _ => ∃ v, s.readD a = .ok v ∧ cbWellFormed v.cb = true ∧ cbTraps v.cb = 0 ∧ cbRm v.cb ≠ .strict
      | .dadd _ a b => ∃ v w, s.readD a = .ok v ∧ s.readD b = .ok w ∧ cbWellFormed v.cb = true ∧
          cbWellFormed w.cb = true ∧ cbTraps v.cb = 0 ∧ cbRm v.cb ≠ .strict
      | .dsub _ a b => ∃ v w, s.readD a = .ok v ∧ s.readD b = .ok w ∧ cbWellFormed v.cb = true ∧
          cbWellFormed w.cb = true ∧ cbTraps v.cb = 0 ∧ cbRm v.cb ≠ .strict
      | .dmul _ a b => ∃ v w, s.readD a = .ok v ∧ s.readD b = .ok w ∧ cbWellFormed v.cb = true ∧
          cbWellFormed w.cb = true ∧ cbTraps v.cb = 0 ∧ cbRm v.cb ≠ .strict
      | .mov _ _ => True
      | .ldi _ _ => True
      | .cmp _ _ _ => True
      | .mulw _ _ _ _ => True
      | .digits _ _ => True
      | .divp10 _ _ _ _ => True
      | .dmov _ _ => True
      | .dcoef _ _ => True
      | .dcb _ _ => True) →
    ∃ t, exec i s = .next t ∧ t.status = s.status ∧ t.abortCmd = s.abortCmd ∧
      ((writesArith i = true ∧ t.flags.none = true) ∨ ∀ r ∈ writesX i, t.writtenX r) ∧
      ∀ r ∈ writesD i, t.writtenD r

/-- Aborting is atomic and precise: a command that aborts the block changes STATUS and ABORT_CMD alone, to a cause of R341 and the
word that was issued (R340, R343, R345). -/
def Obligations.AbortIsAtomic : Prop :=
  ∀ (s t : State) (v : Word) (rest : List HostAccess),
    s.port = .write offCommand v :: rest → s.status.aborted = false → Sys2Proof.Machine.step s = .next t →
    t.status.aborted = true →
    ∃ c : Cause, t = { s with port := rest, status := { aborted := true, cause := c.code },
                              abortCmd := v &&& 0xFFFFFFFF }

/-- The frame of every command: it changes no integer register but `rd` and `rd2`, no decimal register but `rd` (each only where
the opcode map gives it that destination), no flag that R42 does not let it write, no parameter and nothing of the host's side;
STATUS and ABORT_CMD change only by an abort, which changes nothing else (R42, R109, R145, R345). An ill-formed
term aborts as the illegal word does, by the model's reading (log 11). -/
def Obligations.CommandWritesOnlyItsDestinations : Prop :=
  ∀ (i : Instr) (s t : State), exec i s = .next t →
    (∀ q, q ∉ writesX i → t.xSlots q = s.xSlots q) ∧ (∀ q, q ∉ writesD i → t.dSlots q = s.dSlots q) ∧
    (writesArith i = false → t.flags.cf = s.flags.cf ∧ t.flags.vf = s.flags.vf ∧ t.flags.of = s.flags.of ∧
      t.flags.none = s.flags.none) ∧
    (writesCmp i = false → t.flags.cmp = s.flags.cmp) ∧
    t.cfg = s.cfg ∧ t.port = s.port ∧ t.readData = s.readData ∧ t.resets = s.resets ∧
    ((t.status = s.status ∧ t.abortCmd = s.abortCmd) ∨
      ∃ c : Cause, t = { s with status := { aborted := true, cause := c.code }, abortCmd := (encode i).setWidth 64 })

/-- Which command can record which cause (R341): INT_OVERFLOW only the eight commands of its row in strict mode, INT_DIV_BY_ZERO
only a division that is not checked, INDEX_RANGE only the limb and table indexes, RESERVED_OPERAND and ROUND_STRICT only the
decimal commands of their rows, and a signal only a command that uses the normalizer; Invalid only DADD, DSUB and DMUL, DMAKE
only Overflow, and DivByZero and every other code never. -/
def Obligations.CausesAreRaisedAsListed : Prop :=
  ∀ (i : Instr) (s t : State), s.wf → s.status.aborted = false → i.wf s.cfg.n = true → exec i s = .next t →
    t.status.aborted = true →
    (t.status.cause = 0x02 ∧
      ((∃ d a b, i = .shl d a b .strict) ∨ (∃ d a b g, i = .shr d a b .strict g) ∨ (∃ d a b g, i = .add d a b .strict g) ∨
        (∃ d a b g, i = .sub d a b .strict g) ∨ (∃ d a b g, i = .mul d a b .strict g) ∨
        (∃ d e a b, i = .divrem d e a b .strict true) ∨ (∃ d e a b, i = .divw d e a b .strict) ∨
        (∃ d a b, i = .mulp10 d a b .strict))) ∨
    (t.status.cause = 0x03 ∧ ∃ m, m ≠ Mode.checked ∧
      ((∃ d e a b g, i = .divrem d e a b m g) ∨ (∃ d e a b, i = .divrd d e a b m) ∨ (∃ d e a b, i = .divw d e a b m))) ∨
    (t.status.cause = 0x04 ∧
      ((∃ d a k, i = .lget d a k) ∨ (∃ d a k, i = .lset d a k) ∨ (∃ d k, i = .tpow10 d k) ∨ (∃ d k, i = .tpow5 d k) ∨
        (∃ d k, i = .trmax d k))) ∨
    (t.status.cause = 0x05 ∧
      ((∃ d a m k, i = .dctx d a m k) ∨ (∃ d a k, i = .dround d a k) ∨ (∃ d a k, i = .dtrunc d a k) ∨
        (∃ d a b, i = .dadd d a b) ∨ (∃ d a b, i = .dsub d a b) ∨ (∃ d a b, i = .dmul d a b))) ∨
    (t.status.cause ∈ [0x06, 0x10, 0x12, 0x14, 0x15, 0x16, 0x17] ∧
      ((∃ d a k, i = .dround d a k) ∨ (∃ d a k, i = .dtrunc d a k) ∨
        (∃ d a b, i = .dadd d a b) ∨ (∃ d a b, i = .dsub d a b) ∨ (∃ d a b, i = .dmul d a b))) ∨
    (t.status.cause = 0x13 ∧ ((∃ d a b, i = .dadd d a b) ∨ (∃ d a b, i = .dsub d a b) ∨ (∃ d a b, i = .dmul d a b))) ∨
    (t.status.cause = 0x14 ∧ ∃ d a g k, i = .dmake d a g k)

/-- No command raises DivByZero (R36): a command that completes leaves that signal only where it wrote nothing or an operand
carried it in. -/
def Obligations.DivByZeroIsNeverRaised : Prop :=
  ∀ (i : Instr) (s t : State), exec i s = .next t → ∀ r, (cbSignals (t.dSlots r).cb.word).has .divByZero = true →
    t.dSlots r = s.dSlots r ∨ ∃ q ∈ readsD i, (cbSignals (s.dSlots q).cb.word).has .divByZero = true

/-! ### Readings and constants (R9, R12) -/

/-- The readings of an N-limb pattern: BigUInt is the pattern as a number; BigInt subtracts `2^(64N)` when bit `64N-1` is set;
and the pattern of any integer is that integer modulo `2^(64N)` (R12). -/
def Obligations.PatternReadings : Prop :=
  ∀ (n : Nat) (a : LimbArray), 1 ≤ n → a.length = n →
    uval a < 2 ^ (64 * n) ∧
    (∀ (i j : Nat), i < n → j < 64 → (uval a).testBit (64 * i + j) = (limb a i).getLsbD j) ∧
    ((uval a).testBit (64 * n - 1) = true → sval n a = (uval a : Int) - 2 ^ (64 * n)) ∧
    ((uval a).testBit (64 * n - 1) = false → sval n a = uval a) ∧
    (∀ v : Int, (pat n v).length = n ∧ (uval (pat n v) : Int) = v % 2 ^ (64 * n)) ∧
    pat n (uval a) = a ∧ pat n (sval n a) = a

/-- The derived constants (R9): the bounds of the two readings, `K10` and `K5` as the largest exponents whose power fits, `MAX_CLENGTH`
as `K10 + 1`, the number of digits of `MAXU` and the most that a coefficient has, and the values the spec lists. -/
def Obligations.DerivedConstants : Prop :=
  (∀ n : Nat, maxU n = 2 ^ (64 * n) - 1 ∧ minS n = -2 ^ (64 * n - 1) ∧ maxS n = 2 ^ (64 * n - 1) - 1 ∧
    (∀ k, 10 ^ k ≤ maxU n ↔ k ≤ k10 n ∧ 1 ≤ n) ∧ (∀ k, 5 ^ k ≤ maxU n ↔ k ≤ k5 n ∧ 1 ≤ n) ∧
    maxCLength n = k10 n + 1 ∧ dc (maxU n) = maxCLength n ∧ ∀ m, m < 2 ^ (64 * n) → dc m ≤ maxCLength n) ∧
  [1, 2, 4, 8].map k10 = [19, 38, 77, 154] ∧ [1, 2, 4, 8].map k5 = [27, 55, 110, 220] ∧
  [1, 2, 4, 8].map maxCLength = [20, 39, 78, 155]

/-! ### Moves, limb indexing and shifts (R140 to R147) -/

/-- MOV copies its source, and LDI loads its immediate, zero-extended; no flag changes, and LDI reads no register (R140, R141). -/
def Obligations.MovAndLdiWriteRegister : Prop :=
  (∀ (rd rs1 : XIdx) (s : State) (a : LimbArray), s.wf → s.readX rs1 = .ok a →
    writesValue (.mov rd rs1) s rd (uval a)) ∧
  (∀ (rd : XIdx) (imm : BitVec 16) (s : State), s.wf → writesValue (.ldi rd imm) s rd imm.toNat)

/-- LGET reads limb `idx`, zero-extended; LSET replaces limb `idx` of its destination by limb 0 of its source and keeps the other
limbs; an index of `N` or more aborts with INDEX_RANGE (R142, R143). -/
def Obligations.LgetAndLsetIndexLimbs : Prop :=
  ∀ (rd rs1 : XIdx) (idx : BitVec 16) (s : State) (a : LimbArray), s.wf → s.readX rs1 = .ok a →
    (idx.toNat < s.cfg.n → writesValue (.lget rd rs1 idx) s rd (uval a / 2 ^ (64 * idx.toNat) % 2 ^ 64)) ∧
    (s.cfg.n ≤ idx.toNat → abortsWith (.lget rd rs1 idx) s .indexRange) ∧
    ∀ v, s.readX rd = .ok v →
      (idx.toNat < s.cfg.n →
        writesValue (.lset rd rs1 idx) s rd
          (uval v % 2 ^ (64 * idx.toNat) + uval a % 2 ^ 64 * 2 ^ (64 * idx.toNat) +
            uval v / 2 ^ (64 * (idx.toNat + 1)) * 2 ^ (64 * (idx.toNat + 1)))) ∧
      (s.cfg.n ≤ idx.toNat → abortsWith (.lset rd rs1 idx) s .indexRange)

/-- SHL (R146) writes the low `64N` bits of the value times two to the amount modulo `64N`. SHR (R147) writes the quotient by two to
the amount modulo `64N`, rounded down: of the BigUInt reading when `s = 0` (zero fill), of the BigInt reading when `s = 1` (sign
fill). The exceptional case is an amount of `64N` or more, which OF shows. -/
def Obligations.ShiftsMultiplyAndDivide : Prop :=
  ∀ (rd rs1 rs2 : XIdx) (mode : Mode) (sgn : Bool) (s : State) (a b : LimbArray), s.wf → mode ≠ .saturating →
    s.readX rs1 = .ok a → s.readX rs2 = .ok b →
    let w := 64 * s.cfg.n
    let exc := decide (w ≤ uval b)
    finishesAs (.shl rd rs1 rs2 mode) s mode exc { cf := false, vf := false, of := exc } rd
      (uval a * 2 ^ (uval b % w) % 2 ^ w) 0 ∧
    finishesAs (.shr rd rs1 rs2 mode sgn) s mode exc { cf := false, vf := false, of := exc } rd
      (if sgn then ((sval s.cfg.n a).fdiv (2 ^ (uval b % w)) % 2 ^ w).toNat else uval a / 2 ^ (uval b % w)) 0

/-! ### The comparator, the adder and the multipliers (R170 to R176) -/

/-- CMP writes FLAGS.CMP by the order of the two readings and changes nothing else (R170). -/
def Obligations.CmpComparesReadings : Prop :=
  ∀ (rs1 rs2 : XIdx) (sgn : Bool) (s : State) (a b : LimbArray), s.wf →
    s.readX rs1 = .ok a → s.readX rs2 = .ok b →
    exec (.cmp rs1 rs2 sgn) s = .next { s with flags := { s.flags with cmp :=
      if sgn then
        (if sval s.cfg.n a < sval s.cfg.n b then .less else if sval s.cfg.n b < sval s.cfg.n a then .greater else .equal)
      else (if uval a < uval b then .less else if uval b < uval a then .greater else .equal) } }

/-- ADD and SUB (R172 to R174): the sum and the difference modulo `2^(64N)`; CF is the carry or the borrow, VF the signed overflow,
OF the one that `s` selects; the saturated result is the bound in the direction of the true one. -/
def Obligations.AddAndSubComputeExactResults : Prop :=
  ∀ (rd rs1 rs2 : XIdx) (mode : Mode) (sgn : Bool) (s : State) (a b : LimbArray), s.wf →
    s.readX rs1 = .ok a → s.readX rs2 = .ok b →
    let n := s.cfg.n
    let vf := fun ts : Int => decide (ts < -2 ^ (64 * n - 1) ∨ 2 ^ (64 * n - 1) ≤ ts)
    let sat := fun (ts : Int) (bound : Nat) =>
      if sgn then (if 0 ≤ ts then 2 ^ (64 * n - 1) - 1 else 2 ^ (64 * n - 1)) else bound
    let carry := decide (2 ^ (64 * n) ≤ uval a + uval b)
    let borrow := decide (uval a < uval b)
    let sum := sval n a + sval n b
    let diff := sval n a - sval n b
    finishesAs (.add rd rs1 rs2 mode sgn) s mode (if sgn then vf sum else carry)
      { cf := carry, vf := vf sum, of := if sgn then vf sum else carry } rd
      ((uval a + uval b) % 2 ^ (64 * n)) (sat sum (2 ^ (64 * n) - 1)) ∧
    finishesAs (.sub rd rs1 rs2 mode sgn) s mode (if sgn then vf diff else borrow)
      { cf := borrow, vf := vf diff, of := if sgn then vf diff else borrow } rd
      (if uval b ≤ uval a then uval a - uval b else uval a + 2 ^ (64 * n) - uval b) (sat diff 0)

/-- MUL (R172, R175): the product modulo `2^(64N)`; CF says that the unsigned product does not fit, VF that the signed one does
not, OF the one that `s` selects; the saturated result is the bound in the direction of the true product. -/
def Obligations.MulComputesProduct : Prop :=
  ∀ (rd rs1 rs2 : XIdx) (mode : Mode) (sgn : Bool) (s : State) (a b : LimbArray), s.wf →
    s.readX rs1 = .ok a → s.readX rs2 = .ok b →
    let n := s.cfg.n
    let ts := sval n a * sval n b
    let cf := decide (2 ^ (64 * n) ≤ uval a * uval b)
    let vf := decide (ts < -2 ^ (64 * n - 1) ∨ 2 ^ (64 * n - 1) ≤ ts)
    let of := if sgn then vf else cf
    finishesAs (.mul rd rs1 rs2 mode sgn) s mode of { cf := cf, vf := vf, of := of } rd
      (uval a * uval b % 2 ^ (64 * n))
      (if sgn then (if 0 ≤ ts then 2 ^ (64 * n - 1) - 1 else 2 ^ (64 * n - 1)) else 2 ^ (64 * n) - 1)

/-- MULW writes the low and the high half of the whole unsigned product; all four flags are 0 (R176). -/
def Obligations.MulwWritesBothHalves : Prop :=
  ∀ (rd rd2 rs1 rs2 : XIdx) (s : State) (a b : LimbArray), s.wf → s.readX rs1 = .ok a → s.readX rs2 = .ok b →
    finishesAsPair (.mulw rd rd2 rs1 rs2) s .wrapping false ArithFlags.clear rd rd2
      (uval a * uval b % 2 ^ (64 * s.cfg.n)) (uval a * uval b / 2 ^ (64 * s.cfg.n))

/-! ### Division (R200 to R204) -/

/-- Unsigned DIVREM and DIVRD write the quotient and remainder that R200 fixes: `u = q*v + r` with `r < v`. DIVRD's divisor is limb
0 of its register alone (R202, R203). No case is exceptional, so no mode aborts. -/
def Obligations.UnsignedDivisionIsExact : Prop :=
  ∀ (rd rd2 rs1 rs2 : XIdx) (mode : Mode) (s : State) (a b : LimbArray) (q r : Nat), s.wf → mode ≠ .saturating →
    s.readX rs1 = .ok a → s.readX rs2 = .ok b →
    (uval a = q * uval b + r → r < uval b →
      finishesAsPair (.divrem rd rd2 rs1 rs2 mode false) s mode false ArithFlags.clear rd rd2 q r) ∧
    (uval a = q * (uval b % 2 ^ 64) + r → r < uval b % 2 ^ 64 →
      finishesAsPair (.divrd rd rd2 rs1 rs2 mode) s mode false ArithFlags.clear rd rd2 q r)

/-- Signed DIVREM truncates toward zero, and the remainder has the dividend's sign; the exceptional case is `MINS / -1`, where VF
and OF are set and the wrapped quotient is the pattern of `2^(64N-1)` (R202). -/
def Obligations.SignedDivremTruncates : Prop :=
  ∀ (rd rd2 rs1 rs2 : XIdx) (mode : Mode) (s : State) (a b : LimbArray) (q r : Int), s.wf → mode ≠ .saturating →
    s.readX rs1 = .ok a → s.readX rs2 = .ok b →
    sval s.cfg.n a = q * sval s.cfg.n b + r → r.natAbs < (sval s.cfg.n b).natAbs → 0 ≤ r * sval s.cfg.n a →
    let exc := decide (sval s.cfg.n a = -2 ^ (64 * s.cfg.n - 1) ∧ sval s.cfg.n b = -1)
    finishesAsPair (.divrem rd rd2 rs1 rs2 mode true) s mode exc { cf := false, vf := exc, of := exc } rd rd2
      (q % 2 ^ (64 * s.cfg.n)).toNat (r % 2 ^ (64 * s.cfg.n)).toNat

/-- DIVW divides the two low limbs of its dividend by limb 0 of its divisor; the exceptional case is a quotient that needs more
than 64 bits, which the high limb shows; the quotient is then its low 64 bits and the remainder stays exact (R204). -/
def Obligations.DivwDividesTwoLimbs : Prop :=
  ∀ (rd rd2 rs1 rs2 : XIdx) (mode : Mode) (s : State) (a b : LimbArray) (q r : Nat), s.wf → s.cfg.n ≠ 1 →
    mode ≠ .saturating → s.readX rs1 = .ok a → s.readX rs2 = .ok b →
    uval a % 2 ^ 128 = q * (uval b % 2 ^ 64) + r → r < uval b % 2 ^ 64 →
    finishesAsPair (.divw rd rd2 rs1 rs2 mode) s mode (decide (2 ^ 64 ≤ q))
      { cf := false, vf := false, of := decide (2 ^ 64 ≤ q) } rd rd2 (q % 2 ^ 64) r

/-- Division by zero (R201) does not use Finish: in checked mode no destination is written, CF, VF and OF are 0 and NONE is 1; in
every other mode the command aborts with INT_DIV_BY_ZERO. For DIVRD and DIVW the divisor is limb 0 alone (R203, R204). -/
def Obligations.DivisionByZero : Prop :=
  ∀ (rd rd2 rs1 rs2 : XIdx) (mode : Mode) (sgn : Bool) (s : State) (a b : LimbArray) (i : Instr), s.wf →
    mode ≠ .saturating → s.readX rs1 = .ok a → s.readX rs2 = .ok b →
    (i = .divrem rd rd2 rs1 rs2 mode sgn ∧ uval b = 0) ∨
      (i = .divrd rd rd2 rs1 rs2 mode ∧ uval b % 2 ^ 64 = 0) ∨
      (i = .divw rd rd2 rs1 rs2 mode ∧ s.cfg.n ≠ 1 ∧ uval b % 2 ^ 64 = 0) →
    (mode = .checked →
      exec i s = .next { s with flags := { cf := false, vf := false, of := false, none := true, cmp := s.flags.cmp } }) ∧
    (mode ≠ .checked → abortsWith i s .intDivByZero)

/-! ### Tables, digit count and rescaling (R230 to R238) -/

/-- TPOW10, TPOW5 and TRMAX read `10^k`, `5^k` and `MAXU div 10^k` for every `k` whose power fits in `N` limbs, and abort with
INDEX_RANGE for every other `k` (R46, R230 to R232). -/
def Obligations.TableReadsGivePowers : Prop :=
  ∀ (rd : XIdx) (k : BitVec 16) (s : State), s.wf →
    (10 ^ k.toNat < 2 ^ (64 * s.cfg.n) →
      writesValue (.tpow10 rd k) s rd (10 ^ k.toNat) ∧
      writesValue (.trmax rd k) s rd ((2 ^ (64 * s.cfg.n) - 1) / 10 ^ k.toNat)) ∧
    (2 ^ (64 * s.cfg.n) ≤ 10 ^ k.toNat →
      abortsWith (.tpow10 rd k) s .indexRange ∧ abortsWith (.trmax rd k) s .indexRange) ∧
    (5 ^ k.toNat < 2 ^ (64 * s.cfg.n) → writesValue (.tpow5 rd k) s rd (5 ^ k.toNat)) ∧
    (2 ^ (64 * s.cfg.n) ≤ 5 ^ k.toNat → abortsWith (.tpow5 rd k) s .indexRange)

/-- DIGITS writes the least `d >= 1` with `x < 10^d`, which is 1 for 0 (R234, R236). -/
def Obligations.DigitsCountsDecimalDigits : Prop :=
  ∀ (rd rs1 : XIdx) (s : State) (a : LimbArray) (d : Nat), s.wf → s.readX rs1 = .ok a →
    1 ≤ d → uval a < 10 ^ d → (∀ e, 1 ≤ e → uval a < 10 ^ e → d ≤ e) →
    writesValue (.digits rd rs1) s rd d

/-- MULP10 multiplies by `10^k` for the whole amount `k`, however large; CF and OF say that the product exceeds `MAXU`, and the
saturated result is `MAXU` (R237). DIVP10 divides by `10^k`, with remainder, and all four flags are 0 (R238). -/
def Obligations.RescalingByPowersOfTen : Prop :=
  ∀ (rd rd2 rs1 rs2 : XIdx) (mode : Mode) (s : State) (a b : LimbArray), s.wf →
    s.readX rs1 = .ok a → s.readX rs2 = .ok b →
    let exc := decide (2 ^ (64 * s.cfg.n) ≤ uval a * 10 ^ uval b)
    finishesAs (.mulp10 rd rs1 rs2 mode) s mode exc { cf := exc, vf := false, of := exc } rd
      (uval a * 10 ^ uval b % 2 ^ (64 * s.cfg.n)) (2 ^ (64 * s.cfg.n) - 1) ∧
    finishesAsPair (.divp10 rd rd2 rs1 rs2) s .wrapping false ArithFlags.clear rd rd2
      (uval a / 10 ^ uval b) (uval a % 10 ^ uval b)

/-- The reduced-maximum test (R233) and the digit count (R234): the table tells whether a value can be scaled up, `dc` is the least
digit count, and the powers of the table count the digits without division. -/
def Obligations.TablesTestAndCountDigits : Prop :=
  ∀ n : Nat,
    (∀ x k, x ≤ maxU n → k ≤ k10 n → (x ≤ romRMax n k ↔ x * rom10 k ≤ maxU n)) ∧
    (∀ m, m ≤ maxU n → dcByTable n m = dc m ∧ dc m ≤ maxCLength n) ∧
    dc 0 = 1 ∧ (∀ m, m ≠ 0 → m < 10 ^ dc m ∧ 10 ^ (dc m - 1) ≤ m)

/-! ### Rounding and the normalizer (R262 to R270) -/

/-- What each rounding mode means (R262): for a magnitude `M` of sign `g`, the result `v` of dropping `k` digits is the integer next
to `M / 10^k` that the mode names. Ties are the values halfway between two integers. Strict is defined where nothing is lost. -/
def Obligations.RoundDivMeansItsMode : Prop :=
  ∀ (m k : Nat) (neg : Bool),
    let p := 10 ^ k
    let v := fun rm => roundDiv m k neg rm
    (m ≤ v .up * p ∧ v .up * p < m + p) ∧
    (v .down * p ≤ m ∧ m < (v .down + 1) * p) ∧
    v .ceiling = (if neg then v .down else v .up) ∧ v .floor = (if neg then v .up else v .down) ∧
    (2 * v .halfUp * p ≤ 2 * m + p ∧ 2 * m < 2 * v .halfUp * p + p) ∧
    (2 * v .halfDown * p < 2 * m + p ∧ 2 * m ≤ 2 * v .halfDown * p + p) ∧
    (2 * v .halfEven * p ≤ 2 * m + p ∧ 2 * m ≤ 2 * v .halfEven * p + p ∧
      (2 * v .halfEven * p = 2 * m + p ∨ 2 * m = 2 * v .halfEven * p + p → v .halfEven % 2 = 0)) ∧
    v .strict = v .down ∧ (∀ rm, m % p = 0 → v rm * p = m)

/-- Stages 1 to 4 of the normalizer. For a nonzero magnitude (R266, R269): the least shift count that fits, raised to reach `E_MIN`;
the rounded coefficient; each signal exactly where its rule raises it; the clamp of a high exponent, and the overflow to
Infinity where the clamp does not fit. A zero (R268, R269) stays a zero of its sign, its exponent is clamped into range, and
only Rounded and Clamped can be raised. -/
def Obligations.NormalizerStages : Prop :=
  ∀ (p : Params) (m : Nat) (neg : Bool) (e : Int) (rm : RoundMode) (kreq : Nat), p.legal →
    (m ≠ 0 → ∃ k0 k : Nat, kreq ≤ k0 ∧ roundDiv m k0 neg rm ≤ maxU p.n ∧
      (∀ j, kreq ≤ j → j < k0 → maxU p.n < roundDiv m j neg rm) ∧ (k : Int) = max (k0 : Int) (p.eMin - e) ∧
      let c := roundDiv m k neg rm
      let j := (e + k - p.eMax).toNat
      let r := normOf p m neg e rm kreq
      let overflows := p.eMax < e + k ∧ maxU p.n < c * 10 ^ j
      (if overflows then r.kind = .inf ∧ r.coef = 0 ∧ r.exp = 0
       else r.kind = .finite ∧ r.coef = c * 10 ^ j ∧ r.exp = min (e + k) p.eMax) ∧
      r.neg = neg ∧
      (r.new.has .rounded = true ↔ 0 < k ∨ p.eMax < e + k) ∧
      (r.new.has .inexact = true ↔ m % 10 ^ k ≠ 0 ∨ overflows) ∧
      (r.new.has .underflow = true ↔ e + k0 < p.eMin) ∧
      (r.new.has .subnormal = true ↔ e + dc m - 1 < p.eMin) ∧
      (r.new.has .clamped = true ↔ p.eMax < e + k ∧ ¬ overflows) ∧
      (r.new.has .overflow = true ↔ overflows) ∧
      r.new.has .invalid = false ∧ r.new.has .divByZero = false) ∧
    (let r := normOf p 0 neg e rm kreq
     r.kind = .finite ∧ r.coef = 0 ∧ r.neg = neg ∧ r.exp = min (max (e + kreq) p.eMin) p.eMax ∧
      (r.new.has .rounded = true ↔ 0 < kreq ∨ p.eMax < e + kreq) ∧
      (r.new.has .clamped = true ↔ e + kreq < p.eMin ∨ p.eMax < e + kreq) ∧
      ∀ g, g ≠ .rounded → g ≠ .clamped → r.new.has g = false)

/-- Every finite result of the normalizer is in range, and its scale fits in an `i16` (R270). -/
def Obligations.NormalizerResultInRange : Prop :=
  ∀ (p : Params) (m : Nat) (neg : Bool) (e : Int) (rm : RoundMode) (kreq : Nat), p.legal →
    let r := normOf p m neg e rm kreq
    r.kind = .finite → r.coef ≤ maxU p.n ∧ p.eMin ≤ r.exp ∧ r.exp ≤ p.eMax ∧ sval16 (pat16 (-r.exp)) = -r.exp

/-- The normalizer raises Inexact exactly when its result does not have the value it was given (R39, R262 to R269). -/
def Obligations.InexactExactlyWhenValueChanges : Prop :=
  ∀ (p : Params) (m : Nat) (neg : Bool) (e : Int) (rm : RoundMode) (kreq : Nat), p.legal →
    let r := normOf p m neg e rm kreq
    r.new.has .inexact = false ↔
      r.kind = .finite ∧ finiteValue r.coef r.neg r.exp = finiteValue m neg e

/-- The informative computation of the shift count agrees with the least one that fits (R266, R267). -/
def Obligations.ShiftCountFromLeastCut : Prop :=
  ∀ (n m ka kreq : Nat) (neg : Bool) (rm : RoundMode), 1 ≤ n → kreq ≤ ka → m / 10 ^ ka ≤ maxU n →
    (∀ j, kreq ≤ j → j < ka → maxU n < m / 10 ^ j) →
    fitCount (maxU n) m neg rm kreq = (if roundDiv m ka neg rm = maxU n + 1 then ka + 1 else ka) ∧
    fitCountByCut (maxU n) m neg rm kreq = fitCount (maxU n) m neg rm kreq

/-! ### Decimal data commands (R290 to R299) -/

/-- DMAKE normalizes the coefficient at the exponent `-scale` with the sign of its word, under the default context: HalfUp and the
traps DivByZero, Invalid and Overflow; no signal is carried in (R38, R261, R290). With the default exponent bounds it keeps its
coefficient, scale and sign exactly, and raises nothing. -/
def Obligations.DmakeConstructsDecimal : Prop :=
  ∀ (rd : DIdx) (rs1 : XIdx) (neg : Bool) (scale : BitVec 16) (s : State) (a : LimbArray), s.wf →
    s.readX rs1 = .ok a →
    finishesDecimal (.dmake rd rs1 neg scale) s rd (normOf s.cfg (uval a) neg (-scale.toInt) .halfUp 0) 0
      { rm := .halfUp, traps := single .divByZero ||| single .invalid ||| single .overflow } ∧
    (s.cfg.eMin = -32767 → s.cfg.eMax = 32768 →
      ∃ t v, exec (.dmake rd rs1 neg scale) s = .next t ∧ t.keepsAllButD s rd ∧ t.readD rd = .ok v ∧ v.coef = a ∧
        cbScale v.cb = scale ∧ cbSign v.cb = neg ∧ cbSpecial v.cb = 0 ∧ cbSignals v.cb = 0 ∧
        v.cb.extractLsb' 27 11 = 0x0D4 ∧ cbReserved v.cb = 0)

/-- DMOV copies a decimal register bit for bit, DCOEF reads its coefficient and DCB its control block; none of them checks the
control block (R295 to R297, R342). DCTX of a well-formed operand replaces the rounding mode and the trap mask, keeps every
other bit of the register, and traps nothing (R291). -/
def Obligations.DecimalRegisterMoves : Prop :=
  ∀ (rd : BitVec 4) (rs1 : DIdx) (rm : RoundMode) (traps : BitVec 8) (s : State) (w : DecWord), s.wf →
    s.readD rs1 = .ok w →
    (∃ t, exec (.dmov rd rs1) s = .next t ∧ t.keepsAllButD s rd ∧ t.readD rd = .ok w) ∧
    writesValue (.dcoef rd rs1) s rd (uval w.coef) ∧ writesValue (.dcb rd rs1) s rd w.cb.toNat ∧
    (cbWellFormed w.cb = true →
      ∃ t v, exec (.dctx rd rs1 rm traps) s = .next t ∧ t.keepsAllButD s rd ∧ t.readD rd = .ok v ∧ v.coef = w.coef ∧
        cbRm v.cb = rm ∧ cbTraps v.cb = traps ∧ cbScale v.cb = cbScale w.cb ∧ cbSign v.cb = cbSign w.cb ∧
        cbSpecial v.cb = cbSpecial w.cb ∧ cbSignals v.cb = cbSignals w.cb ∧ cbReserved v.cb = cbReserved w.cb)

/-- DROUND of a finite value normalizes it with `max(0, s - t)` digits to drop, under its own context; DTRUNC drops those digits
without rounding and without a signal, and normalizes what is left; an Infinity keeps its sign, and nothing is raised for it
(R298, R299). -/
def Obligations.DroundAndDtruncReachScale : Prop :=
  ∀ (rd rs1 : DIdx) (t : BitVec 16) (s : State) (w : DecWord) (v : DecOperand) (k : Nat), s.wf →
    s.readD rs1 = .ok w → readDec w = .ok v → (k : Int) = max 0 (-v.exp - t.toInt) →
    (v.kind = .finite →
      finishesDecimal (.dround rd rs1 t) s rd (normOf s.cfg v.coef v.neg v.exp v.ctx.rm k) v.signals v.ctx ∧
      finishesDecimal (.dtrunc rd rs1 t) s rd (normOf s.cfg (v.coef / 10 ^ k) v.neg (v.exp + k) v.ctx.rm 0)
        v.signals v.ctx) ∧
    (v.kind = .inf →
      finishesDecimal (.dround rd rs1 t) s rd { kind := .inf, coef := 0, neg := v.neg, exp := 0, new := 0 }
        v.signals v.ctx ∧
      finishesDecimal (.dtrunc rd rs1 t) s rd { kind := .inf, coef := 0, neg := v.neg, exp := 0, new := 0 }
        v.signals v.ctx)

/-! ### Decimal arithmetic (R310 to R315) -/

/-- The alignment loop (R311): it stops at the largest scale difference at which the operand of smaller scale fits, at 0 if at
none; each turn dropped one digit of the other operand by the rounding mode; Rounded is raised when a turn was taken, Inexact
when a turn dropped a nonzero digit, and nothing else. -/
def Obligations.AlignmentDropsDigitByDigit : Prop :=
  ∀ (lim : Nat) (rm : RoundMode) (neg : Bool) (lo diff hi : Nat),
    let al := alignLoop lim rm neg lo diff hi 0
    let after := fun i => (fun c => roundDiv c 1 neg rm)^[i] hi
    al.diff ≤ diff ∧ (al.diff = 0 ∨ lo * 10 ^ al.diff ≤ lim) ∧
      (∀ d, al.diff < d → d ≤ diff → lim < lo * 10 ^ d) ∧
      al.coef = after (diff - al.diff) ∧
      (al.new.has .rounded = true ↔ al.diff < diff) ∧
      (al.new.has .inexact = true ↔ ∃ i, i < diff - al.diff ∧ after i % 10 ≠ 0) ∧
      ∀ g, g ≠ .rounded → g ≠ .inexact → al.new.has g = false

/-- DADD and DSUB of two finite operands (R312 to R314): DSUB inverts the sign of its second operand; the operand of larger scale,
`rs1`'s when they are equal, is the one the alignment rounds; the magnitudes combine by their signs, an exact zero of opposite
signs is plus, or minus under Floor; the normalizer's signals join the alignment's; the context is that of `rs1`. -/
def Obligations.DaddDsubOfFiniteOperands : Prop :=
  ∀ (rd rs1 rs2 : DIdx) (s : State) (u w : DecWord) (a b : DecOperand) (flip : Bool), s.wf →
    s.readD rs1 = .ok u → s.readD rs2 = .ok w → readDec u = .ok a → readDec w = .ok b →
    a.kind = .finite → b.kind = .finite →
    let gb := xor flip b.neg
    let aIsHi := decide (a.exp ≤ b.exp)
    let al := if aIsHi then alignLoop (maxU s.cfg.n) a.ctx.rm a.neg b.coef (b.exp - a.exp).toNat a.coef 0
      else alignLoop (maxU s.cfg.n) a.ctx.rm gb a.coef (a.exp - b.exp).toNat b.coef 0
    let e := (if aIsHi then b.exp else a.exp) - al.diff
    let ma := if aIsHi then al.coef else a.coef * 10 ^ al.diff
    let mb := if aIsHi then b.coef * 10 ^ al.diff else al.coef
    let m := if a.neg = gb then ma + mb else (ma - mb) + (mb - ma)
    let g := if a.neg = gb then a.neg else if mb < ma then a.neg else if ma < mb then gb else decide (a.ctx.rm = .floor)
    let r := normOf s.cfg m g e a.ctx.rm 0
    finishesDecimal (if flip then .dsub rd rs1 rs2 else .dadd rd rs1 rs2) s rd { r with new := al.new ||| r.new }
      (a.signals ||| b.signals) a.ctx

/-- DMUL of two finite operands normalizes the exact product of the coefficients, at the sum of the exponents, with the sign
`ga xor gb`, under the context of `rs1` (R315). -/
def Obligations.DmulOfFiniteOperands : Prop :=
  ∀ (rd rs1 rs2 : DIdx) (s : State) (u w : DecWord) (a b : DecOperand), s.wf →
    s.readD rs1 = .ok u → s.readD rs2 = .ok w → readDec u = .ok a → readDec w = .ok b →
    a.kind = .finite → b.kind = .finite →
    finishesDecimal (.dmul rd rs1 rs2) s rd
      (normOf s.cfg (a.coef * b.coef) (xor a.neg b.neg) (a.exp + b.exp) a.ctx.rm 0) (a.signals ||| b.signals) a.ctx

/-- The special-value tables of DADD, DSUB and DMUL (R310), for operands that are no NaN and not both finite: the result is an
Infinity with the sign of the table and no new signal, or NaN with Invalid for opposite Infinities and for zero times
Infinity. The sign of the second operand is the one after DSUB's flip (R314). -/
def Obligations.InfinityTables : Prop :=
  ∀ (rd rs1 rs2 : DIdx) (s : State) (u w : DecWord) (a b : DecOperand) (flip : Bool), s.wf →
    s.readD rs1 = .ok u → s.readD rs2 = .ok w → readDec u = .ok a → readDec w = .ok b →
    a.kind ≠ .nan → b.kind ≠ .nan → (a.kind = .inf ∨ b.kind = .inf) →
    let gb := xor flip b.neg
    let inf := fun g => ({ kind := .inf, coef := 0, neg := g, exp := 0, new := 0 } : NormResult)
    let invalid := ({ kind := .nan, coef := 0, neg := false, exp := 0, new := single .invalid } : NormResult)
    finishesDecimal (if flip then .dsub rd rs1 rs2 else .dadd rd rs1 rs2) s rd
      (if a.kind = .inf ∧ b.kind = .inf ∧ a.neg ≠ gb then invalid
       else if a.kind = .inf then inf a.neg else inf gb)
      (a.signals ||| b.signals) a.ctx ∧
    finishesDecimal (.dmul rd rs1 rs2) s rd
      (if (a.kind = .finite ∧ a.coef = 0) ∨ (b.kind = .finite ∧ b.coef = 0) then invalid else inf (xor a.neg b.neg))
      (a.signals ||| b.signals) a.ctx

/-- NaN is absorbing (R274, R276): with a NaN operand, DROUND, DTRUNC, DADD, DSUB and DMUL complete with the canonical NaN, the
operands' signals and no new one; no trap and no Strict check stops them. -/
def Obligations.NanIsAbsorbing : Prop :=
  ∀ (rd rs1 rs2 : DIdx) (t16 : BitVec 16) (s : State) (u w : DecWord) (a b : DecOperand) (i : Instr), s.wf →
    s.readD rs1 = .ok u → s.readD rs2 = .ok w → readDec u = .ok a → readDec w = .ok b →
    (a.kind = .nan ∧ b = a ∧ (i = .dround rd rs1 t16 ∨ i = .dtrunc rd rs1 t16)) ∨
      ((a.kind = .nan ∨ b.kind = .nan) ∧ (i = .dadd rd rs1 rs2 ∨ i = .dsub rd rs1 rs2 ∨ i = .dmul rd rs1 rs2)) →
    ∃ t v, exec i s = .next t ∧ t.keepsAllButD s rd ∧ t.readD rd = .ok v ∧ uval v.coef = 0 ∧ cbScale v.cb = 0 ∧
      cbSign v.cb = false ∧ cbSpecial v.cb = 1 ∧ cbSignals v.cb = a.signals ||| b.signals ∧ cbContext v.cb = a.ctx ∧
      cbReserved v.cb = 0

/-- A decimal command that reads a malformed control block as an arithmetic operand aborts with RESERVED_OPERAND (R35, R260,
R342): `special` is 11, or a reserved bit is set. -/
def Obligations.MalformedOperandAborts : Prop :=
  ∀ (rd rs1 rs2 : DIdx) (rm : RoundMode) (traps : BitVec 8) (t : BitVec 16) (s : State) (u w : DecWord), s.wf →
    s.readD rs1 = .ok u → s.readD rs2 = .ok w →
    (cbSpecial u.cb = 3 ∨ cbReserved u.cb ≠ 0 →
      abortsWith (.dctx rd rs1 rm traps) s .reservedOperand ∧ abortsWith (.dround rd rs1 t) s .reservedOperand ∧
      abortsWith (.dtrunc rd rs1 t) s .reservedOperand) ∧
    (cbSpecial u.cb = 3 ∨ cbReserved u.cb ≠ 0 ∨ cbSpecial w.cb = 3 ∨ cbReserved w.cb ≠ 0 →
      abortsWith (.dadd rd rs1 rs2) s .reservedOperand ∧ abortsWith (.dsub rd rs1 rs2) s .reservedOperand ∧
      abortsWith (.dmul rd rs1 rs2) s .reservedOperand)

/-- A sum that raises no Inexact is exact: its value is the sum of the operands' values; and a product's is the product exactly
when it raises no Inexact (R39, R311 to R315). -/
def Obligations.ArithmeticIsExactUnlessInexact : Prop :=
  ∀ (p : Params) (a b : DecOperand), p.legal → a.kind = .finite → b.kind = .finite →
    (let r := addResult p a b
     r.new.has .inexact = false →
      r.kind = .finite ∧
        finiteValue r.coef r.neg r.exp = finiteValue a.coef a.neg a.exp + finiteValue b.coef b.neg b.exp) ∧
    (let r := addResult p a (negateOperand b)
     r.new.has .inexact = false →
      r.kind = .finite ∧
        finiteValue r.coef r.neg r.exp = finiteValue a.coef a.neg a.exp - finiteValue b.coef b.neg b.exp) ∧
    (let r := mulResult p a b
     r.new.has .inexact = false ↔
      r.kind = .finite ∧
        finiteValue r.coef r.neg r.exp = finiteValue a.coef a.neg a.exp * finiteValue b.coef b.neg b.exp)

/-! ### The informative algorithms and the assembler (R115 to R118, R171, R205, R206) -/

/-- The comparator's limb procedure gives the comparison of the readings, for every input (R170, R171). -/
def Obligations.ComparatorLimbProcedureAgrees : Prop :=
  ∀ (n : Nat) (sgn : Bool) (a b : LimbArray), 1 ≤ n → a.length = n → b.length = n →
    compareLimbs n sgn a b = compareReadings (reading n sgn a) (reading n sgn b)

/-- The 128-by-64 fast divider gives the exact quotient and remainder wherever its precondition holds, and so does the division by
one limb that runs it from the top limb down (R200, R205, R206). -/
def Obligations.EngineDividersAreExact : Prop :=
  (∀ hi lo v : Nat, hi < v → v < 2 ^ 64 → lo < 2 ^ 64 →
    divWide hi lo v = ((hi * 2 ^ 64 + lo) / v, (hi * 2 ^ 64 + lo) % v)) ∧
  ∀ (u : LimbArray) (v : Nat), 0 < v → v < 2 ^ 64 →
    (divDigit u v).1.length = u.length ∧ uval (divDigit u v).1 = uval u / v ∧ (divDigit u v).2 = uval u % v

/-- Two different commands have different assembly, so that a line names one command (R115 to R117). -/
def Obligations.AssemblyNamesOneCommand : Prop :=
  ∀ i j : Instr, assemblyOf i = assemblyOf j → i = j

/-! ### Repeated accesses (R85) -/

/-- No read has a side effect and every read is idempotent (R85): the read changes the host's read data alone, and the same read
again returns the same word, written or not. A write of a word to a register word is idempotent: the same write again
changes nothing. -/
def Obligations.ReadsAndRegisterWritesAreIdempotent : Prop :=
  ∀ (s : State) (off : BitVec 16) (rest : List HostAccess), s.wf →
    (s.port = .read off :: .read off :: rest →
      ∃ v, Sys2Proof.Machine.step s = .next { s with port := .read off :: rest, readData := v } ∧
        Sys2Proof.Machine.step { s with port := .read off :: rest, readData := v } =
          .next { s with port := rest, readData := v }) ∧
    (∀ v, registerOffset s.cfg.n off → s.port = .write off v :: .write off v :: rest →
      ∃ t, Sys2Proof.Machine.step s = .next t ∧ Sys2Proof.Machine.step t = .next { t with port := rest })
end

