-- ==== Sys2Proof/Laws/Bits.lean ====
section
/-! SUPPORT. Fields placed in a word and taken out again: what `place` and `extractLsb'` do together. -/

namespace Sys2Proof

theorem getLsbD_place {k w : Nat} (lo : Nat) (v : BitVec k) (i : Nat) :
    (place lo v : BitVec w).getLsbD i = (decide (i < w) && decide (lo ≤ i) && v.getLsbD (i - lo)) := by
  simp only [place, BitVec.getLsbD_shiftLeft, BitVec.getLsbD_setWidth]
  by_cases h1 : i < w
  · have h3 : i - lo < w := by omega
    by_cases h2 : lo ≤ i
    · simp [h1, h2, h3]
    · simp [h2, show i < lo by omega]
  · simp [h1]

/-- A field taken from where it was placed. -/
theorem extract_place_self {k w : Nat} {lo : Nat} (v : BitVec k) (h : lo + k ≤ w) :
    (place lo v : BitVec w).extractLsb' lo k = v := by
  apply BitVec.eq_of_getLsbD_eq
  intro i hi
  rw [BitVec.getLsbD_extractLsb', getLsbD_place]
  have h1 : lo + i < w := by omega
  simp [hi, h1]

/-- A field placed above the bits taken does not show. -/
theorem extract_place_above {k w : Nat} {lo a b : Nat} (v : BitVec k) (h : a + b ≤ lo) :
    (place lo v : BitVec w).extractLsb' a b = 0 := by
  apply BitVec.eq_of_getLsbD_eq
  intro i hi
  rw [BitVec.getLsbD_extractLsb', getLsbD_place]
  have h1 : ¬ lo ≤ a + i := by omega
  simp [h1]

/-- A field placed below the bits taken does not show. -/
theorem extract_place_below {k w : Nat} {lo a b : Nat} (v : BitVec k) (h : lo + k ≤ a) :
    (place lo v : BitVec w).extractLsb' a b = 0 := by
  apply BitVec.eq_of_getLsbD_eq
  intro i hi
  rw [BitVec.getLsbD_extractLsb', getLsbD_place]
  rw [BitVec.getLsbD_of_ge v (a + i - lo) (by omega)]
  simp

theorem extract_or {w : Nat} (x y : BitVec w) (a b : Nat) :
    (x ||| y).extractLsb' a b = x.extractLsb' a b ||| y.extractLsb' a b := by
  apply BitVec.eq_of_getLsbD_eq
  intro i hi
  simp [hi]

/-- A mask that covers none of a field clears it. -/
theorem place_and_clear {k w : Nat} {lo : Nat} (v : BitVec k) (mask : BitVec w) (h : mask.extractLsb' lo k = 0) :
    place lo v &&& mask = 0 := by
  apply BitVec.eq_of_getLsbD_eq
  intro i hi
  rw [BitVec.getLsbD_and, getLsbD_place]
  by_cases h2 : lo ≤ i ∧ i - lo < k
  · have := congrArg (fun b => b.getLsbD (i - lo)) h
    simp only [BitVec.getLsbD_extractLsb', show lo + (i - lo) = i by omega, h2.2, decide_true, Bool.true_and] at this
    simp [this]
  · by_cases h3 : lo ≤ i
    · rw [BitVec.getLsbD_of_ge v (i - lo) (by omega)]
      simp
    · simp [h3]

/-- A mask that covers a whole field keeps it. -/
theorem place_and_keep {k w : Nat} {lo : Nat} (v : BitVec k) (mask : BitVec w)
    (h : mask.extractLsb' lo k = BitVec.allOnes k) : place lo v &&& mask = place lo v := by
  apply BitVec.eq_of_getLsbD_eq
  intro i hi
  rw [BitVec.getLsbD_and, getLsbD_place]
  by_cases h2 : lo ≤ i ∧ i - lo < k
  · have := congrArg (fun b => b.getLsbD (i - lo)) h
    simp only [BitVec.getLsbD_extractLsb', show lo + (i - lo) = i by omega, h2.2, decide_true, Bool.true_and,
      BitVec.getLsbD_allOnes] at this
    simp [this]
  · by_cases h3 : lo ≤ i
    · rw [BitVec.getLsbD_of_ge v (i - lo) (by omega)]
      simp
    · simp [h3]

theorem or_and_distrib {w : Nat} (x y mask : BitVec w) : (x ||| y) &&& mask = (x &&& mask) ||| (y &&& mask) := by
  apply BitVec.eq_of_getLsbD_eq
  intro i hi
  simp [Bool.and_or_distrib_right, hi]

/-- A single bit of a word as the one-bit field there. -/
theorem getLsbD_eq_extract {w : Nat} (x : BitVec w) (a : Nat) : x.getLsbD a = (x.extractLsb' a 1).getLsbD 0 := by
  simp

@[simp] theorem getLsbD_bit (b : Bool) : (bit b).getLsbD 0 = b := by cases b <;> rfl

theorem bit_false : bit false = 0 := rfl

theorem Mode.code_wrapping : Mode.wrapping.code = 0 := rfl

@[simp] theorem Mode.ofCode_code (m : Mode) : Mode.ofCode m.code = some m := by cases m <;> rfl

@[simp] theorem RoundMode.ofCode_code (m : RoundMode) : RoundMode.ofCode m.code = m := by cases m <;> rfl

theorem RoundMode.code_ofCode (c : BitVec 3) : (RoundMode.ofCode c).code = c := by
  revert c
  decide

theorem Mode.code_of_ofCode {c : BitVec 3} {m : Mode} : Mode.ofCode c = some m → m.code = c := by
  revert c m
  decide +revert

end Sys2Proof
end

