-- ==== Sys2Proof/Laws/Encoding.lean ====
section
/-! SUPPORT. The fields of an encoded word, once each. -/

namespace Sys2Proof

@[simp] theorem fieldOp_encodeR (op : BitVec 6) (rd a b rd2 : BitVec 4) (m : Mode) (s : Bool) :
    fieldOp (encodeR op rd a b rd2 m s) = op := by
  simp [fieldOp, encodeR, extract_or, extract_place_self, extract_place_below]

@[simp] theorem fieldRd_encodeR (op : BitVec 6) (rd a b rd2 : BitVec 4) (m : Mode) (s : Bool) :
    fieldRd (encodeR op rd a b rd2 m s) = rd := by
  simp [fieldRd, encodeR, extract_or, extract_place_self, extract_place_above, extract_place_below]

@[simp] theorem fieldRs1_encodeR (op : BitVec 6) (rd a b rd2 : BitVec 4) (m : Mode) (s : Bool) :
    fieldRs1 (encodeR op rd a b rd2 m s) = a := by
  simp [fieldRs1, encodeR, extract_or, extract_place_self, extract_place_above, extract_place_below]

@[simp] theorem fieldRs2_encodeR (op : BitVec 6) (rd a b rd2 : BitVec 4) (m : Mode) (s : Bool) :
    fieldRs2 (encodeR op rd a b rd2 m s) = b := by
  simp [fieldRs2, encodeR, extract_or, extract_place_self, extract_place_above, extract_place_below]

@[simp] theorem fieldRd2_encodeR (op : BitVec 6) (rd a b rd2 : BitVec 4) (m : Mode) (s : Bool) :
    fieldRd2 (encodeR op rd a b rd2 m s) = rd2 := by
  simp [fieldRd2, encodeR, extract_or, extract_place_self, extract_place_above, extract_place_below]

@[simp] theorem fieldMode_encodeR (op : BitVec 6) (rd a b rd2 : BitVec 4) (m : Mode) (s : Bool) :
    fieldMode (encodeR op rd a b rd2 m s) = m.code := by
  simp [fieldMode, encodeR, extract_or, extract_place_self, extract_place_above, extract_place_below]

@[simp] theorem fieldS_encodeR (op : BitVec 6) (rd a b rd2 : BitVec 4) (m : Mode) (s : Bool) :
    fieldS (encodeR op rd a b rd2 m s) = s := by
  rw [fieldS, getLsbD_eq_extract]
  simp [encodeR, extract_or, extract_place_self, extract_place_above, -BitVec.getLsbD_eq_getElem]

@[simp] theorem fieldOp_encodeI (op : BitVec 6) (rd a : BitVec 4) (f2 : BitVec 2) (imm : BitVec 16) :
    fieldOp (encodeI op rd a f2 imm) = op := by
  simp [fieldOp, encodeI, extract_or, extract_place_self, extract_place_below]

@[simp] theorem fieldRd_encodeI (op : BitVec 6) (rd a : BitVec 4) (f2 : BitVec 2) (imm : BitVec 16) :
    fieldRd (encodeI op rd a f2 imm) = rd := by
  simp [fieldRd, encodeI, extract_or, extract_place_self, extract_place_above, extract_place_below]

@[simp] theorem fieldRs1_encodeI (op : BitVec 6) (rd a : BitVec 4) (f2 : BitVec 2) (imm : BitVec 16) :
    fieldRs1 (encodeI op rd a f2 imm) = a := by
  simp [fieldRs1, encodeI, extract_or, extract_place_self, extract_place_above, extract_place_below]

@[simp] theorem fieldImm_encodeI (op : BitVec 6) (rd a : BitVec 4) (f2 : BitVec 2) (imm : BitVec 16) :
    fieldImm (encodeI op rd a f2 imm) = imm := by
  simp [fieldImm, encodeI, extract_or, extract_place_self, extract_place_above]

@[simp] theorem fieldSign_encodeI (op : BitVec 6) (rd a : BitVec 4) (neg : Bool) (imm : BitVec 16) :
    fieldSign (encodeI op rd a (place 0 (bit neg)) imm) = neg := by
  rw [fieldSign]
  cases neg <;> simp only [encodeI, BitVec.getLsbD_or, getLsbD_place] <;> simp [bit]

@[simp] theorem fieldCtxTraps_encodeI (op : BitVec 6) (rd a : BitVec 4) (f2 : BitVec 2) (rm : RoundMode)
    (traps : BitVec 8) : fieldCtxTraps (encodeI op rd a f2 (contextImm rm traps)) = traps := by
  apply BitVec.eq_of_getLsbD_eq
  intro i hi
  simp only [fieldCtxTraps, encodeI, contextImm, BitVec.getLsbD_extractLsb', BitVec.getLsbD_or, getLsbD_place]
  interval_cases i <;> simp [BitVec.getLsbD_of_ge]

@[simp] theorem fieldCtxMode_encodeI (op : BitVec 6) (rd a : BitVec 4) (f2 : BitVec 2) (rm : RoundMode)
    (traps : BitVec 8) : fieldCtxMode (encodeI op rd a f2 (contextImm rm traps)) = rm := by
  have h : (encodeI op rd a f2 (contextImm rm traps)).extractLsb' 0 3 = rm.code := by
    apply BitVec.eq_of_getLsbD_eq
    intro i hi
    simp only [encodeI, contextImm, BitVec.getLsbD_extractLsb', BitVec.getLsbD_or, getLsbD_place]
    interval_cases i <;> simp
  rw [fieldCtxMode, h, RoundMode.ofCode_code]

end Sys2Proof
end

