-- ==== Sys2Proof/Laws/Operands.lean ====
section
/-! SUPPORT. The readings of limb arrays: what `limbsOf`, `uval`, `sval` and `pat` do, so that no proof unfolds them. -/

namespace Sys2Proof.Machine

theorem modulus_pos (n : Nat) : 0 < modulus n := Nat.pos_of_ne_zero (by simp [modulus])

theorem modulus_succ (n : Nat) : modulus (n + 1) = 2 ^ 64 * modulus n := by
  simp only [modulus, width]
  rw [← Nat.pow_add]
  congr 1
  omega

@[simp] theorem modulus_zero : modulus 0 = 1 := rfl

theorem maxU_succ (n : Nat) : maxU n + 1 = modulus n := by
  have := modulus_pos n
  simp only [maxU]
  omega

/-- `MAXU` is the largest value below `2^(64N)`. -/
theorem le_maxU_iff (n v : Nat) : v ≤ maxU n ↔ v < modulus n := by
  have := maxU_succ n
  omega

theorem lt_of_maxU_lt (n v : Nat) : maxU n < v ↔ modulus n ≤ v := by
  have := maxU_succ n
  omega

/-- For a block of at least one limb, the modulus is twice the bound of the signed range. -/
theorem modulus_eq_twice {n : Nat} (h : 1 ≤ n) : modulus n = 2 * 2 ^ (width n - 1) := by
  have hw : width n = width n - 1 + 1 := by simp only [width]; omega
  rw [modulus]
  conv_lhs => rw [hw]
  rw [Nat.pow_succ]
  omega

@[simp] theorem length_limbsOf (n v : Nat) : (limbsOf n v).length = n := by
  induction n generalizing v with
  | zero => rfl
  | succ n ih => simp [limbsOf, ih]

/-- Writing a natural as `n` limbs and reading it back keeps its low `64n` bits. -/
theorem uval_limbsOf (n v : Nat) : uval (limbsOf n v) = v % modulus n := by
  induction n generalizing v with
  | zero => simp [limbsOf, uval, Nat.mod_one]
  | succ n ih =>
    simp only [limbsOf, uval, ih, BitVec.toNat_ofNat, modulus_succ]
    rw [Nat.mod_mul]

theorem uval_limbsOf_of_lt {n v : Nat} (h : v < modulus n) : uval (limbsOf n v) = v := by
  rw [uval_limbsOf, Nat.mod_eq_of_lt h]

/-- A limb array is below `2^(64 * its length)`. -/
theorem uval_lt (a : LimbArray) : uval a < modulus a.length := by
  induction a with
  | nil => simp [uval]
  | cons w ws ih =>
    have hw := w.isLt
    simp only [uval, List.length_cons, modulus_succ]
    have : uval ws + 1 ≤ modulus ws.length := ih
    calc w.toNat + 2 ^ 64 * uval ws < 2 ^ 64 + 2 ^ 64 * uval ws := by omega
      _ = 2 ^ 64 * (uval ws + 1) := by omega
      _ ≤ 2 ^ 64 * modulus ws.length := Nat.mul_le_mul_left _ this

theorem uval_lt_of_length {a : LimbArray} {n : Nat} (h : a.length = n) : uval a < modulus n := h ▸ uval_lt a

/-- The limbs of a limb array's own value are the limb array. -/
theorem limbsOf_uval (a : LimbArray) : limbsOf a.length (uval a) = a := by
  induction a with
  | nil => rfl
  | cons w ws ih =>
    have hw := w.isLt
    simp only [List.length_cons, limbsOf, uval]
    have h1 : (w.toNat + 2 ^ 64 * uval ws) / 2 ^ 64 = uval ws := by omega
    have h2 : BitVec.ofNat 64 (w.toNat + 2 ^ 64 * uval ws) = w := by
      apply BitVec.eq_of_toNat_eq
      rw [BitVec.toNat_ofNat]
      omega
    rw [h1, h2, ih]

/-- Two limb arrays of one length with one value are equal. -/
theorem eq_of_uval_eq {a b : LimbArray} (hl : a.length = b.length) (h : uval a = uval b) : a = b := by
  rw [← limbsOf_uval a, ← limbsOf_uval b, hl, h]

@[simp] theorem length_pat (n : Nat) (v : Int) : (pat n v).length = n := by simp [pat]

/-- The value of a pattern: the residue modulo `2^(64N)`. -/
theorem uval_pat (n : Nat) (v : Int) : (uval (pat n v) : Int) = v % modulus n := by
  have hp : (0 : Int) < modulus n := by exact_mod_cast modulus_pos n
  have h0 := Int.emod_nonneg v hp.ne'
  have h1 := Int.emod_lt_of_pos v hp
  rw [pat, uval_limbsOf, Nat.mod_eq_of_lt (by omega), Int.toNat_of_nonneg h0]

@[simp] theorem length_zext (n v : Nat) : (zext n v).length = n := by simp [zext]

theorem uval_zext (n v : Nat) : uval (zext n v) = v % modulus n := uval_limbsOf n v

@[simp] theorem length_patMaxU (n : Nat) : (patMaxU n).length = n := by simp [patMaxU]

theorem uval_patMaxU (n : Nat) : uval (patMaxU n) = maxU n :=
  uval_limbsOf_of_lt ((le_maxU_iff n _).1 (Nat.le_refl _))

/-- The top bit of an N-limb value says that it is at least `2^(64N-1)`. -/
theorem testBit_top_iff {n v : Nat} (hn : 1 ≤ n) (hv : v < modulus n) :
    v.testBit (width n - 1) = true ↔ 2 ^ (width n - 1) ≤ v := by
  rw [modulus_eq_twice hn] at hv
  rw [Nat.testBit_eq_decide_div_mod_eq]
  simp only [decide_eq_true_eq]
  have hp : 0 < 2 ^ (width n - 1) := Nat.two_pow_pos _
  constructor
  · intro h
    by_contra hlt
    rw [Nat.div_eq_of_lt (by omega)] at h
    omega
  · intro h
    have : v / 2 ^ (width n - 1) = 1 := by
      apply Nat.div_eq_of_lt_le <;> omega
    rw [this]

/-- The BigInt reading by comparison (R12). -/
theorem sval_eq {n : Nat} {a : LimbArray} (hn : 1 ≤ n) (ha : a.length = n) :
    sval n a = if 2 ^ (width n - 1) ≤ uval a then (uval a : Int) - modulus n else uval a := by
  have h := testBit_top_iff hn (uval_lt_of_length ha)
  simp only [sval]
  by_cases hb : 2 ^ (width n - 1) ≤ uval a
  · rw [if_pos (h.2 hb), if_pos hb]
  · rw [if_neg (fun hc => hb (h.1 hc)), if_neg hb]

/-- The BigInt reading lies in `MINS..MAXS` (R9, R12). -/
theorem sval_range {n : Nat} {a : LimbArray} (hn : 1 ≤ n) (ha : a.length = n) :
    minS n ≤ sval n a ∧ sval n a ≤ maxS n := by
  have hu := uval_lt_of_length ha
  have hm := modulus_eq_twice hn
  have hp : 0 < 2 ^ (width n - 1) := Nat.two_pow_pos _
  rw [sval_eq hn ha, minS, maxS]
  have hc : ((2 : Int) ^ (width n - 1)) = ((2 ^ (width n - 1) : Nat) : Int) := by push_cast; rfl
  rw [hc]
  split <;> omega

/-- The two readings agree modulo `2^(64N)` (R12). -/
theorem sval_emod {n : Nat} {a : LimbArray} (hn : 1 ≤ n) (ha : a.length = n) :
    sval n a % (modulus n : Int) = uval a := by
  have hu := uval_lt_of_length ha
  rw [sval_eq hn ha]
  split
  · rw [Int.sub_emod_right]
    exact Int.emod_eq_of_lt (by omega) (by omega)
  · exact Int.emod_eq_of_lt (by omega) (by omega)

end Sys2Proof.Machine
end

