-- ==== Sys2Proof/Laws/State.lean ====
section
/-! SUPPORT. One lemma per field of State per update, true by rfl, so that no proof unfolds a record update. -/

namespace Sys2Proof.Machine

/-! ### `setXSlots` -/

@[simp] theorem State.setXSlots_cfg (s : State) (r : XIdx) (v : List Slot) : (s.setXSlots r v).cfg = s.cfg := rfl
@[simp] theorem State.setXSlots_x (s : State) (r : XIdx) (v : List Slot) : (s.setXSlots r v).x = s.x.set r.toNat v r.isLt := rfl
@[simp] theorem State.setXSlots_d (s : State) (r : XIdx) (v : List Slot) : (s.setXSlots r v).d = s.d := rfl
@[simp] theorem State.setXSlots_flags (s : State) (r : XIdx) (v : List Slot) : (s.setXSlots r v).flags = s.flags := rfl
@[simp] theorem State.setXSlots_status (s : State) (r : XIdx) (v : List Slot) : (s.setXSlots r v).status = s.status := rfl
@[simp] theorem State.setXSlots_abortCmd (s : State) (r : XIdx) (v : List Slot) : (s.setXSlots r v).abortCmd = s.abortCmd := rfl
@[simp] theorem State.setXSlots_port (s : State) (r : XIdx) (v : List Slot) : (s.setXSlots r v).port = s.port := rfl
@[simp] theorem State.setXSlots_readData (s : State) (r : XIdx) (v : List Slot) : (s.setXSlots r v).readData = s.readData := rfl
@[simp] theorem State.setXSlots_resets (s : State) (r : XIdx) (v : List Slot) : (s.setXSlots r v).resets = s.resets := rfl

/-! ### `setDSlots` -/

@[simp] theorem State.setDSlots_cfg (s : State) (r : DIdx) (v : DecReg) : (s.setDSlots r v).cfg = s.cfg := rfl
@[simp] theorem State.setDSlots_x (s : State) (r : DIdx) (v : DecReg) : (s.setDSlots r v).x = s.x := rfl
@[simp] theorem State.setDSlots_d (s : State) (r : DIdx) (v : DecReg) : (s.setDSlots r v).d = s.d.set r.toNat v r.isLt := rfl
@[simp] theorem State.setDSlots_flags (s : State) (r : DIdx) (v : DecReg) : (s.setDSlots r v).flags = s.flags := rfl
@[simp] theorem State.setDSlots_status (s : State) (r : DIdx) (v : DecReg) : (s.setDSlots r v).status = s.status := rfl
@[simp] theorem State.setDSlots_abortCmd (s : State) (r : DIdx) (v : DecReg) : (s.setDSlots r v).abortCmd = s.abortCmd := rfl
@[simp] theorem State.setDSlots_port (s : State) (r : DIdx) (v : DecReg) : (s.setDSlots r v).port = s.port := rfl
@[simp] theorem State.setDSlots_readData (s : State) (r : DIdx) (v : DecReg) : (s.setDSlots r v).readData = s.readData := rfl
@[simp] theorem State.setDSlots_resets (s : State) (r : DIdx) (v : DecReg) : (s.setDSlots r v).resets = s.resets := rfl

/-! ### `writeX` -/

@[simp] theorem State.writeX_cfg (s : State) (r : XIdx) (a : LimbArray) : (s.writeX r a).cfg = s.cfg := rfl
@[simp] theorem State.writeX_x (s : State) (r : XIdx) (a : LimbArray) : (s.writeX r a).x = s.x.set r.toNat (markedSlots a) r.isLt := rfl
@[simp] theorem State.writeX_d (s : State) (r : XIdx) (a : LimbArray) : (s.writeX r a).d = s.d := rfl
@[simp] theorem State.writeX_flags (s : State) (r : XIdx) (a : LimbArray) : (s.writeX r a).flags = s.flags := rfl
@[simp] theorem State.writeX_status (s : State) (r : XIdx) (a : LimbArray) : (s.writeX r a).status = s.status := rfl
@[simp] theorem State.writeX_abortCmd (s : State) (r : XIdx) (a : LimbArray) : (s.writeX r a).abortCmd = s.abortCmd := rfl
@[simp] theorem State.writeX_port (s : State) (r : XIdx) (a : LimbArray) : (s.writeX r a).port = s.port := rfl
@[simp] theorem State.writeX_readData (s : State) (r : XIdx) (a : LimbArray) : (s.writeX r a).readData = s.readData := rfl
@[simp] theorem State.writeX_resets (s : State) (r : XIdx) (a : LimbArray) : (s.writeX r a).resets = s.resets := rfl

/-! ### `writeD` -/

@[simp] theorem State.writeD_cfg (s : State) (r : DIdx) (v : DecWord) : (s.writeD r v).cfg = s.cfg := rfl
@[simp] theorem State.writeD_x (s : State) (r : DIdx) (v : DecWord) : (s.writeD r v).x = s.x := rfl
@[simp] theorem State.writeD_d (s : State) (r : DIdx) (v : DecWord) : (s.writeD r v).d = s.d.set r.toNat ⟨markedSlots v.coef, ⟨v.cb, true⟩⟩ r.isLt := rfl
@[simp] theorem State.writeD_flags (s : State) (r : DIdx) (v : DecWord) : (s.writeD r v).flags = s.flags := rfl
@[simp] theorem State.writeD_status (s : State) (r : DIdx) (v : DecWord) : (s.writeD r v).status = s.status := rfl
@[simp] theorem State.writeD_abortCmd (s : State) (r : DIdx) (v : DecWord) : (s.writeD r v).abortCmd = s.abortCmd := rfl
@[simp] theorem State.writeD_port (s : State) (r : DIdx) (v : DecWord) : (s.writeD r v).port = s.port := rfl
@[simp] theorem State.writeD_readData (s : State) (r : DIdx) (v : DecWord) : (s.writeD r v).readData = s.readData := rfl
@[simp] theorem State.writeD_resets (s : State) (r : DIdx) (v : DecWord) : (s.writeD r v).resets = s.resets := rfl

/-! ### `takeAbort` -/

@[simp] theorem State.takeAbort_cfg (s : State) (c : Cause) (w : CmdWord) : (s.takeAbort c w).cfg = s.cfg := rfl
@[simp] theorem State.takeAbort_x (s : State) (c : Cause) (w : CmdWord) : (s.takeAbort c w).x = s.x := rfl
@[simp] theorem State.takeAbort_d (s : State) (c : Cause) (w : CmdWord) : (s.takeAbort c w).d = s.d := rfl
@[simp] theorem State.takeAbort_flags (s : State) (c : Cause) (w : CmdWord) : (s.takeAbort c w).flags = s.flags := rfl
@[simp] theorem State.takeAbort_status (s : State) (c : Cause) (w : CmdWord) : (s.takeAbort c w).status = ⟨true, c.code⟩ := rfl
@[simp] theorem State.takeAbort_abortCmd (s : State) (c : Cause) (w : CmdWord) : (s.takeAbort c w).abortCmd = w.setWidth 64 := rfl
@[simp] theorem State.takeAbort_port (s : State) (c : Cause) (w : CmdWord) : (s.takeAbort c w).port = s.port := rfl
@[simp] theorem State.takeAbort_readData (s : State) (c : Cause) (w : CmdWord) : (s.takeAbort c w).readData = s.readData := rfl
@[simp] theorem State.takeAbort_resets (s : State) (c : Cause) (w : CmdWord) : (s.takeAbort c w).resets = s.resets := rfl

/-! ### `putArith` -/

@[simp] theorem State.putArith_cfg (s : State) (f : ArithFlags) (b : Bool) : (s.putArith f b).cfg = s.cfg := rfl
@[simp] theorem State.putArith_x (s : State) (f : ArithFlags) (b : Bool) : (s.putArith f b).x = s.x := rfl
@[simp] theorem State.putArith_d (s : State) (f : ArithFlags) (b : Bool) : (s.putArith f b).d = s.d := rfl
@[simp] theorem State.putArith_flags (s : State) (f : ArithFlags) (b : Bool) : (s.putArith f b).flags = s.flags.withArith f b := rfl
@[simp] theorem State.putArith_status (s : State) (f : ArithFlags) (b : Bool) : (s.putArith f b).status = s.status := rfl
@[simp] theorem State.putArith_abortCmd (s : State) (f : ArithFlags) (b : Bool) : (s.putArith f b).abortCmd = s.abortCmd := rfl
@[simp] theorem State.putArith_port (s : State) (f : ArithFlags) (b : Bool) : (s.putArith f b).port = s.port := rfl
@[simp] theorem State.putArith_readData (s : State) (f : ArithFlags) (b : Bool) : (s.putArith f b).readData = s.readData := rfl
@[simp] theorem State.putArith_resets (s : State) (f : ArithFlags) (b : Bool) : (s.putArith f b).resets = s.resets := rfl

/-! ### `resetBlock` -/

@[simp] theorem State.resetBlock_cfg (s : State) : (s.resetBlock).cfg = s.cfg := rfl
@[simp] theorem State.resetBlock_x (s : State) : (s.resetBlock).x = Vector.replicate 16 (unwrittenX s.cfg.n) := rfl
@[simp] theorem State.resetBlock_d (s : State) : (s.resetBlock).d = Vector.replicate 16 (unwrittenD s.cfg.n) := rfl
@[simp] theorem State.resetBlock_flags (s : State) : (s.resetBlock).flags = Flags.zero := rfl
@[simp] theorem State.resetBlock_status (s : State) : (s.resetBlock).status = Status.zero := rfl
@[simp] theorem State.resetBlock_abortCmd (s : State) : (s.resetBlock).abortCmd = 0 := rfl
@[simp] theorem State.resetBlock_port (s : State) : (s.resetBlock).port = s.port := rfl
@[simp] theorem State.resetBlock_readData (s : State) : (s.resetBlock).readData = s.readData := rfl
@[simp] theorem State.resetBlock_resets (s : State) : (s.resetBlock).resets = s.resets + 1 := rfl

/-! ### `withAccess` -/

@[simp] theorem State.withAccess_cfg (s : State) (a : HostAccess) : (s.withAccess a).cfg = s.cfg := rfl
@[simp] theorem State.withAccess_x (s : State) (a : HostAccess) : (s.withAccess a).x = s.x := rfl
@[simp] theorem State.withAccess_d (s : State) (a : HostAccess) : (s.withAccess a).d = s.d := rfl
@[simp] theorem State.withAccess_flags (s : State) (a : HostAccess) : (s.withAccess a).flags = s.flags := rfl
@[simp] theorem State.withAccess_status (s : State) (a : HostAccess) : (s.withAccess a).status = s.status := rfl
@[simp] theorem State.withAccess_abortCmd (s : State) (a : HostAccess) : (s.withAccess a).abortCmd = s.abortCmd := rfl
@[simp] theorem State.withAccess_port (s : State) (a : HostAccess) : (s.withAccess a).port = a :: s.port := rfl
@[simp] theorem State.withAccess_readData (s : State) (a : HostAccess) : (s.withAccess a).readData = s.readData := rfl
@[simp] theorem State.withAccess_resets (s : State) (a : HostAccess) : (s.withAccess a).resets = s.resets := rfl

/-! ### `resetOf` -/

@[simp] theorem State.resetOf_cfg (p : Params) : (State.resetOf p).cfg = p := rfl
@[simp] theorem State.resetOf_x (p : Params) : (State.resetOf p).x = Vector.replicate 16 (unwrittenX p.n) := rfl
@[simp] theorem State.resetOf_d (p : Params) : (State.resetOf p).d = Vector.replicate 16 (unwrittenD p.n) := rfl
@[simp] theorem State.resetOf_flags (p : Params) : (State.resetOf p).flags = Flags.zero := rfl
@[simp] theorem State.resetOf_status (p : Params) : (State.resetOf p).status = Status.zero := rfl
@[simp] theorem State.resetOf_abortCmd (p : Params) : (State.resetOf p).abortCmd = 0 := rfl
@[simp] theorem State.resetOf_port (p : Params) : (State.resetOf p).port = [] := rfl
@[simp] theorem State.resetOf_readData (p : Params) : (State.resetOf p).readData = 0 := rfl
@[simp] theorem State.resetOf_resets (p : Params) : (State.resetOf p).resets = 0 := rfl

/-! ### Flags -/

@[simp] theorem Flags.withArith_cf (f : Flags) (a : ArithFlags) (b : Bool) : (f.withArith a b).cf = a.cf := rfl
@[simp] theorem Flags.withArith_vf (f : Flags) (a : ArithFlags) (b : Bool) : (f.withArith a b).vf = a.vf := rfl
@[simp] theorem Flags.withArith_of (f : Flags) (a : ArithFlags) (b : Bool) : (f.withArith a b).of = a.of := rfl
@[simp] theorem Flags.withArith_none (f : Flags) (a : ArithFlags) (b : Bool) : (f.withArith a b).none = b := rfl
@[simp] theorem Flags.withArith_cmp (f : Flags) (a : ArithFlags) (b : Bool) : (f.withArith a b).cmp = f.cmp := rfl

end Sys2Proof.Machine
end

