-- ==== Sys2Proof/Laws/Ops.lean ====
section
/-! SUPPORT. What the shared operations can do, once each: registers, the command frame, Finish and DivZero. -/

namespace Sys2Proof.Machine

/-! ### Register storage -/

@[simp] theorem xSlots_setXSlots_self (s : State) (r : XIdx) (v : List Slot) : (s.setXSlots r v).xSlots r = v := by
  simp [State.xSlots, State.setXSlots]

theorem xSlots_setXSlots_ne (s : State) {r q : XIdx} (v : List Slot) (h : q ≠ r) :
    (s.setXSlots r v).xSlots q = s.xSlots q := by
  have : r.toNat ≠ q.toNat := fun hc => h (BitVec.eq_of_toNat_eq hc.symm)
  simp [State.xSlots, State.setXSlots, this]

@[simp] theorem dSlots_setDSlots_self (s : State) (r : DIdx) (v : DecReg) : (s.setDSlots r v).dSlots r = v := by
  simp [State.dSlots, State.setDSlots]

theorem dSlots_setDSlots_ne (s : State) {r q : DIdx} (v : DecReg) (h : q ≠ r) :
    (s.setDSlots r v).dSlots q = s.dSlots q := by
  have : r.toNat ≠ q.toNat := fun hc => h (BitVec.eq_of_toNat_eq hc.symm)
  simp [State.dSlots, State.setDSlots, this]

@[simp] theorem dSlots_setXSlots (s : State) (r : XIdx) (v : List Slot) (q : DIdx) :
    (s.setXSlots r v).dSlots q = s.dSlots q := rfl

@[simp] theorem xSlots_setDSlots (s : State) (r : DIdx) (v : DecReg) (q : XIdx) :
    (s.setDSlots r v).xSlots q = s.xSlots q := rfl

@[simp] theorem xSlots_writeX_self (s : State) (r : XIdx) (a : LimbArray) :
    (s.writeX r a).xSlots r = markedSlots a := xSlots_setXSlots_self s r _

theorem xSlots_writeX_ne (s : State) {r q : XIdx} (a : LimbArray) (h : q ≠ r) :
    (s.writeX r a).xSlots q = s.xSlots q := xSlots_setXSlots_ne s _ h

@[simp] theorem dSlots_writeX (s : State) (r : XIdx) (a : LimbArray) (q : DIdx) :
    (s.writeX r a).dSlots q = s.dSlots q := rfl

@[simp] theorem dSlots_writeD_self (s : State) (r : DIdx) (v : DecWord) :
    (s.writeD r v).dSlots r = { coef := markedSlots v.coef, cb := { word := v.cb, mark := true } } :=
  dSlots_setDSlots_self s r _

theorem dSlots_writeD_ne (s : State) {r q : DIdx} (v : DecWord) (h : q ≠ r) :
    (s.writeD r v).dSlots q = s.dSlots q := dSlots_setDSlots_ne s _ h

@[simp] theorem xSlots_writeD (s : State) (r : DIdx) (v : DecWord) (q : XIdx) :
    (s.writeD r v).xSlots q = s.xSlots q := rfl

@[simp] theorem xSlots_putArith (s : State) (f : ArithFlags) (b : Bool) (q : XIdx) :
    (s.putArith f b).xSlots q = s.xSlots q := rfl

@[simp] theorem dSlots_putArith (s : State) (f : ArithFlags) (b : Bool) (q : DIdx) :
    (s.putArith f b).dSlots q = s.dSlots q := rfl

@[simp] theorem xSlots_takeAbort (s : State) (c : Cause) (w : CmdWord) (q : XIdx) :
    (s.takeAbort c w).xSlots q = s.xSlots q := rfl

@[simp] theorem dSlots_takeAbort (s : State) (c : Cause) (w : CmdWord) (q : DIdx) :
    (s.takeAbort c w).dSlots q = s.dSlots q := rfl

@[simp] theorem xSlots_resetOf (p : Params) (q : XIdx) : (State.resetOf p).xSlots q = unwrittenX p.n := by
  simp [State.xSlots]

@[simp] theorem dSlots_resetOf (p : Params) (q : DIdx) : (State.resetOf p).dSlots q = unwrittenD p.n := by
  simp [State.dSlots]

@[simp] theorem xSlots_resetBlock (s : State) (q : XIdx) : s.resetBlock.xSlots q = unwrittenX s.cfg.n := by
  simp [State.xSlots]

@[simp] theorem dSlots_resetBlock (s : State) (q : DIdx) : s.resetBlock.dSlots q = unwrittenD s.cfg.n := by
  simp [State.dSlots]

/-! ### Marks (R49) -/

@[simp] theorem allMarked_markedSlots (a : LimbArray) : allMarked (markedSlots a) = true := by
  simp [allMarked, markedSlots]

@[simp] theorem slotWords_markedSlots (a : LimbArray) : slotWords (markedSlots a) = a := by
  simp [slotWords, markedSlots, Function.comp_def]

@[simp] theorem length_markedSlots (a : LimbArray) : (markedSlots a).length = a.length := by simp [markedSlots]

@[simp] theorem length_slotWords (r : List Slot) : (slotWords r).length = r.length := by simp [slotWords]

/-- A register whose words are all marked is what a command that wrote its words would leave. -/
theorem markedSlots_slotWords {r : List Slot} (h : allMarked r = true) : markedSlots (slotWords r) = r := by
  induction r with
  | nil => rfl
  | cons a as ih =>
    simp only [allMarked, List.all_cons, Bool.and_eq_true] at h
    have := ih h.2
    cases a
    simp_all [markedSlots, slotWords]

/-! ### Reading registers as operands (R49) -/

/-- A read of an integer register: its words, if it is written. -/
theorem readX_eq_ok_iff (s : State) (r : XIdx) (a : LimbArray) :
    s.readX r = .ok a ↔ s.writtenX r ∧ a = slotWords (s.xSlots r) := by
  simp only [State.readX, State.writtenX]
  split
  · rename_i h
    simp only [h, Except.ok.injEq, true_and]
    exact eq_comm
  · rename_i h
    simp [h]

theorem readX_of_written {s : State} {r : XIdx} (h : s.writtenX r) : s.readX r = .ok (slotWords (s.xSlots r)) :=
  (readX_eq_ok_iff s r _).2 ⟨h, rfl⟩

theorem readX_of_not_written {s : State} {r : XIdx} (h : ¬ s.writtenX r) : s.readX r = .error .unwritten := by
  simp only [State.writtenX] at h
  simp [State.readX, h]

theorem readX_cases (s : State) (r : XIdx) :
    (s.writtenX r ∧ s.readX r = .ok (slotWords (s.xSlots r))) ∨ (¬ s.writtenX r ∧ s.readX r = .error .unwritten) := by
  by_cases h : s.writtenX r
  · exact .inl ⟨h, readX_of_written h⟩
  · exact .inr ⟨h, readX_of_not_written h⟩

/-- What a read of an integer register of a well-shaped state gives has N limbs. -/
theorem length_of_readX {s : State} (hs : s.shaped) {r : XIdx} {a : LimbArray} (h : s.readX r = .ok a) :
    a.length = s.cfg.n := by
  obtain ⟨_, rfl⟩ := (readX_eq_ok_iff s r a).1 h
  simpa using hs.1 r

@[simp] theorem readX_writeX_self (s : State) (r : XIdx) (a : LimbArray) : (s.writeX r a).readX r = .ok a := by
  simp [State.readX]

theorem readX_writeX_ne (s : State) {r q : XIdx} (a : LimbArray) (h : q ≠ r) :
    (s.writeX r a).readX q = s.readX q := by
  simp [State.readX, xSlots_writeX_ne s a h]

@[simp] theorem readX_putArith (s : State) (f : ArithFlags) (b : Bool) (q : XIdx) :
    (s.putArith f b).readX q = s.readX q := rfl

/-- Writing back what was read changes nothing. -/
theorem writeX_self_of_readX {s : State} {r : XIdx} {a : LimbArray} (h : s.readX r = .ok a) : s.writeX r a = s := by
  obtain ⟨hw, rfl⟩ := (readX_eq_ok_iff s r a).1 h
  have : markedSlots (slotWords (s.xSlots r)) = s.xSlots r := markedSlots_slotWords hw
  simp only [State.writeX, this]
  simp [State.setXSlots, State.xSlots]

/-- A read of a decimal register: its contents, if it is written. -/
theorem readD_eq_ok_iff (s : State) (r : DIdx) (v : DecWord) :
    s.readD r = .ok v ↔ s.writtenD r ∧ v = ⟨slotWords (s.dSlots r).coef, (s.dSlots r).cb.word⟩ := by
  simp only [State.readD, State.writtenD, ← Bool.and_eq_true]
  split
  · rename_i h
    simp only [h, Except.ok.injEq, true_and]
    exact eq_comm
  · rename_i h
    simp [h]

theorem readD_of_written {s : State} {r : DIdx} (h : s.writtenD r) :
    s.readD r = .ok ⟨slotWords (s.dSlots r).coef, (s.dSlots r).cb.word⟩ := (readD_eq_ok_iff s r _).2 ⟨h, rfl⟩

theorem readD_of_not_written {s : State} {r : DIdx} (h : ¬ s.writtenD r) : s.readD r = .error .unwritten := by
  simp only [State.writtenD] at h
  simp only [State.readD, Bool.and_eq_true]
  rw [if_neg h]

theorem readD_cases (s : State) (r : DIdx) :
    (s.writtenD r ∧ s.readD r = .ok ⟨slotWords (s.dSlots r).coef, (s.dSlots r).cb.word⟩) ∨
      (¬ s.writtenD r ∧ s.readD r = .error .unwritten) := by
  by_cases h : s.writtenD r
  · exact .inl ⟨h, readD_of_written h⟩
  · exact .inr ⟨h, readD_of_not_written h⟩

theorem length_of_readD {s : State} (hs : s.shaped) {r : DIdx} {v : DecWord} (h : s.readD r = .ok v) :
    v.coef.length = s.cfg.n := by
  obtain ⟨_, rfl⟩ := (readD_eq_ok_iff s r v).1 h
  simpa using hs.2 r

@[simp] theorem readD_writeD_self (s : State) (r : DIdx) (v : DecWord) : (s.writeD r v).readD r = .ok v := by
  simp [State.readD]

theorem readD_writeD_ne (s : State) {r q : DIdx} (v : DecWord) (h : q ≠ r) :
    (s.writeD r v).readD q = s.readD q := by
  simp [State.readD, dSlots_writeD_ne s v h]

/-! ### Several destinations (R15) -/

@[simp] theorem writeXs_nil (s : State) : s.writeXs [] = s := rfl

@[simp] theorem writeXs_cons (s : State) (p : XWrite) (ws : List XWrite) :
    s.writeXs (p :: ws) = (s.writeX p.1 p.2).writeXs ws := rfl

/-- What writing destinations leaves alone: everything but the registers named. -/
theorem writeXs_frame (s : State) (ws : List XWrite) :
    (s.writeXs ws).cfg = s.cfg ∧ (s.writeXs ws).d = s.d ∧ (s.writeXs ws).flags = s.flags ∧
      (s.writeXs ws).status = s.status ∧ (s.writeXs ws).abortCmd = s.abortCmd ∧ (s.writeXs ws).port = s.port ∧
      (s.writeXs ws).readData = s.readData ∧ (s.writeXs ws).resets = s.resets ∧
      ∀ q, q ∉ ws.map Prod.fst → (s.writeXs ws).xSlots q = s.xSlots q := by
  induction ws generalizing s with
  | nil => simp
  | cons p ws ih =>
    obtain ⟨h1, h2, h3, h4, h5, h6, h7, h8, h9⟩ := ih (s.writeX p.1 p.2)
    refine ⟨h1, h2, h3, h4, h5, h6, h7, h8, fun q hq => ?_⟩
    simp only [List.map_cons, List.mem_cons, not_or] at hq
    exact (h9 q hq.2).trans (xSlots_writeX_ne s p.2 hq.1)

/-! ### The command frame (R340, R345) -/

/-- A command's next state: its rule's writes, or the abort its rule raised, or the abort of an illegal word. -/
theorem runCommand_next {i : Instr} {s t : State} {rule : Except Stop State} (h : runCommand i s rule = .next t) :
    (i.wf s.cfg.n = true ∧ rule = .ok t) ∨
      (i.wf s.cfg.n = true ∧ ∃ c, rule = .error (.abort c) ∧ t = s.takeAbort c (encode i)) ∨
      (i.wf s.cfg.n = false ∧ t = s.takeAbort .illegalCommand (encode i)) := by
  simp only [runCommand] at h
  split at h
  · rename_i hw
    match rule, h with
    | .ok _, h => exact .inl ⟨hw, by simpa [conclude] using h⟩
    | .error .unwritten, h => simp [conclude] at h
    | .error (.abort c), h => exact .inr (.inl ⟨hw, c, rfl, by simpa [conclude, eq_comm] using h⟩)
  · rename_i hw
    exact .inr (.inr ⟨by simpa using hw, by simpa [conclude, eq_comm] using h⟩)

/-- A legal command faults exactly when its rule finds an operand that is not written (R49). -/
theorem runCommand_fault_iff (i : Instr) (s : State) (rule : Except Stop State) (f : Fault) :
    runCommand i s rule = .fault f ↔ i.wf s.cfg.n = true ∧ rule = .error .unwritten := by
  cases f
  simp only [runCommand]
  split
  · rename_i hw
    match rule with
    | .ok _ => simp [conclude]
    | .error .unwritten => simp [conclude, hw]
    | .error (.abort c) => simp [conclude]
  · rename_i hw
    simp [conclude, hw]

/-- No command is refused. -/
theorem runCommand_not_refused (i : Instr) (s : State) (rule : Except Stop State) (r : Refusal) :
    runCommand i s rule ≠ .refused r := by
  simp only [runCommand]
  split
  · match rule with
    | .ok _ => simp [conclude]
    | .error .unwritten => simp [conclude]
    | .error (.abort c) => simp [conclude]
  · simp [conclude]

theorem runCommand_ok {i : Instr} {s t : State} (hw : i.wf s.cfg.n = true) : runCommand i s (.ok t) = .next t := by
  simp [runCommand, hw, conclude]

theorem runCommand_abort {i : Instr} {s : State} {c : Cause} (hw : i.wf s.cfg.n = true) :
    runCommand i s (.error (.abort c)) = .next (s.takeAbort c (encode i)) := by
  simp [runCommand, hw, conclude]

theorem runCommand_unwritten {i : Instr} {s : State} (hw : i.wf s.cfg.n = true) :
    runCommand i s (.error .unwritten) = .fault .unwritten := by
  simp [runCommand, hw, conclude]

theorem runCommand_illegal {i : Instr} {s : State} {rule : Except Stop State} (hw : i.wf s.cfg.n = false) :
    runCommand i s rule = .next (s.takeAbort .illegalCommand (encode i)) := by
  simp [runCommand, hw, conclude]

/-! ### Finish (R144) and DivZero (R201) -/

/-- What `Finish` writes when it does not abort: the four flags, with NONE for a checked exceptional case, and the destinations
unless it is that case (R144). -/
theorem finish_ok {mode : Mode} {exc : Option Cause} {res sat : List XWrite} {f : ArithFlags} {s t : State}
    (h : finish mode exc res sat f s = .ok t) :
    (∃ c, mode = .checked ∧ exc = some c ∧ t = s.putArith f true) ∨
      (∃ c, mode = .saturating ∧ exc = some c ∧ t = (s.writeXs sat).putArith f false) ∨
      ((mode = .wrapping ∨ mode = .overflowing ∨ exc = none) ∧ t = (s.writeXs res).putArith f false) := by
  cases mode <;> cases exc <;> simp_all [finish]

/-- `Finish` stops only in strict mode, with the cause of the exceptional case (R144). -/
theorem finish_error {mode : Mode} {exc : Option Cause} {res sat : List XWrite} {f : ArithFlags} {s : State} {e : Stop}
    (h : finish mode exc res sat f s = .error e) : ∃ c, mode = .strict ∧ exc = some c ∧ e = .abort c := by
  cases mode <;> cases exc <;> simp_all [finish]

/-- With no exceptional case every mode writes the result (R104, R144). -/
theorem finish_none (mode : Mode) (res sat : List XWrite) (f : ArithFlags) (s : State) :
    finish mode none res sat f s = .ok ((s.writeXs res).putArith f false) := by
  cases mode <;> rfl

theorem divZero_ok {mode : Mode} {s t : State} (h : divZero mode s = .ok t) :
    mode = .checked ∧ t = s.putArith ArithFlags.clear true := by
  cases mode <;> simp_all [divZero]

theorem divZero_error {mode : Mode} {s : State} {e : Stop} (h : divZero mode s = .error e) :
    mode ≠ .checked ∧ e = .abort .intDivByZero := by
  cases mode <;> simp_all [divZero]

end Sys2Proof.Machine
end

