-- ==== Sys2Proof/Laws/Decimal.lean ====
section
/-! SUPPORT. The control block's fields after packing (R33), reading operands (R260), signal sets (R36), and the end of a decimal
command (R271 to R273). -/

namespace Sys2Proof.Machine

/-! ### Packing and unpacking (R33) -/

section
variable (scale : BitVec 16) (sign : Bool) (kind : Kind) (signals : SignalSet) (ctx : Context)

@[simp] theorem cbScale_packCb : cbScale (packCb scale sign kind signals ctx) = scale := by
  simp [cbScale, packCb, extract_or, extract_place_self, extract_place_above]

@[simp] theorem cbSign_packCb : cbSign (packCb scale sign kind signals ctx) = sign := by
  rw [cbSign, getLsbD_eq_extract]
  simp [packCb, extract_or, extract_place_self, extract_place_above, extract_place_below, -BitVec.getLsbD_eq_getElem]

@[simp] theorem cbSpecial_packCb : cbSpecial (packCb scale sign kind signals ctx) = kind.code := by
  simp [cbSpecial, packCb, extract_or, extract_place_self, extract_place_above, extract_place_below]

@[simp] theorem cbSignals_packCb : cbSignals (packCb scale sign kind signals ctx) = signals := by
  simp [cbSignals, packCb, extract_or, extract_place_self, extract_place_above, extract_place_below]

@[simp] theorem cbRm_packCb : cbRm (packCb scale sign kind signals ctx) = ctx.rm := by
  simp [cbRm, packCb, extract_or, extract_place_self, extract_place_above, extract_place_below]

@[simp] theorem cbTraps_packCb : cbTraps (packCb scale sign kind signals ctx) = ctx.traps := by
  simp [cbTraps, packCb, extract_or, extract_place_self, extract_place_below]

@[simp] theorem cbReserved_packCb : cbReserved (packCb scale sign kind signals ctx) = 0 := by
  simp [cbReserved, packCb, extract_or, extract_place_below]

@[simp] theorem cbContext_packCb : cbContext (packCb scale sign kind signals ctx) = ctx := by simp [cbContext]

end

@[simp] theorem Kind.ofCode_code (k : Kind) : Kind.ofCode k.code = some k := by cases k <;> rfl

theorem Kind.code_ne_reserved (k : Kind) : k.code ≠ 3#2 := by cases k <;> decide

/-- A `special` field names a kind unless it is the reserved one (R35). -/
theorem Kind.ofCode_eq_none_iff (c : BitVec 2) : Kind.ofCode c = none ↔ c = 3#2 := by
  revert c
  decide

/-- Every control block a result is written with is well-formed (R35). -/
theorem cbWellFormed_packCb (scale : BitVec 16) (sign : Bool) (kind : Kind) (signals : SignalSet) (ctx : Context) :
    cbWellFormed (packCb scale sign kind signals ctx) = true := by
  simp [cbWellFormed, Kind.code_ne_reserved]

/-! ### Replacing the context (R291) -/

section
variable (cb : Word) (ctx : Context)

@[simp] theorem cbRm_cbWithContext : cbRm (cbWithContext cb ctx) = ctx.rm := by
  simp [cbRm, cbWithContext, extract_or, extract_place_self, extract_place_above, extract_place_below]

@[simp] theorem cbTraps_cbWithContext : cbTraps (cbWithContext cb ctx) = ctx.traps := by
  simp [cbTraps, cbWithContext, extract_or, extract_place_self, extract_place_above, extract_place_below]

@[simp] theorem cbReserved_cbWithContext : cbReserved (cbWithContext cb ctx) = cbReserved cb := by
  rw [cbReserved, cbWithContext]
  simp [extract_or, extract_place_self, extract_place_below]

/-- Every bit outside the context is kept. -/
theorem cbWithContext_low {i : Nat} (h : i < 27) : (cbWithContext cb ctx).getLsbD i = cb.getLsbD i := by
  simp only [cbWithContext, BitVec.getLsbD_or, getLsbD_place, BitVec.getLsbD_extractLsb']
  simp [show i < 64 by omega, show ¬ 27 ≤ i by omega, show ¬ 30 ≤ i by omega, show ¬ 38 ≤ i by omega, h]

@[simp] theorem cbSpecial_cbWithContext : cbSpecial (cbWithContext cb ctx) = cbSpecial cb := by
  apply BitVec.eq_of_getLsbD_eq
  intro i hi
  simp only [cbSpecial, BitVec.getLsbD_extractLsb', hi, decide_true, Bool.true_and]
  exact cbWithContext_low cb ctx (by omega)

@[simp] theorem cbSignals_cbWithContext : cbSignals (cbWithContext cb ctx) = cbSignals cb := by
  apply BitVec.eq_of_getLsbD_eq
  intro i hi
  simp only [cbSignals, BitVec.getLsbD_extractLsb', hi, decide_true, Bool.true_and]
  exact cbWithContext_low cb ctx (by omega)

@[simp] theorem cbScale_cbWithContext : cbScale (cbWithContext cb ctx) = cbScale cb := by
  apply BitVec.eq_of_getLsbD_eq
  intro i hi
  simp only [cbScale, BitVec.getLsbD_extractLsb', hi, decide_true, Bool.true_and]
  exact cbWithContext_low cb ctx (by omega)

@[simp] theorem cbSign_cbWithContext : cbSign (cbWithContext cb ctx) = cbSign cb :=
  cbWithContext_low cb ctx (by omega)

@[simp] theorem cbWellFormed_cbWithContext : cbWellFormed (cbWithContext cb ctx) = cbWellFormed cb := by
  simp [cbWellFormed]

end

/-! ### Reading operands (R260) -/

/-- `ReadDec` on a well-formed control block gives the fields; on a malformed one it aborts (R260, R342). -/
theorem readDec_cases (v : DecWord) :
    (cbWellFormed v.cb = true ∧ ∃ k, Kind.ofCode (cbSpecial v.cb) = some k ∧
      readDec v = .ok { kind := k, coef := uval v.coef, neg := cbSign v.cb, exp := -sval16 (cbScale v.cb),
                        signals := cbSignals v.cb, ctx := cbContext v.cb }) ∨
      (cbWellFormed v.cb = false ∧ readDec v = .error (.abort .reservedOperand)) := by
  by_cases hr : cbReserved v.cb = 0
  · cases hk : Kind.ofCode (cbSpecial v.cb) with
    | none =>
      right
      have := (Kind.ofCode_eq_none_iff _).1 hk
      exact ⟨by simp [cbWellFormed, this], by simp [readDec, hr, hk]⟩
    | some k =>
      left
      have : cbSpecial v.cb ≠ 3#2 := fun hc => by simp [(Kind.ofCode_eq_none_iff _).2 hc] at hk
      exact ⟨by simp [cbWellFormed, this, hr], k, rfl, by simp [readDec, hr, hk]⟩
  · right
    constructor
    · rw [cbWellFormed, decide_eq_false hr, Bool.and_false]
    · rw [readDec, if_pos hr]

theorem readDec_error {v : DecWord} {e : Stop} (h : readDec v = .error e) : e = .abort .reservedOperand := by
  rcases readDec_cases v with ⟨_, k, _, hk⟩ | ⟨_, hk⟩ <;> simp_all

/-- Reading two operands: an unwritten register stops it first, then `rs1` and then `rs2` is checked (R340, R348). -/
theorem readDec2_ok {s : State} {rs1 rs2 : DIdx} {a b : DecOperand} (h : readDec2 s rs1 rs2 = .ok (a, b)) :
    ∃ u v, s.readD rs1 = .ok u ∧ s.readD rs2 = .ok v ∧ readDec u = .ok a ∧ readDec v = .ok b := by
  simp only [readDec2, bind, Except.bind] at h
  split at h
  · cases h
  rename_i u hu
  split at h
  · cases h
  rename_i v hv
  split at h
  · cases h
  rename_i a' ha
  split at h
  · cases h
  rename_i b' hb
  cases h
  exact ⟨u, v, hu, hv, ha, hb⟩

/-! ### Signal sets (R36) -/

theorem has_or (a b : SignalSet) (g : Signal) : (a ||| b).has g = (a.has g || b.has g) := by
  simp only [SignalSet.has, BitVec.getLsbD_or]

theorem has_and (a b : SignalSet) (g : Signal) : (a &&& b).has g = (a.has g && b.has g) := by
  simp only [SignalSet.has, BitVec.getLsbD_and]

@[simp] theorem has_zero (g : Signal) : SignalSet.has 0#8 g = false := by cases g <;> rfl

@[simp] theorem has_single (g h : Signal) : (single g).has h = decide (g = h) := by cases g <;> cases h <;> rfl

@[simp] theorem has_raiseIf (b : Bool) (g h : Signal) : (raiseIf b g).has h = (b && decide (g = h)) := by
  cases b <;> simp [raiseIf]

/-- No signal is trapped exactly when no signal is in the set. -/
theorem firstTrapped_eq_none_iff (t : SignalSet) : firstTrapped t = none ↔ ∀ g, t.has g = false := by
  constructor
  · intro h g
    have := List.find?_eq_none.1 h g (by cases g <;> decide)
    simpa using this
  · intro h
    exact List.find?_eq_none.2 fun g _ => by simp [h g]

/-- The signal an abort names is in the set. -/
theorem has_of_firstTrapped {t : SignalSet} {g : Signal} (h : firstTrapped t = some g) : t.has g = true := by
  simpa using List.find?_some h

/-! ### The end of a decimal command (R271 to R273) -/

/-- When a decimal command with a result completes, it writes `d[rd]` alone (R273). -/
theorem finishDecimal_ok {rd : DIdx} {r : NormResult} {inh : SignalSet} {ctx : Context} {s t : State}
    (h : finishDecimal rd r inh ctx s = .ok t) :
    ¬ (ctx.rm = .strict ∧ r.new.has .inexact = true) ∧ (∀ g, (r.new &&& ctx.traps).has g = false) ∧
      t = s.writeD rd (resultWord s.cfg.n r inh ctx) := by
  simp only [finishDecimal] at h
  split at h
  · cases h
  · rename_i hs
    split at h
    · cases h
    · rename_i ht
      cases h
      exact ⟨hs, (firstTrapped_eq_none_iff _).1 ht, rfl⟩

/-- Where nothing new is trapped and Strict is satisfied, the result is written (R271 to R273). -/
theorem finishDecimal_of_quiet {rd : DIdx} {r : NormResult} {inh : SignalSet} {ctx : Context} {s : State}
    (hs : ¬ (ctx.rm = .strict ∧ r.new.has .inexact = true)) (ht : ∀ g, (r.new &&& ctx.traps).has g = false) :
    finishDecimal rd r inh ctx s = .ok (s.writeD rd (resultWord s.cfg.n r inh ctx)) := by
  rw [finishDecimal, if_neg hs, (firstTrapped_eq_none_iff _).2 ht]

/-- A decimal command with a result stops only by the Strict check or the trap check (R271, R272). -/
theorem finishDecimal_error {rd : DIdx} {r : NormResult} {inh : SignalSet} {ctx : Context} {s : State} {e : Stop}
    (h : finishDecimal rd r inh ctx s = .error e) :
    (ctx.rm = .strict ∧ r.new.has .inexact = true ∧ e = .abort .roundStrict) ∨
      (¬ (ctx.rm = .strict ∧ r.new.has .inexact = true) ∧
        ∃ g, firstTrapped (r.new &&& ctx.traps) = some g ∧ e = .abort (.signal g)) := by
  simp only [finishDecimal] at h
  split at h
  · rename_i hs
    cases h
    exact .inl ⟨hs.1, hs.2, rfl⟩
  · rename_i hs
    split at h
    · rename_i g hg
      cases h
      exact .inr ⟨hs, g, hg, rfl⟩
    · cases h

end Sys2Proof.Machine
end

