-- ==== Sys2Proof/Laws/Normalizer.lean ====
section
/-! SUPPORT. Digit counts (R234), RoundDiv (R262) and the fit count (R266): what each does, once. -/

namespace Sys2Proof.Machine

/-! ### Digit counts (R9, R234) -/

/-- With enough fuel, `digitsWithin` is the number of digits: `m < b^d`, and `b^(d-1) <= m` for a nonzero `m`. -/
theorem digitsWithin_spec {b : Nat} (hb : 2 ≤ b) (fuel m : Nat) (h : m < b ^ (fuel + 1)) :
    1 ≤ digitsWithin b fuel m ∧ m < b ^ digitsWithin b fuel m ∧ (m ≠ 0 → b ^ (digitsWithin b fuel m - 1) ≤ m) := by
  induction fuel generalizing m with
  | zero =>
    simp only [digitsWithin, Nat.le_refl, true_and, Nat.sub_self, pow_zero]
    exact ⟨h, fun h0 => Nat.pos_of_ne_zero h0⟩
  | succ fuel ih =>
    simp only [digitsWithin]
    split
    · rename_i hlt
      simp only [Nat.le_refl, pow_one, true_and, Nat.sub_self, pow_zero]
      exact ⟨hlt, fun h0 => Nat.pos_of_ne_zero h0⟩
    · rename_i hge
      have hb0 : 0 < b := by omega
      have hm : m / b < b ^ (fuel + 1) := by
        rw [Nat.div_lt_iff_lt_mul hb0, ← Nat.pow_succ]
        exact h
      obtain ⟨h1, h2, h3⟩ := ih (m / b) hm
      refine ⟨by omega, ?_, fun _ => ?_⟩
      · rw [Nat.pow_succ]
        exact (Nat.div_lt_iff_lt_mul hb0).1 h2
      · have hne : m / b ≠ 0 := by
          have : 0 < m / b := Nat.div_pos (by omega) hb0
          omega
        have h4 := h3 hne
        have h5 : digitsWithin b fuel (m / b) + 1 - 1 = (digitsWithin b fuel (m / b) - 1) + 1 := by omega
        rw [h5, Nat.pow_succ]
        exact (Nat.le_div_iff_mul_le hb0).1 h4

theorem digitCount_spec {b : Nat} (hb : 2 ≤ b) (m : Nat) :
    1 ≤ digitCount b m ∧ m < b ^ digitCount b m ∧ (m ≠ 0 → b ^ (digitCount b m - 1) ≤ m) := by
  apply digitsWithin_spec hb
  calc m < 2 ^ (m.log2 + 1) := Nat.lt_log2_self
    _ ≤ b ^ (m.log2 + 1) := Nat.pow_le_pow_left hb _
    _ ≤ b ^ (m.log2 + 1 + 1) := Nat.pow_le_pow_right (by omega) (by omega)

theorem one_le_dc (m : Nat) : 1 ≤ dc m := (digitCount_spec (by omega) m).1

theorem lt_pow_dc (m : Nat) : m < 10 ^ dc m := (digitCount_spec (by omega) m).2.1

theorem pow_dc_le {m : Nat} (h : m ≠ 0) : 10 ^ (dc m - 1) ≤ m := (digitCount_spec (by omega) m).2.2 h

/-! ### RoundDiv (R262) -/

theorem pow10_pos (k : Nat) : 0 < 10 ^ k := Nat.pow_pos (by omega)

@[simp] theorem roundDiv_zero (m : Nat) (neg : Bool) (rm : RoundMode) : roundDiv m 0 neg rm = m := rfl

/-- RoundDiv gives the quotient or the quotient plus one. -/
theorem roundDiv_bounds (m k : Nat) (neg : Bool) (rm : RoundMode) :
    m / 10 ^ k ≤ roundDiv m k neg rm ∧ roundDiv m k neg rm ≤ m / 10 ^ k + 1 := by
  simp only [roundDiv]
  split
  · rename_i h
    simp [h]
  · split <;> omega

/-- With no remainder, no mode rounds up. -/
theorem roundUp_exact (rm : RoundMode) (neg : Bool) {p : Nat} (q : Nat) (hp : 0 < p) : roundUp rm neg p q 0 = false := by
  cases rm <;> simp [roundUp] <;> omega

/-- Dropping only zeros is exact (R262). -/
theorem roundDiv_exact {m k : Nat} (neg : Bool) (rm : RoundMode) (h : m % 10 ^ k = 0) :
    roundDiv m k neg rm = m / 10 ^ k := by
  simp only [roundDiv]
  split
  · rename_i hk
    simp [hk]
  · simp [h, roundUp_exact rm neg _ (pow10_pos k)]

/-- Dropping every digit leaves 0 or 1. -/
theorem roundDiv_le_one {m k : Nat} (neg : Bool) (rm : RoundMode) (h : m < 10 ^ k) : roundDiv m k neg rm ≤ 1 := by
  have := (roundDiv_bounds m k neg rm).2
  rwa [Nat.div_eq_of_lt h] at this

/-- Dropping one more digit keeps the fit: `10 * (q / 10) <= q` (R266, second note). -/
theorem roundDiv_fit_succ {lim m k : Nat} {neg : Bool} {rm : RoundMode} (hl : 1 ≤ lim)
    (h : roundDiv m k neg rm ≤ lim) : roundDiv m (k + 1) neg rm ≤ lim := by
  have h1 := (roundDiv_bounds m k neg rm).1
  have h2 := (roundDiv_bounds m (k + 1) neg rm).2
  rw [Nat.pow_succ, ← Nat.div_div_eq_div_mul] at h2
  omega

theorem roundDiv_fit_of_le {lim m k k' : Nat} {neg : Bool} {rm : RoundMode} (hl : 1 ≤ lim)
    (h : roundDiv m k neg rm ≤ lim) (hk : k ≤ k') : roundDiv m k' neg rm ≤ lim := by
  induction hk with
  | refl => exact h
  | step _ ih => exact roundDiv_fit_succ hl ih

/-! ### The fit count (R266) -/

/-- What the search answers: a count in range, none before it fits, and it fits or the fuel is spent. -/
theorem leastFit_spec (lim m : Nat) (neg : Bool) (rm : RoundMode) (fuel k : Nat) :
    k ≤ leastFit lim m neg rm fuel k ∧ leastFit lim m neg rm fuel k ≤ k + fuel ∧
      (∀ j, k ≤ j → j < leastFit lim m neg rm fuel k → lim < roundDiv m j neg rm) ∧
      (roundDiv m (leastFit lim m neg rm fuel k) neg rm ≤ lim ∨ leastFit lim m neg rm fuel k = k + fuel) := by
  induction fuel generalizing k with
  | zero => exact ⟨Nat.le_refl _, Nat.le_refl _, fun j h1 h2 => absurd h2 (Nat.not_lt.2 h1), .inr rfl⟩
  | succ fuel ih =>
    simp only [leastFit]
    split
    · rename_i h
      exact ⟨Nat.le_refl _, by omega, fun j h1 h2 => absurd h2 (Nat.not_lt.2 h1), .inl h⟩
    · rename_i h
      obtain ⟨h1, h2, h3, h4⟩ := ih (k + 1)
      refine ⟨by omega, by omega, fun j hj hlt => ?_, ?_⟩
      · by_cases hjk : j = k
        · subst hjk
          omega
        · exact h3 j (by omega) hlt
      · rcases h4 with h4 | h4
        · exact .inl h4
        · exact .inr (by omega)

theorem one_le_maxU {n : Nat} (h : 1 ≤ n) : 1 ≤ maxU n := by
  rw [le_maxU_iff]
  calc 1 < 2 ^ 64 := by omega
    _ ≤ modulus n := Nat.pow_le_pow_right (by omega) (by simp only [width]; omega)

end Sys2Proof.Machine
end

