-- ==== Sys2Proof/Laws/Commands.lean ====
section
/-! SUPPORT. What a command can do, once for all thirty: how each rule ends,
    which causes it can raise and what it leaves alone. Later
lemmas about every command cite `command_ends` and unfold no meaning. -/

namespace Sys2Proof.Machine

/-- What holds of the state `t` that a completed command `i` leaves in `s` (R42, R49, R109, R145, R273). -/
structure Completed (i : Instr) (s t : State) : Prop where
  x_other : ∀ q, q ∉ writesX i → t.xSlots q = s.xSlots q
  d_other : ∀ q, q ∉ writesD i → t.dSlots q = s.dSlots q
  arith_kept : writesArith i = false →
    t.flags.cf = s.flags.cf ∧ t.flags.vf = s.flags.vf ∧ t.flags.of = s.flags.of ∧ t.flags.none = s.flags.none
  cmp_kept : writesCmp i = false → t.flags.cmp = s.flags.cmp
  cfg : t.cfg = s.cfg
  port : t.port = s.port
  readData : t.readData = s.readData
  resets : t.resets = s.resets
  status : t.status = s.status
  abortCmd : t.abortCmd = s.abortCmd
  x_written : (writesArith i = true ∧ t.flags.none = true ∧ t.x = s.x) ∨ ∀ r ∈ writesX i, t.writtenX r
  d_written : ∀ r ∈ writesD i, t.writtenD r
  shaped : s.shaped → t.shaped
  signals_inherited : ∀ r ∈ writesD i, (cbSignals (t.dSlots r).cb.word).has .divByZero = true →
    ∃ q ∈ readsD i, (cbSignals (s.dSlots q).cb.word).has .divByZero = true
  control_blocks : s.controlBlocksOk → t.controlBlocksOk

/-- The causes a legal command can raise (R341). -/
def mayRaise : Instr → Cause → Prop
  | .shl _ _ _ m, c => m = .strict ∧ c = .intOverflow
  | .shr _ _ _ m _, c => m = .strict ∧ c = .intOverflow
  | .add _ _ _ m _, c => m = .strict ∧ c = .intOverflow
  | .sub _ _ _ m _, c => m = .strict ∧ c = .intOverflow
  | .mul _ _ _ m _, c => m = .strict ∧ c = .intOverflow
  | .mulp10 _ _ _ m, c => m = .strict ∧ c = .intOverflow
  | .divrem _ _ _ _ m g, c => (m = .strict ∧ c = .intOverflow ∧ g = true) ∨ (m ≠ .checked ∧ c = .intDivByZero)
  | .divw _ _ _ _ m, c => (m = .strict ∧ c = .intOverflow) ∨ (m ≠ .checked ∧ c = .intDivByZero)
  | .divrd _ _ _ _ m, c => m ≠ .checked ∧ c = .intDivByZero
  | .lget _ _ _, c => c = .indexRange
  | .lset _ _ _, c => c = .indexRange
  | .tpow10 _ _, c => c = .indexRange
  | .tpow5 _ _, c => c = .indexRange
  | .trmax _ _, c => c = .indexRange
  | .dctx _ _ _ _, c => c = .reservedOperand
  | .dmake _ _ _ _, c => c = .signal .overflow
  | .dround _ _ _, c => c = .reservedOperand ∨ c = .roundStrict ∨ ∃ g, c = .signal g ∧ g ≠ .divByZero ∧ g ≠ .invalid
  | .dtrunc _ _ _, c => c = .reservedOperand ∨ c = .roundStrict ∨ ∃ g, c = .signal g ∧ g ≠ .divByZero ∧ g ≠ .invalid
  | .dadd _ _ _, c => c = .reservedOperand ∨ c = .roundStrict ∨ ∃ g, c = .signal g ∧ g ≠ .divByZero
  | .dsub _ _ _, c => c = .reservedOperand ∨ c = .roundStrict ∨ ∃ g, c = .signal g ∧ g ≠ .divByZero
  | .dmul _ _ _, c => c = .reservedOperand ∨ c = .roundStrict ∨ ∃ g, c = .signal g ∧ g ≠ .divByZero
  | .mov _ _, _ => False
  | .ldi _ _, _ => False
  | .cmp _ _ _, _ => False
  | .mulw _ _ _ _, _ => False
  | .digits _ _, _ => False
  | .divp10 _ _ _ _, _ => False
  | .dmov _ _, _ => False
  | .dcoef _ _, _ => False
  | .dcb _ _, _ => False

/-- How a rule ends (R340): an operand is not written; or all are, and it completes or raises one of its causes. -/
def Ends (i : Instr) (s : State) (rule : Except Stop State) : Prop :=
  (rule = .error .unwritten ∧ ¬ operandsWritten i s) ∨
  (operandsWritten i s ∧ ((∃ t, rule = .ok t ∧ Completed i s t) ∨ ∃ c, rule = .error (.abort c) ∧ mayRaise i c))

theorem ends_ok {i : Instr} {s t : State} (how : operandsWritten i s) (h : Completed i s t) : Ends i s (.ok t) :=
  .inr ⟨how, .inl ⟨t, rfl, h⟩⟩

theorem ends_abort {i : Instr} {s : State} {c : Cause} (how : operandsWritten i s) (h : mayRaise i c) :
    Ends i s (.error (.abort c)) := .inr ⟨how, .inr ⟨c, rfl, h⟩⟩

/-! ### The ways to complete -/

/-- A command that writes one integer register and no flag. -/
theorem completed_writeX (i : Instr) (s : State) (r : XIdx) (a : LimbArray) (hw : writesX i = [r]) (ha : s.shaped →
    a.length = s.cfg.n) (hd : writesD i = []) : Completed i s (s.writeX r a) := by
  refine ⟨?_, fun _ _ => rfl, fun _ => ⟨rfl,rfl,rfl,rfl⟩, fun _ => rfl, rfl, rfl, rfl, rfl, rfl, rfl, ?_,
      by simp [hd], ?_, by simp [hd], fun h => h⟩
  · intro q hq; rw [hw] at hq; simp at hq; exact xSlots_writeX_ne _ _ hq
  · right; intro q hq; rw [hw] at hq; simp at hq; subst hq; simp [State.writtenX]
  · intro hs; refine ⟨fun q => ?_, hs.2⟩
    by_cases h : q = r
    · subst h; simp [ha hs]
    · rw [xSlots_writeX_ne _ _ h]; exact hs.1 q

/-- A command that writes one decimal register. -/
theorem completed_writeD (i : Instr) (s : State) (r : DIdx) (v : DecWord) (hw : writesD i = [r]) (hx : writesX i = [])
    (ha : s.shaped → v.coef.length = s.cfg.n)
  (hz : (cbSignals v.cb).has .divByZero = true → ∃ q ∈ readsD i, (cbSignals (s.dSlots q).cb.word).has .divByZero = true)
  (hc : s.controlBlocksOk → cbWellFormed v.cb = true) : Completed i s (s.writeD r v) := by
  refine ⟨fun _ _ => rfl, ?_, fun _ => ⟨rfl,rfl,rfl,rfl⟩, fun _ => rfl, rfl, rfl, rfl, rfl, rfl, rfl, by simp [hx],
      ?_, ?_, ?_, ?_⟩
  · intro q hq; rw [hw] at hq; simp at hq; exact dSlots_writeD_ne _ _ hq
  · intro q hq; rw [hw] at hq; simp at hq; subst hq; simp [State.writtenD]
  · intro hs; refine ⟨hs.1, fun q => ?_⟩
    by_cases h : q = r
    · subst h; simp [ha hs]
    · rw [dSlots_writeD_ne _ _ h]; exact hs.2 q
  · intro q hq; rw [hw] at hq; simp at hq; subst hq; simpa using hz
  · intro h q
    by_cases hq : q = r
    · subst hq; simpa using hc h
    · rw [dSlots_writeD_ne _ _ hq]; exact h q

/-- A command that writes integer registers and the arithmetic flags. -/
theorem completed_writeXs (i : Instr) (s : State) (ws : List XWrite) (f : ArithFlags) (b : Bool)
    (hw : writesX i = ws.map (·.1)) (hd : writesD i = []) (ha : ∀ p ∈ ws, p.2.length = s.cfg.n)
        (hf : writesArith i = true) :
   Completed i s ((s.writeXs ws).putArith f b) := by
  have hx : ∀ q, ((s.writeXs ws).xSlots q = s.xSlots q ∧ q ∉ ws.map (·.1)) ∨ (q ∈ ws.map (·.1) ∧ ∃ a,
      a.length = s.cfg.n ∧ (s.writeXs ws).xSlots q = markedSlots a) := by
    clear hw
    induction ws generalizing s with
    | nil => intro q; left; simp
    | cons p ws ih =>
      intro q
      rw [writeXs_cons]
      rcases ih (s.writeX p.1 p.2) (fun r hr => ha r (by simp [hr])) q with ⟨h1, h2⟩ | ⟨h1, h2⟩
      · by_cases h : q = p.1
        · right; refine ⟨by simp [h], p.2, ha p (by simp), ?_⟩
          rw [h1, h]; simp
        · left; rw [h1, xSlots_writeX_ne _ _ h]; simp_all
      · right; exact ⟨by simp [h1], h2⟩
  obtain ⟨f1, f2, f3, f4, f5, f6, f7⟩ := writeXs_frame s ws
  have f8 : ∀ q, (s.writeXs ws).dSlots q = s.dSlots q := by intro q; simp only [State.dSlots, f2]
  refine ⟨?_, fun q _ => f8 q, by simp [hf], fun _ => by simp [f3], f1, f6, by simpa using f7.1,
      by simpa using f7.2.1, f4, f5, ?_, by simp [hd], ?_, by simp [hd], ?_⟩
  · intro q hq; rw [hw] at hq
    rcases hx q with ⟨h, _⟩ | ⟨h, _⟩
    · exact h
    · exact absurd h hq
  · right; intro q hq; rw [hw] at hq
    rcases hx q with ⟨_, h⟩ | ⟨_, a, _, h⟩
    · exact absurd hq h
    · simp [State.writtenX, h]
  · intro hs
    refine ⟨fun q => ?_, fun q => ?_⟩
    · rcases hx q with ⟨h, _⟩ | ⟨_, a, ha, h⟩
      · simp [h, f1]; exact hs.1 q
      · simp [h, f1, ha]
    · simp [f8, f1]; exact hs.2 q
  · intro h q; simp only [dSlots_putArith, f8]; exact h q

/-- A checked command without a result (R144). -/
theorem completed_none (i : Instr) (s : State) (f : ArithFlags) (hd : writesD i = []) (hf : writesArith i = true)
    : Completed i s (s.putArith f true) := by
  refine ⟨fun _ _ => rfl, fun _ _ => rfl, by simp [hf], fun _ => rfl, rfl, rfl, rfl, rfl, rfl, rfl, .inl ⟨hf, rfl,
      rfl⟩, by simp [hd], fun h => h, by simp [hd], fun h => h⟩

/-! ### How the shared operations end a rule -/

/-- A read of an integer operand: its words, or a word is not written (R49). -/
theorem readX_ends {s : State} {r : XIdx} : (∃ a, s.readX r = .ok a ∧ s.writtenX r ∧ (s.shaped →
    a.length = s.cfg.n)) ∨ (s.readX r = .error .unwritten ∧ ¬ s.writtenX r) := by
  rcases readX_cases s r with ⟨h, h2⟩ | ⟨h, h2⟩
  · exact .inl ⟨_, h2, h, fun hs => length_of_readX hs h2⟩
  · exact .inr ⟨h2, h⟩

/-- A read of a decimal operand (R49). -/
theorem readD_ends {s : State} {r : DIdx} : (∃ a, s.readD r = .ok a ∧ s.writtenD r ∧ (s.shaped →
    a.coef.length = s.cfg.n) ∧ a.cb = (s.dSlots r).cb.word ∧ (s.dSlots r).cb.mark = true) ∨
        (s.readD r = .error .unwritten ∧ ¬ s.writtenD r) := by
  rcases readD_cases s r with ⟨h, h2⟩ | ⟨h, h2⟩
  · exact .inl ⟨_, h2, h, fun hs => length_of_readD hs h2, rfl, h.2⟩
  · exact .inr ⟨h2, h⟩

/-- `Finish` (R144). -/
theorem ends_finish (i : Instr) (s : State) (mode : Mode) (exc : Bool) (res sat : List XWrite) (f : ArithFlags)
   (hw : writesX i = res.map (·.1)) (hd : writesD i = []) (ha : ∀ p ∈ res, p.2.length = s.cfg.n) (hf : writesArith i = true)
   (hs : mode = .saturating → exc = true → writesX i = sat.map (·.1) ∧ ∀ p ∈ sat, p.2.length = s.cfg.n)
   (hal : mode = .strict → exc = true → mayRaise i .intOverflow) (how : operandsWritten i s) : Ends i s (finish mode
       (onOverflow exc) res sat f s) := by
  right; refine ⟨how, ?_⟩
  cases exc <;> cases mode <;> simp only [onOverflow, finish, if_true, Bool.false_eq_true, if_false] <;> first
    | exact .inl ⟨_, rfl, completed_writeXs i s res f false hw hd ha hf⟩
    | exact .inl ⟨_, rfl, completed_none i s f hd hf⟩
    | exact .inr ⟨_, rfl, hal rfl rfl⟩
    | exact .inl ⟨_, rfl, completed_writeXs i s sat f false (hs rfl rfl).1 hd (hs rfl rfl).2 hf⟩

/-- `DivZero` (R201). -/
theorem ends_divZero (i : Instr) (s : State) (mode : Mode) (hd : writesD i = []) (hf : writesArith i = true)
    (hal : mode ≠ .checked → mayRaise i .intDivByZero) (how : operandsWritten i s) : Ends i s (divZero mode s) := by
  right; refine ⟨how, ?_⟩
  cases mode <;> first
    | exact .inr ⟨_, rfl, hal (by decide)⟩
    | exact .inl ⟨_, rfl, completed_none i s _ hd hf⟩

/-- The result raises neither Invalid nor DivByZero. -/
def Quiet (r : NormResult) : Prop := r.new.has .invalid = false ∧ r.new.has .divByZero = false

/-- The normalizer raises neither (R264 to R269). -/
theorem normOf_quiet (p : Params) (m neg e rm kreq) : Quiet (normOf p m neg e rm kreq) := by
  have rs : ∀ c neg e new, (SignalSet.has new .invalid = false ∧ SignalSet.has new .divByZero = false) → Quiet
      (rangeStage p c neg e new) := by
    intro c neg e new h
    simp only [rangeStage]
    split_ifs <;> simp [Quiet, has_or, has_single, h]
  simp only [normOf]
  split
  · exact rs _ _ _ _ (by simp [has_or, has_raiseIf])
  · exact rs _ _ _ _ (by simp [has_or, has_raiseIf])

/-- The end of a decimal command (R271 to R273). -/
theorem ends_finishDecimal (i : Instr) (s : State) (rd : DIdx) (r : NormResult) (inh : SignalSet) (ctx : Context)
    (hw : writesD i = [rd]) (hx : writesX i = [])
   (hz : inh.has .divByZero = true → ∃ q ∈ readsD i, (cbSignals (s.dSlots q).cb.word).has .divByZero = true)
   (hr : r.new.has .divByZero = false)
   (hal1 : ctx.rm = .strict → mayRaise i .roundStrict) (hal2 : ∀ g, (r.new &&& ctx.traps).has g = true → mayRaise i
       (.signal g)) (how : operandsWritten i s) :
   Ends i s (finishDecimal rd r inh ctx s) := by
  right; refine ⟨how, ?_⟩
  simp only [finishDecimal]
  split
  · rename_i h; exact .inr ⟨_, rfl, hal1 h.1⟩
  · split
    · rename_i g h; exact .inr ⟨_, rfl, hal2 g (has_of_firstTrapped h)⟩
    · refine .inl ⟨_, rfl, completed_writeD i s rd _ hw hx (by simp [resultWord]) ?_ ?_⟩
      · simp only [resultWord, cbSignals_packCb, has_or, hr, Bool.or_false]; exact hz
      · intro _; exact cbWellFormed_packCb _ _ _ _ _

/-- The check of an arithmetic operand (R260). -/
theorem readDec_ends (v : DecWord) : (∃ a, readDec v = .ok a ∧ a.signals = cbSignals v.cb ∧
    cbWellFormed v.cb = true) ∨ readDec v = .error (.abort .reservedOperand) := by
  rcases readDec_cases v with ⟨h, k, _, h2⟩ | ⟨_, h⟩
  · exact .inl ⟨_, h2, rfl, h⟩
  · exact .inr h

/-- A rule that reads two integer registers. -/
theorem ends_readX2 (i : Instr) (s : State) (a b : XIdx) (f : LimbArray → LimbArray → Except Stop State)
  (hx : readsX i = [a, b]) (hd : readsD i = []) (h : ∀ u v, s.readX a = .ok u → s.readX b = .ok v →
      operandsWritten i s → Ends i s (f u v)) :
  Ends i s (do let u ← s.readX a; let v ← s.readX b; f u v) := by
  rcases readX_ends (s := s) (r := a) with ⟨u, h1, w1, l1⟩ | ⟨h1, w1⟩ <;> rcases readX_ends (s := s) (r := b) with ⟨v,
      h2, w2, l2⟩ | ⟨h2, w2⟩ <;> simp only [h1, h2, bind, Except.bind]
  · exact h u v h1 h2 (by simp [operandsWritten, hx, hd, w1, w2])
  · exact .inl ⟨rfl, by simp [operandsWritten, hx, w2]⟩
  · exact .inl ⟨rfl, by simp [operandsWritten, hx, w1]⟩
  · exact .inl ⟨rfl, by simp [operandsWritten, hx, w1]⟩

/-- A rule that reads one integer register. -/
theorem ends_readX (i : Instr) (s : State) (a : XIdx) (f : LimbArray → Except Stop State)
  (hx : readsX i = [a]) (hd : readsD i = []) (h : ∀ u, s.readX a = .ok u → (s.shaped → u.length = s.cfg.n) →
      operandsWritten i s → Ends i s (f u)) :
  Ends i s (do let u ← s.readX a; f u) := by
  rcases readX_ends (s := s) (r := a) with ⟨u, h1, w1, l1⟩ | ⟨h1, w1⟩ <;> simp only [h1, bind, Except.bind]
  · exact h u h1 l1 (by simp [operandsWritten, hx, hd, w1])
  · exact .inl ⟨rfl, by simp [operandsWritten, hx, w1]⟩

/-- A rule that reads one decimal register. -/
theorem ends_readD (i : Instr) (s : State) (a : DIdx) (f : DecWord → Except Stop State)
  (hx : readsX i = []) (hd : readsD i = [a]) (h : ∀ u, s.readD a = .ok u → (s.shaped → u.coef.length = s.cfg.n) →
      u.cb = (s.dSlots a).cb.word → (s.dSlots a).cb.mark = true → operandsWritten i s → Ends i s (f u)) :
  Ends i s (do let u ← s.readD a; f u) := by
  rcases readD_ends (s := s) (r := a) with ⟨u, h1, w1, l1, e1, m1⟩ | ⟨h1, w1⟩ <;> simp only [h1, bind, Except.bind]
  · exact h u h1 l1 e1 m1 (by simp [operandsWritten, hx, hd, w1])
  · exact .inl ⟨rfl, by simp [operandsWritten, hd, w1]⟩

/-- A rule that reads two arithmetic operands (R260). -/
theorem ends_readDec2 (i : Instr) (s : State) (a b : DIdx) (f : DecOperand × DecOperand → Except Stop State)
    (hal : mayRaise i .reservedOperand) (hx : readsX i = []) (hd : readsD i = [a, b])
    (h : ∀ u v, u.signals = cbSignals (s.dSlots a).cb.word → v.signals = cbSignals (s.dSlots b).cb.word →
      operandsWritten i s → Ends i s (f (u, v))) :
    Ends i s (readDec2 s a b >>= f) := by
  simp only [readDec2, bind, Except.bind]
  rcases readD_ends (s := s) (r := a) with ⟨u, h1, w1, l1, e1, m1⟩ | ⟨h1, w1⟩ <;>
    rcases readD_ends (s := s) (r := b) with ⟨v, h2, w2, l2, e2, m2⟩ | ⟨h2, w2⟩ <;> simp only [h1, h2]
  · have how : operandsWritten i s := by simp [operandsWritten, hx, hd, w1, w2]
    rcases readDec_ends u with ⟨x, hx1, hx2, _⟩ | hx1
    · rcases readDec_ends v with ⟨y, hy1, hy2, _⟩ | hy1
      · simp only [hx1, hy1]; exact h x y (by rw [hx2, e1]) (by rw [hy2, e2]) how
      · simp only [hx1, hy1]; exact ends_abort how hal
    · simp only [hx1]; exact ends_abort how hal
  · exact .inl ⟨rfl, by simp [operandsWritten, hd, w2]⟩
  · exact .inl ⟨rfl, by simp [operandsWritten, hd, w1]⟩
  · exact .inl ⟨rfl, by simp [operandsWritten, hd, w1]⟩

/-! ### No command raises DivByZero (R36) -/

theorem addResult_divByZero (p : Params) (a b : DecOperand) : (addResult p a b).new.has .divByZero = false := by
  have al : ∀ lim rm neg lo diff hi new, SignalSet.has new .divByZero = false →
      (alignLoop lim rm neg lo diff hi new).new.has .divByZero = false := by
    intro lim rm neg lo diff
    induction diff with
    | zero => intro hi new h; exact h
    | succ d ih => intro hi new h; simp only [alignLoop]; split
                   · exact h
                   · apply ih; simp [has_or, has_single, has_raiseIf, h]
  have ad : ∀ rm hi lo, (addAligned p rm hi lo).new.has .divByZero = false := by
    intro rm hi lo
    simp only [addAligned, has_or, (normOf_quiet _ _ _ _ _ _).2, al _ _ _ _ _ _ 0 (has_zero _), Bool.or_false]
  simp only [addResult]
  split <;> try (simp [nanResult, infResult, has_zero]; done)
  · split <;> simp [nanResult, infResult, has_zero, has_single]
  · simp only [addFinite]; split <;> exact ad _ _ _
theorem mulResult_divByZero (p : Params) (a b : DecOperand) : (mulResult p a b).new.has .divByZero = false := by
  simp only [mulResult]
  split <;> try (simp [nanResult, infResult, has_zero]; done)
  · split <;> simp [nanResult, infResult, has_zero, has_single]
  · split <;> simp [nanResult, infResult, has_zero, has_single]
  · exact (normOf_quiet _ _ _ _ _ _).2

/-! ### All commands -/

/-- Every command is its rule run in the command frame, and the rule of a legal one ends as `Ends` says. -/
theorem command_ends (i : Instr) (s : State) : ∃ rule, exec i s = runCommand i s rule ∧ (i.wf s.cfg.n = true →
    Ends i s rule) := by
  have nowr : ∀ i : Instr, readsX i = [] → readsD i = [] → operandsWritten i s :=
      by intro i h1 h2; simp [operandsWritten, h1, h2]
  have sigtwo : ∀ (x y : SignalSet) a b, x = cbSignals (s.dSlots a).cb.word → y = cbSignals (s.dSlots b).cb.word →
      (x ||| y).has .divByZero = true → ∃ q ∈ [a, b], (cbSignals (s.dSlots q).cb.word).has .divByZero = true := by
    intro x y a b hx hy h
    rw [has_or, Bool.or_eq_true] at h
    rcases h with h | h
    · exact ⟨a, by simp, by rw [← hx]; exact h⟩
    · exact ⟨b, by simp, by rw [← hy]; exact h⟩
  cases i with
  | mov rd a => exact ⟨_, rfl, fun _ => ends_readX _ _ a _ rfl rfl fun u h1 l how => ends_ok how
      (completed_writeX _ _ _ _ rfl l rfl)⟩
  | ldi rd imm => exact ⟨_, rfl, fun _ => ends_ok (nowr _ rfl rfl) (completed_writeX _ _ _ _ rfl (fun _ => by simp) rfl)⟩
  | lget rd a k => 
    refine ⟨_, rfl, fun _ => ends_readX _ _ a _ rfl rfl fun u h1 l how => ?_⟩
    split
    · exact ends_abort how rfl
    · exact ends_ok how (completed_writeX _ _ _ _ rfl (fun _ => by simp) rfl)
  | lset rd a k =>
    refine ⟨_, rfl, fun _ => ends_readX2 _ _ rd a _ rfl rfl fun u v h1 h2 how => ?_⟩
    split
    · exact ends_abort how rfl
    · exact ends_ok how (completed_writeX _ _ _ _ rfl (fun h => by simpa using length_of_readX h h1) rfl)
  | shl rd a b m =>
    refine ⟨_, rfl, fun hw => ends_readX2 _ _ a b _ rfl rfl fun u v h1 h2 how => ?_⟩
    simp [Instr.wf, Mode.notSaturating] at hw
    exact ends_finish _ _ _ _ _ _ _ rfl rfl (by simp [shiftLeft]) rfl (fun h => absurd h hw) (fun h _ => ⟨h, rfl⟩) how
  | shr rd a b m g =>
    refine ⟨_, rfl, fun hw => ends_readX2 _ _ a b _ rfl rfl fun u v h1 h2 how => ?_⟩
    simp [Instr.wf, Mode.notSaturating] at hw
    exact ends_finish _ _ _ _ _ _ _ rfl rfl (by simp [shiftRight]) rfl (fun h => absurd h hw) (fun h _ => ⟨h, rfl⟩) how
  | cmp a b g => 
    refine ⟨_, rfl, fun _ => ends_readX2 _ _ a b _ rfl rfl fun u v h1 h2 how => ends_ok how ?_⟩
    exact ⟨fun _ _ => rfl, fun _ _ => rfl, fun _ => ⟨rfl,rfl,rfl,rfl⟩, fun h => by simp [writesCmp] at h, rfl, rfl,
        rfl, rfl, rfl, rfl, .inr (by simp [writesX]), by simp [writesD], fun h => h, by simp [writesD], fun h => h⟩
  | add rd a b m g => exact ⟨_, rfl, fun _ => ends_readX2 _ _ a b _ rfl
      rfl fun u v h1 h2 how => ends_finish _ _ _ _ _ _ _ rfl rfl (by simp) rfl (fun _ _ => ⟨rfl,
          by cases g <;> simp [satAdd, patSigned]; split <;> simp⟩) (fun h _ => ⟨h, rfl⟩) how⟩
  | sub rd a b m g => exact ⟨_, rfl, fun _ => ends_readX2 _ _ a b _ rfl
      rfl fun u v h1 h2 how => ends_finish _ _ _ _ _ _ _ rfl rfl (by simp) rfl (fun _ _ => ⟨rfl,
          by cases g <;> simp [satSub, patSigned]; split <;> simp⟩) (fun h _ => ⟨h, rfl⟩) how⟩
  | mul rd a b m g => exact ⟨_, rfl, fun _ => ends_readX2 _ _ a b _ rfl
      rfl fun u v h1 h2 how => ends_finish _ _ _ _ _ _ _ rfl rfl (by simp) rfl (fun _ _ => ⟨rfl,
          by cases g <;> simp [satMul, patSigned]; split <;> simp⟩) (fun h _ => ⟨h, rfl⟩) how⟩
  | mulw rd e a b => exact ⟨_, rfl, fun _ => ends_readX2 _ _ a b _ rfl
      rfl fun u v h1 h2 how => ends_finish _ _ .wrapping false _ _ _ rfl rfl (by simp) rfl (by simp) (by simp) how⟩
  | divrem rd e a b m g =>
    refine ⟨_, rfl, fun hw => ends_readX2 _ _ a b _ rfl rfl fun u v h1 h2 how => ?_⟩
    simp [Instr.wf, Mode.notSaturating] at hw
    simp only [divremRule]
    split_ifs
    · exact ends_divZero _ _ _ rfl rfl (fun h => .inr ⟨h, rfl⟩) how
    · exact ends_finish _ _ _ _ _ _ _ rfl rfl (by simp) rfl (fun h => absurd h hw) (fun h _ => .inl ⟨h, rfl,
        by assumption⟩) how
    · exact ends_divZero _ _ _ rfl rfl (fun h => .inr ⟨h, rfl⟩) how
    · exact ends_finish _ _ _ false _ _ _ rfl rfl (by simp) rfl (fun h => absurd h hw) (by simp) how
  | divrd rd e a b m =>
    refine ⟨_, rfl, fun hw => ends_readX2 _ _ a b _ rfl rfl fun u v h1 h2 how => ?_⟩
    simp [Instr.wf, Mode.notSaturating] at hw
    simp only
    split_ifs
    · exact ends_divZero _ _ _ rfl rfl (fun h => ⟨h, rfl⟩) how
    · exact ends_finish _ _ _ false _ _ _ rfl rfl (by simp) rfl (fun h => absurd h hw) (by simp) how
  | divw rd e a b m =>
    refine ⟨_, rfl, fun hw => ends_readX2 _ _ a b _ rfl rfl fun u v h1 h2 how => ?_⟩
    simp [Instr.wf, Mode.notSaturating] at hw
    simp only [divwRule]
    split_ifs
    · exact ends_divZero _ _ _ rfl rfl (fun h => .inr ⟨h, rfl⟩) how
    · exact ends_finish _ _ _ _ _ _ _ rfl rfl (by simp) rfl (fun h => absurd h hw.1) (fun h _ => .inl ⟨h, rfl⟩) how
  | tpow10 rd k => 
    refine ⟨_, rfl, fun _ => ?_⟩
    simp only [tableRead]; split_ifs
    · exact ends_abort (nowr _ rfl rfl) rfl
    · exact ends_ok (nowr _ rfl rfl) (completed_writeX _ _ _ _ rfl (fun _ => by simp) rfl)
  | tpow5 rd k => 
    refine ⟨_, rfl, fun _ => ?_⟩
    simp only [tableRead]; split_ifs
    · exact ends_abort (nowr _ rfl rfl) rfl
    · exact ends_ok (nowr _ rfl rfl) (completed_writeX _ _ _ _ rfl (fun _ => by simp) rfl)
  | trmax rd k => 
    refine ⟨_, rfl, fun _ => ?_⟩
    simp only [tableRead]; split_ifs
    · exact ends_abort (nowr _ rfl rfl) rfl
    · exact ends_ok (nowr _ rfl rfl) (completed_writeX _ _ _ _ rfl (fun _ => by simp) rfl)
  | digits rd a => exact ⟨_, rfl, fun _ => ends_readX _ _ a _ rfl rfl fun u h1 l how => ends_ok how
      (completed_writeX _ _ _ _ rfl (fun _ => by simp) rfl)⟩
  | mulp10 rd a b m => exact ⟨_, rfl, fun _ => ends_readX2 _ _ a b _ rfl
      rfl fun u v h1 h2 how => ends_finish _ _ _ _ _ _ _ rfl rfl (by simp) rfl (fun _ _ => ⟨rfl, by simp⟩) (fun h _ =>
          ⟨h, rfl⟩) how⟩
  | divp10 rd e a b => exact ⟨_, rfl, fun _ => ends_readX2 _ _ a b _ rfl
      rfl fun u v h1 h2 how => ends_finish _ _ .wrapping false _ _ _ rfl rfl (by simp) rfl (by simp) (by simp) how⟩
  | dmake rd a g k => 
    refine ⟨_, rfl, fun _ => ends_readX _ _ a _ rfl rfl fun u h1 l how => ends_finishDecimal _ _ _ _ _ _ rfl rfl
        (by simp [has_zero]) (normOf_quiet _ _ _ _ _ _).2 (fun h => by cases h) ?_ how⟩
    intro g' hg
    rw [has_and] at hg
    have hq := normOf_quiet s.cfg (uval u) g (-sval16 k) Context.default.rm 0
    have : (SignalSet.has Context.default.traps g' = true) → g' = .overflow ∨ g' = .invalid ∨ g' = .divByZero :=
        by revert g'; intro g' _; cases g' <;> decide
    simp only [Bool.and_eq_true] at hg
    rcases this hg.2 with h | h | h
    · subst h; rfl
    · subst h; rw [hq.1] at hg; simp at hg
    · subst h; rw [hq.2] at hg; simp at hg
  | dctx rd a m k =>
    refine ⟨_, rfl, fun _ => ends_readD _ _ a _ rfl rfl fun u h1 l e1 m1 how => ?_⟩
    rcases readDec_ends u with ⟨x, hx1, hx2, hx3⟩ | hx1
    · simp only [hx1, bind, Except.bind]
      refine ends_ok how (completed_writeD _ _ _ _ rfl rfl l ?_ ?_)
      · intro h; simp at h; exact ⟨a, by simp [readsD], by rw [← e1]; exact h⟩
      · intro _; simpa [cbWellFormed] using hx3
    · simp only [hx1, bind, Except.bind]; exact ends_abort how rfl
  | dmov rd a =>
    refine ⟨_, rfl, fun _ => ends_readD _ _ a _ rfl rfl fun u h1 l e1 m1 how => ends_ok how (completed_writeD _ _ _ _
        rfl rfl l ?_ ?_)⟩
    · intro h; exact ⟨a, by simp [readsD], by rw [← e1]; exact h⟩
    · intro h; rw [e1]; exact h a m1
  | dcoef rd a => exact ⟨_, rfl, fun _ => ends_readD _ _ a _ rfl rfl fun u h1 l e1 m1 how => ends_ok how
      (completed_writeX _ _ _ _ rfl l rfl)⟩
  | dcb rd a => exact ⟨_, rfl, fun _ => ends_readD _ _ a _ rfl rfl fun u h1 l e1 m1 how => ends_ok how
      (completed_writeX _ _ _ _ rfl (fun _ => by simp) rfl)⟩
  | dadd rd a b =>
    refine ⟨_, rfl, fun _ => ends_readDec2 (.dadd rd a b) s a b _ (Or.inl rfl) rfl
        rfl fun u v h1 h2 how => ends_finishDecimal (.dadd rd a b) _ _ _ _ _ rfl rfl (sigtwo _ _ a b h1 h2)
            (addResult_divByZero _ _ _) (fun _ => Or.inr (Or.inl rfl)) ?_ how⟩
    intro g hg; refine .inr (.inr ⟨g, rfl, ?_⟩); rintro rfl; rw [has_and, addResult_divByZero] at hg; simp at hg
  | dsub rd a b =>
    refine ⟨_, rfl, fun _ => ends_readDec2 (.dsub rd a b) s a b _ (Or.inl rfl) rfl
        rfl fun u v h1 h2 how => ends_finishDecimal (.dsub rd a b) _ _ _ _ _ rfl rfl (sigtwo _ _ a b h1 h2)
            (addResult_divByZero _ _ _) (fun _ => Or.inr (Or.inl rfl)) ?_ how⟩
    intro g hg; refine .inr (.inr ⟨g, rfl, ?_⟩); rintro rfl; rw [has_and, addResult_divByZero] at hg; simp at hg
  | dmul rd a b =>
    refine ⟨_, rfl, fun _ => ends_readDec2 (.dmul rd a b) s a b _ (Or.inl rfl) rfl
        rfl fun u v h1 h2 how => ends_finishDecimal (.dmul rd a b) _ _ _ _ _ rfl rfl (sigtwo _ _ a b h1 h2)
            (mulResult_divByZero _ _ _) (fun _ => Or.inr (Or.inl rfl)) ?_ how⟩
    intro g hg; refine .inr (.inr ⟨g, rfl, ?_⟩); rintro rfl; rw [has_and, mulResult_divByZero] at hg; simp at hg
  | dround rd a t =>
    refine ⟨_, rfl, fun _ => ends_readD _ _ a _ rfl rfl fun u h1 l e1 m1 how => ?_⟩
    rcases readDec_ends u with ⟨x, hx1, hx2, hx3⟩ | hx1
    · simp only [hx1, bind, Except.bind]
      have hq : Quiet (roundResult s.cfg x (sval16 t)) := by
        simp only [roundResult]; split
        · simp [Quiet, nanResult, has_zero]
        · simp [Quiet, infResult, has_zero]
        · exact normOf_quiet _ _ _ _ _ _
      refine ends_finishDecimal _ _ _ _ _ _ rfl rfl ?_ hq.2 (fun _ => .inr (.inl rfl)) ?_ how
      · intro h; exact ⟨a, by simp [readsD], by rw [← e1, ← hx2]; exact h⟩
      · intro g hg; refine .inr (.inr ⟨g, rfl, ?_, ?_⟩) <;> rintro rfl <;> rw [has_and] at hg
        · rw [hq.2] at hg; simp at hg
        · rw [hq.1] at hg; simp at hg
    · simp only [hx1, bind, Except.bind]; exact ends_abort how (.inl rfl)
  | dtrunc rd a t =>
    refine ⟨_, rfl, fun _ => ends_readD _ _ a _ rfl rfl fun u h1 l e1 m1 how => ?_⟩
    rcases readDec_ends u with ⟨x, hx1, hx2, hx3⟩ | hx1
    · simp only [hx1, bind, Except.bind]
      have hq : Quiet (truncResult s.cfg x (sval16 t)) := by
        simp only [truncResult]; split
        · simp [Quiet, nanResult, has_zero]
        · simp [Quiet, infResult, has_zero]
        · exact normOf_quiet _ _ _ _ _ _
      refine ends_finishDecimal _ _ _ _ _ _ rfl rfl ?_ hq.2 (fun _ => .inr (.inl rfl)) ?_ how
      · intro h; exact ⟨a, by simp [readsD], by rw [← e1, ← hx2]; exact h⟩
      · intro g hg; refine .inr (.inr ⟨g, rfl, ?_, ?_⟩) <;> rintro rfl <;> rw [has_and] at hg
        · rw [hq.2] at hg; simp at hg
        · rw [hq.1] at hg; simp at hg
    · simp only [hx1, bind, Except.bind]; exact ends_abort how (.inl rfl)

end Sys2Proof.Machine
end

