-- ==== Sys2Proof/Laws/Finish.lean ====
section
/-! SUPPORT. From how a meaning ends (Finish, a plain write, an abort, the end of a decimal command) to what it leaves, in the terms of
Safety; with the small facts about limbs, tables and exponents that the meanings rest on. -/

namespace Sys2Proof.Machine

theorem uval_zext_lt {n v : Nat} (h : v < 2 ^ (64 * n)) : uval (zext n v) = v := by
  rw [uval_zext, show modulus n = 2 ^ (64 * n) from rfl, Nat.mod_eq_of_lt h]

/-! ### Endings -/

/-- A command that ends in `Finish` with one destination (R144). -/
theorem finishesAs_of_finish {i : Instr} {s : State} {mode : Mode} {exc : Bool} {f : ArithFlags} {rd : XIdx} {v sat : Nat}
    {r rs : LimbArray} {sats : List XWrite}
    (hw : i.wf s.cfg.n = true)
    (he : exec i s = runCommand i s (finish mode (onOverflow exc) [(rd, r)] sats f s))
    (hr : r.length = s.cfg.n) (hv : uval r = v)
    (hs : mode = .saturating → exc = true → sats = [(rd, rs)] ∧ rs.length = s.cfg.n ∧ uval rs = sat) :
    finishesAs i s mode exc f rd v sat := by
  unfold finishesAs abortsWith
  rw [he]
  by_cases hm : mode = .strict ∧ exc = true
  · rw [if_pos hm]; obtain ⟨rfl, rfl⟩ := hm
    simp only [onOverflow, finish, if_true]
    rw [runCommand_abort hw]; rfl
  · rw [if_neg hm]
    have key : ∀ (w : LimbArray) (u : Nat) (b : Bool), w.length = s.cfg.n → uval w = u →
        State.keepsAllButX ((s.writeXs [(rd, w)]).putArith f b) s [rd] ∧
        State.holdsX ((s.writeXs [(rd, w)]).putArith f b) rd u := by
      intro w u b hl hu
      refine ⟨⟨fun q hq => ?_, rfl, rfl, rfl, rfl, rfl, rfl, rfl⟩, w, ?_, hl, hu⟩
      · simp only [List.mem_singleton] at hq
        simp [xSlots_writeX_ne _ _ hq]
      · simp
    cases exc <;> cases mode <;> simp only [onOverflow, finish, if_true, Bool.false_eq_true, if_false] at * <;> first
      | (exact absurd (And.intro trivial trivial) hm)
      | (rw [runCommand_ok hw]
         exact ⟨_, rfl, (key r v _ hr hv).1, rfl, by simpa using (key r v false hr hv).2⟩)
      | (rw [runCommand_ok hw]
         refine ⟨_, rfl, ⟨fun q _ => rfl, rfl, rfl, rfl, rfl, rfl, rfl, rfl⟩, rfl, by simp⟩)
      | (obtain ⟨rfl, h2, h3⟩ := hs trivial trivial
         rw [runCommand_ok hw]
         exact ⟨_, rfl, (key rs sat _ h2 h3).1, rfl, by simpa using (key rs sat false h2 h3).2⟩)

/-- A command that ends in `Finish` with two destinations (R15, R144). -/
theorem finishesAsPair_of_finish {i : Instr} {s : State} {mode : Mode} {exc : Bool} {f : ArithFlags} {rd rd2 : XIdx} {v v2 : Nat}
    {r r2 : LimbArray} {sats : List XWrite} (hmode : mode ≠ .saturating)
    (hw : i.wf s.cfg.n = true)
    (he : exec i s = runCommand i s (finish mode (onOverflow exc) [(rd, r), (rd2, r2)] sats f s))
    (hr : r.length = s.cfg.n) (hv : uval r = v) (hr2 : r2.length = s.cfg.n) (hv2 : uval r2 = v2) :
    finishesAsPair i s mode exc f rd rd2 v v2 := by
  unfold finishesAsPair abortsWith
  rw [he]
  by_cases hm : mode = .strict ∧ exc = true
  · rw [if_pos hm]; obtain ⟨rfl, rfl⟩ := hm
    simp only [onOverflow, finish, if_true]
    rw [runCommand_abort hw]; rfl
  · rw [if_neg hm]
    have key : ∀ (b : Bool),
        State.keepsAllButX ((s.writeXs [(rd, r), (rd2, r2)]).putArith f b) s [rd, rd2] ∧
        (rd ≠ rd2 → State.holdsX ((s.writeXs [(rd, r), (rd2, r2)]).putArith f b) rd v) ∧
        State.holdsX ((s.writeXs [(rd, r), (rd2, r2)]).putArith f b) rd2 v2 := by
      intro b
      refine ⟨⟨fun q hq => ?_, rfl, rfl, rfl, rfl, rfl, rfl, rfl⟩, fun hne => ⟨r, ?_, hr, hv⟩, r2, ?_, hr2, hv2⟩
      · simp only [List.mem_cons, List.not_mem_nil, or_false, not_or] at hq
        simp [xSlots_writeX_ne _ _ hq.1, xSlots_writeX_ne _ _ hq.2]
      · simp [readX_writeX_ne _ _ hne]
      · simp
    cases exc <;> cases mode <;> simp only [onOverflow, finish, if_true, Bool.false_eq_true, if_false] at * <;> first
      | (exact absurd (And.intro trivial trivial) hm)
      | (exact absurd rfl hmode)
      | (rw [runCommand_ok hw]
         exact ⟨_, rfl, (key _).1, rfl, by simpa using (key false).2⟩)
      | (rw [runCommand_ok hw]
         refine ⟨_, rfl, ⟨fun q _ => rfl, rfl, rfl, rfl, rfl, rfl, rfl, rfl⟩, rfl, by simp⟩)

/-- A command that only writes one integer register. -/
theorem writesValue_of_ok {i : Instr} {s : State} {rd : XIdx} {v : Nat} {r : LimbArray} {rule : Except Stop State}
    (hw : i.wf s.cfg.n = true) (he : exec i s = runCommand i s rule) (hrule : rule = .ok (s.writeX rd r))
    (hr : r.length = s.cfg.n) (hv : uval r = v) : writesValue i s rd v := by
  subst hrule
  refine ⟨s.writeX rd r, by rw [he, runCommand_ok hw], ⟨r, by simp, hr, hv⟩, ⟨fun q hq => ?_, rfl, rfl, rfl, rfl, rfl, rfl, rfl⟩, rfl⟩
  simp only [List.mem_singleton] at hq
  exact xSlots_writeX_ne _ _ hq

/-- A command whose rule raises an abort (R345). -/
theorem abortsWith_of_error {i : Instr} {s : State} {c : Cause} {rule : Except Stop State}
    (hw : i.wf s.cfg.n = true) (he : exec i s = runCommand i s rule) (hrule : rule = .error (.abort c)) : abortsWith i s c := by
  subst hrule
  unfold abortsWith
  rw [he, runCommand_abort hw]; rfl

/-- A decimal command whose result fits (R271 to R273). -/
theorem finishesDecimal_of_finish {i : Instr} {s : State} {rd : DIdx} {r : NormResult} {inh : SignalSet} {ctx : Context}
   (hw : i.wf s.cfg.n = true) (he : exec i s = runCommand i s (finishDecimal rd r inh ctx s))
   (h1 : r.kind = .finite → r.coef < 2^(64*s.cfg.n) ∧ sval16 (pat16 (-r.exp)) = -r.exp) :
   finishesDecimal i s rd r inh ctx := by
  unfold finishesDecimal
  by_cases hst : ctx.rm = .strict ∧ r.new.has .inexact = true
  · rw [if_pos hst]
    refine abortsWith_of_error (rule := _) hw he ?_
    unfold Machine.finishDecimal; rw [if_pos hst]
  · rw [if_neg hst]
    constructor
    · intro g before after hl hb hg
      refine abortsWith_of_error (rule := _) hw he ?_
      unfold Machine.finishDecimal; rw [if_neg hst]
      have : firstTrapped (r.new &&& ctx.traps) = some g := by
        show List.find? _ signalPriority = _
        rw [show signalPriority = before ++ g :: after from hl, List.find?_append]
        rw [List.find?_eq_none.2 (fun x hx => by simp [hb x hx])]
        simp [hg]
      rw [this]
    · intro hg
      rw [finishDecimal_of_quiet hst hg] at he
      refine ⟨s.writeD rd (resultWord s.cfg.n r inh ctx), _, by rw [he, runCommand_ok hw], ⟨fun q hq => ?_, rfl, rfl, rfl, rfl, rfl, rfl, rfl, rfl⟩, readD_writeD_self _ _ _, ?_⟩
      · exact dSlots_writeD_ne _ _ hq
      · simp only [resultWord, cbSign_packCb, cbSpecial_packCb, cbScale_packCb, cbSignals_packCb, cbRm_packCb, cbTraps_packCb, cbReserved_packCb, length_zext, true_and, and_true]
        refine ⟨?_, ?_, ?_⟩
        · split
          · rename_i h; exact uval_zext_lt (h1 h).1
          · exact uval_zext_lt (by positivity)
        · split
          · rename_i h; exact (h1 h).2
          · rfl
        · cases r.kind <;> simp

/-! ### Limbs -/

theorem limb_zero_toNat (a : LimbArray) : (limb a 0).toNat = uval a % 2 ^ 64 := by
  cases a with
  | nil => rfl
  | cons w ws => simp [limb, uval, Nat.mod_eq_of_lt w.isLt]

/-- Limb `i` is bits `64i+63 .. 64i` of the BigUInt reading (R11). -/
theorem limb_toNat (a : LimbArray) (i : Nat) : (limb a i).toNat = uval a / 2^(64*i) % 2^64 := by
  induction i generalizing a with
  | zero => simpa using limb_zero_toNat a
  | succ i ih =>
    cases a with
    | nil => simp [limb, uval]
    | cons w ws =>
      have : (limb (w::ws) (i+1)) = limb ws i := by simp [limb]
      rw [this, ih]
      have h1 : uval (w :: ws) = w.toNat + 2^64 * uval ws := rfl
      have h2 : 2^(64*(i+1)) = 2^64 * 2^(64*i) := by rw [← pow_add]; congr 1; ring
      rw [h1, h2, ← Nat.div_div_eq_div_mul]
      rw [Nat.add_mul_div_left _ _ (by positivity), Nat.div_eq_of_lt w.isLt, Nat.zero_add]

/-! ### Tables and exponents -/

/-- The largest exponent whose power fits (R9). -/
theorem pow_le_maxU_iff (b : Nat) (hb : 2 ≤ b) (n k : Nat) : b ^ k ≤ maxU n ↔ k ≤ digitCount b (maxU n) - 1 ∧ 1 ≤ n := by
  obtain ⟨h1, h2, h3⟩ := digitCount_spec hb (maxU n)
  rcases Nat.eq_zero_or_pos n with rfl | hn
  · have : maxU 0 = 0 := rfl
    have := Nat.pow_pos (n := k) (show 0 < b by omega)
    simp; omega
  · have hm := one_le_maxU hn
    constructor
    · intro h
      refine ⟨?_, hn⟩
      by_contra hc
      have : b ^ digitCount b (maxU n) ≤ b ^ k := Nat.pow_le_pow_right (by omega) (by omega)
      omega
    · rintro ⟨h, _⟩
      exact le_trans (Nat.pow_le_pow_right (by omega) h) (h3 (by omega))

/-- Cutting the amount at `64N` changes no result of MULP10 and DIVP10 (log 12). -/
theorem powerFor_eq (n k u : Nat) (hu : u < 2^(64*n)) :
   (2^(64*n) ≤ u * 10^k ↔ 2^(64*n) ≤ u * powerFor n k) ∧ (u * 10^k % 2^(64*n) = u * powerFor n k % 2^(64*n)) ∧
   u / 10^k = u / powerFor n k ∧ u % 10^k = u % powerFor n k := by
  by_cases h : k ≤ 64*n
  · have : powerFor n k = 10^k := by simp only [powerFor, width]; rw [Nat.min_eq_left h]
    rw [this]; simp
  · have e : powerFor n k = 10^(64*n) := by simp only [powerFor, width]; rw [Nat.min_eq_right (by omega)]
    have d1 : ∀ j, 64*n ≤ j → 2^(64*n) ∣ 10^j := fun j hj => Dvd.dvd.trans (pow_dvd_pow 2 hj) (pow_dvd_pow_of_dvd (by norm_num) j)
    have l1 : ∀ j, 64*n ≤ j → 2^(64*n) ≤ 10^j := fun j hj => Nat.le_of_dvd (by positivity) (d1 j hj)
    have l2 := l1 k (by omega)
    have l3 := l1 (64*n) (le_refl _)
    rw [e]
    refine ⟨?_, ?_, ?_, ?_⟩
    · rcases Nat.eq_zero_or_pos u with rfl | h0
      · simp
      · constructor <;> intro _ <;> nlinarith
    · rw [Nat.mod_eq_zero_of_dvd (Dvd.dvd.mul_left (d1 k (by omega)) u), Nat.mod_eq_zero_of_dvd (Dvd.dvd.mul_left (d1 _ (le_refl _)) u)]
    · rw [Nat.div_eq_of_lt (by omega), Nat.div_eq_of_lt (by omega)]
    · rw [Nat.mod_eq_of_lt (by omega), Nat.mod_eq_of_lt (by omega)]

/-- An `i16` holds every scale in its range (R273). -/
theorem sval16_pat16 (x : Int) (h1 : -32768 ≤ x) (h2 : x ≤ 32767) : sval16 (pat16 x) = x := by
  simp only [sval16, pat16, BitVec.toInt_ofInt]
  exact Int.bmod_eq_of_le (by omega) (by omega)

/-- The shift count is the least one that fits (R266). -/
theorem fitCount_spec (p : Params) (m : Nat) (neg : Bool) (rm : RoundMode) (kreq : Nat) (hp : p.legal) :
   let k0 := fitCount (maxU p.n) m neg rm kreq
   kreq ≤ k0 ∧ roundDiv m k0 neg rm ≤ maxU p.n ∧ (∀ j, kreq ≤ j → j < k0 → maxU p.n < roundDiv m j neg rm) := by
  intro k0
  obtain ⟨h1, h2, h3, h4⟩ := leastFit_spec (maxU p.n) m neg rm (dc m) kreq
  refine ⟨h1, ?_, h3⟩
  rcases h4 with h4 | h4
  · exact h4
  · have : roundDiv m (kreq + dc m) neg rm ≤ 1 := roundDiv_le_one neg rm (lt_of_lt_of_le (lt_pow_dc m) (Nat.pow_le_pow_right (by omega) (by omega)))
    have := one_le_maxU hp.1
    show roundDiv m (leastFit _ _ _ _ _ _) neg rm ≤ _
    rw [h4]; omega

end Sys2Proof.Machine
end

