-- ==== Sys2Proof/Laws/HostPort.lean ====
section
/-! SUPPORT. The host-port map (R86): what each offset names. -/

namespace Sys2Proof.Machine

@[simp] theorem portMap_command (n : Nat) : portMap n offCommand = .command := rfl

@[simp] theorem portMap_reset (n : Nat) : portMap n offReset = .reset := by
  simp [portMap, offReset, offCommand, offStatus, offAbortCmd, offFlags, offConfig]

/-- The offset of a limb of an integer register. -/
theorem portMap_offX {n : Nat} (hn : n ≤ 255) (r : XIdx) (j : Nat) (hj : j < n) : portMap n (offX r j) = .xLimb r j := by
  have h1 : (offX r j).toNat = 0x1000 + 0x100 * r.toNat + j := by simp [offX]; have := r.isLt; omega
  have h2 : (offX r j).extractLsb' 12 4 = 1 := by
    apply BitVec.eq_of_toNat_eq; simp [BitVec.extractLsb'_toNat, h1, Nat.shiftRight_eq_div_pow]; have := r.isLt; omega
  have h3 : (offX r j).extractLsb' 8 4 = r := by
    apply BitVec.eq_of_toNat_eq; simp [BitVec.extractLsb'_toNat, h1, Nat.shiftRight_eq_div_pow]; have := r.isLt; omega
  have h4 : ((offX r j).extractLsb' 0 8).toNat = j := by
    simp [BitVec.extractLsb'_toNat, h1]; have := r.isLt; omega
  have hne : ∀ v : BitVec 16, v.toNat < 0x1000 → offX r j ≠ v := by intro v hv h; rw [← h] at hv; omega
  simp only [portMap, h2, h3, h4]
  rw [if_neg (hne _ (by decide)), if_neg (hne _ (by decide)), if_neg (hne _ (by decide)),
    if_neg (hne _ (by decide)), if_neg (hne _ (by decide)), if_neg (hne _ (by decide))]
  simp [hj]

/-- The offset of a limb of a coefficient. -/
theorem portMap_offD {n : Nat} (hn : n ≤ 255) (r : DIdx) (j : Nat) (hj : j < n) : portMap n (offD r j) = .dLimb r j := by
  have h1 : (offD r j).toNat = 0x2000 + 0x100 * r.toNat + j := by simp [offD]; have := r.isLt; omega
  have h2 : (offD r j).extractLsb' 12 4 = 2 := by
    apply BitVec.eq_of_toNat_eq; simp [BitVec.extractLsb'_toNat, h1, Nat.shiftRight_eq_div_pow]; have := r.isLt; omega
  have h3 : (offD r j).extractLsb' 8 4 = r := by
    apply BitVec.eq_of_toNat_eq; simp [BitVec.extractLsb'_toNat, h1, Nat.shiftRight_eq_div_pow]; have := r.isLt; omega
  have h4 : ((offD r j).extractLsb' 0 8).toNat = j := by
    simp [BitVec.extractLsb'_toNat, h1]; have := r.isLt; omega
  have hne : ∀ v : BitVec 16, v.toNat < 0x1000 → offD r j ≠ v := by intro v hv h; rw [← h] at hv; omega
  simp only [portMap, h2, h3, h4]
  rw [if_neg (hne _ (by decide)), if_neg (hne _ (by decide)), if_neg (hne _ (by decide)),
    if_neg (hne _ (by decide)), if_neg (hne _ (by decide)), if_neg (hne _ (by decide))]
  simp [hj]; omega

/-- The offset of a control block. -/
theorem portMap_offCb {n : Nat} (r : DIdx) : portMap n (offCb r) = .dCb r := by
  have h1 : (offCb r).toNat = 0x2000 + 0x100 * r.toNat + 0xFF := by simp [offCb]; have := r.isLt; omega
  have h2 : (offCb r).extractLsb' 12 4 = 2 := by
    apply BitVec.eq_of_toNat_eq; simp [BitVec.extractLsb'_toNat, h1, Nat.shiftRight_eq_div_pow]; have := r.isLt; omega
  have h3 : (offCb r).extractLsb' 8 4 = r := by
    apply BitVec.eq_of_toNat_eq; simp [BitVec.extractLsb'_toNat, h1, Nat.shiftRight_eq_div_pow]; have := r.isLt; omega
  have h4 : ((offCb r).extractLsb' 0 8).toNat = 0xFF := by
    simp [BitVec.extractLsb'_toNat, h1]; have := r.isLt; omega
  have hne : ∀ v : BitVec 16, v.toNat < 0x1000 → offCb r ≠ v := by intro v hv h; rw [← h] at hv; omega
  simp only [portMap, h2, h3, h4]
  rw [if_neg (hne _ (by decide)), if_neg (hne _ (by decide)), if_neg (hne _ (by decide)),
    if_neg (hne _ (by decide)), if_neg (hne _ (by decide)), if_neg (hne _ (by decide))]
  simp

/-- Every other offset above the control words is unlisted. -/
theorem portMap_unlisted {n : Nat} (off : BitVec 16) (h : ¬ registerOffset n off) (h5 : 5 < off.toNat) : portMap n off = .unlisted := by
  simp only [registerOffset, not_or, not_exists, not_and] at h
  have hne : ∀ v : BitVec 16, v.toNat ≤ 5 → off ≠ v := by intro v hv h; rw [← h] at hv; omega
  simp only [portMap]
  rw [if_neg (hne _ (by decide)), if_neg (hne _ (by decide)), if_neg (hne _ (by decide)),
    if_neg (hne _ (by decide)), if_neg (hne _ (by decide)), if_neg (hne _ (by decide))]
  have e12 : (off.extractLsb' 12 4).toNat = off.toNat / 4096 := by simp [BitVec.extractLsb'_toNat, Nat.shiftRight_eq_div_pow]; omega
  have e8 : (off.extractLsb' 8 4).toNat = off.toNat / 256 % 16 := by simp [BitVec.extractLsb'_toNat, Nat.shiftRight_eq_div_pow]
  have e0 : (off.extractLsb' 0 8).toNat = off.toNat % 256 := by simp [BitVec.extractLsb'_toNat]
  split
  · rename_i hp
    have hp' := congrArg BitVec.toNat hp; rw [e12] at hp'; simp at hp'
    split
    · rename_i hj
      exact absurd (by apply BitVec.eq_of_toNat_eq; simp [offX, e8, e0]; omega) (h.1 (off.extractLsb' 8 4) _ hj)
    · rfl
  · split
    · rename_i hp
      have hp' := congrArg BitVec.toNat hp; rw [e12] at hp'; simp at hp'
      split
      · rename_i hj
        exact absurd (by apply BitVec.eq_of_toNat_eq; simp [offCb, e8]; omega) (h.2.2 (off.extractLsb' 8 4))
      · split
        · rename_i hj
          exact absurd (by apply BitVec.eq_of_toNat_eq; simp [offD, e8, e0]; omega) (h.2.1 (off.extractLsb' 8 4) _ hj)
        · rfl
    · rfl

theorem slotAt_of_getElem {r : List Slot} {j : Nat} {w : Slot} (h : r[j]? = some w) : slotAt r j = w := by
  simp [slotAt, List.getD, h]

end Sys2Proof.Machine
end

