-- ==== Sys2Proof/Laws/PerInstr.lean ====
section
/-! SUPPORT. Per-instruction family TableRow: the encoded word of a command fits its row of the opcode map (R109). -/

namespace Sys2Proof.Laws

/-- The word of a command has its row's opcode, and its must-be-zero bits are clear: `w & mask = match` (R108, R109). -/
def TableRow.Statement (i : Instr) : Prop :=
  ∃ row ∈ opcodeMap, row.name = opcodeOf i ∧ fieldOp (encode i) = row.op ∧ encode i &&& row.mask = row.pattern

theorem TableRow.mov (rd : XIdx) (rs1 : XIdx) : TableRow.Statement (.mov rd rs1) := by
  refine ⟨⟨.mov, 0x01#6, .r, 0x04000000#32, 0xFC03FFFF#32, [.wrapping], [false]⟩, by decide, rfl, by simp [encode], ?_⟩
  simp (disch := decide) only [encode, encodeR, or_and_distrib, place_and_clear, place_and_keep]
  decide

theorem TableRow.ldi (rd : XIdx) (imm : BitVec 16) : TableRow.Statement (.ldi rd imm) := by
  refine ⟨⟨.ldi, 0x02#6, .i, 0x08000000#32, 0xFC3F0000#32, [], []⟩, by decide, rfl, by simp [encode], ?_⟩
  simp (disch := decide) only [encode, encodeI, or_and_distrib, place_and_clear, place_and_keep]
  decide

theorem TableRow.lget (rd : XIdx) (rs1 : XIdx) (idx : BitVec 16) : TableRow.Statement (.lget rd rs1 idx) := by
  refine ⟨⟨.lget, 0x03#6, .i, 0x0C000000#32, 0xFC030000#32, [], []⟩, by decide, rfl, by simp [encode], ?_⟩
  simp (disch := decide) only [encode, encodeI, or_and_distrib, place_and_clear, place_and_keep]
  decide

theorem TableRow.lset (rd : XIdx) (rs1 : XIdx) (idx : BitVec 16) : TableRow.Statement (.lset rd rs1 idx) := by
  refine ⟨⟨.lset, 0x04#6, .i, 0x10000000#32, 0xFC030000#32, [], []⟩, by decide, rfl, by simp [encode], ?_⟩
  simp (disch := decide) only [encode, encodeI, or_and_distrib, place_and_clear, place_and_keep]
  decide

theorem TableRow.shl (rd : XIdx) (rs1 : XIdx) (rs2 : XIdx) (mode : Mode) : TableRow.Statement (.shl rd rs1 rs2 mode) := by
  refine ⟨⟨.shl, 0x08#6, .r, 0x20000000#32, 0xFC003C7F#32, Mode.toStrict, [false]⟩, by decide, rfl, by simp [encode], ?_⟩
  simp (disch := decide) only [encode, encodeR, or_and_distrib, place_and_clear, place_and_keep]
  decide

theorem TableRow.shr (rd : XIdx) (rs1 : XIdx) (rs2 : XIdx) (mode : Mode) (sgn : Bool) : TableRow.Statement (.shr rd rs1 rs2 mode sgn) := by
  refine ⟨⟨.shr, 0x09#6, .r, 0x24000000#32, 0xFC003C3F#32, Mode.toStrict, [false, true]⟩, by decide, rfl, by simp [encode], ?_⟩
  simp (disch := decide) only [encode, encodeR, or_and_distrib, place_and_clear, place_and_keep]
  decide

theorem TableRow.cmp (rs1 : XIdx) (rs2 : XIdx) (sgn : Bool) : TableRow.Statement (.cmp rs1 rs2 sgn) := by
  refine ⟨⟨.cmp, 0x10#6, .r, 0x40000000#32, 0xFFC03FBF#32, [.wrapping], [false, true]⟩, by decide, rfl, by simp [encode], ?_⟩
  simp (disch := decide) only [encode, encodeR, or_and_distrib, place_and_clear, place_and_keep]
  decide

theorem TableRow.add (rd : XIdx) (rs1 : XIdx) (rs2 : XIdx) (mode : Mode) (sgn : Bool) : TableRow.Statement (.add rd rs1 rs2 mode sgn) := by
  refine ⟨⟨.add, 0x11#6, .r, 0x44000000#32, 0xFC003C3F#32, Mode.all, [false, true]⟩, by decide, rfl, by simp [encode], ?_⟩
  simp (disch := decide) only [encode, encodeR, or_and_distrib, place_and_clear, place_and_keep]
  decide

theorem TableRow.sub (rd : XIdx) (rs1 : XIdx) (rs2 : XIdx) (mode : Mode) (sgn : Bool) : TableRow.Statement (.sub rd rs1 rs2 mode sgn) := by
  refine ⟨⟨.sub, 0x12#6, .r, 0x48000000#32, 0xFC003C3F#32, Mode.all, [false, true]⟩, by decide, rfl, by simp [encode], ?_⟩
  simp (disch := decide) only [encode, encodeR, or_and_distrib, place_and_clear, place_and_keep]
  decide

theorem TableRow.mul (rd : XIdx) (rs1 : XIdx) (rs2 : XIdx) (mode : Mode) (sgn : Bool) : TableRow.Statement (.mul rd rs1 rs2 mode sgn) := by
  refine ⟨⟨.mul, 0x13#6, .r, 0x4C000000#32, 0xFC003C3F#32, Mode.all, [false, true]⟩, by decide, rfl, by simp [encode], ?_⟩
  simp (disch := decide) only [encode, encodeR, or_and_distrib, place_and_clear, place_and_keep]
  decide

theorem TableRow.mulw (rd : XIdx) (rd2 : XIdx) (rs1 : XIdx) (rs2 : XIdx) : TableRow.Statement (.mulw rd rd2 rs1 rs2) := by
  refine ⟨⟨.mulw, 0x14#6, .r, 0x50000000#32, 0xFC0003FF#32, [.wrapping], [false]⟩, by decide, rfl, by simp [encode], ?_⟩
  simp (disch := decide) only [encode, encodeR, or_and_distrib, place_and_clear, place_and_keep]
  decide

theorem TableRow.divrem (rd : XIdx) (rd2 : XIdx) (rs1 : XIdx) (rs2 : XIdx) (mode : Mode) (sgn : Bool) : TableRow.Statement (.divrem rd rd2 rs1 rs2 mode sgn) := by
  refine ⟨⟨.divrem, 0x18#6, .r, 0x60000000#32, 0xFC00003F#32, Mode.toStrict, [false, true]⟩, by decide, rfl, by simp [encode], ?_⟩
  simp (disch := decide) only [encode, encodeR, or_and_distrib, place_and_clear, place_and_keep]
  decide

theorem TableRow.divrd (rd : XIdx) (rd2 : XIdx) (rs1 : XIdx) (rs2 : XIdx) (mode : Mode) : TableRow.Statement (.divrd rd rd2 rs1 rs2 mode) := by
  refine ⟨⟨.divrd, 0x19#6, .r, 0x64000000#32, 0xFC00007F#32, Mode.toStrict, [false]⟩, by decide, rfl, by simp [encode], ?_⟩
  simp (disch := decide) only [encode, encodeR, or_and_distrib, place_and_clear, place_and_keep]
  decide

theorem TableRow.divw (rd : XIdx) (rd2 : XIdx) (rs1 : XIdx) (rs2 : XIdx) (mode : Mode) : TableRow.Statement (.divw rd rd2 rs1 rs2 mode) := by
  refine ⟨⟨.divw, 0x1A#6, .r, 0x68000000#32, 0xFC00007F#32, Mode.toStrict, [false]⟩, by decide, rfl, by simp [encode], ?_⟩
  simp (disch := decide) only [encode, encodeR, or_and_distrib, place_and_clear, place_and_keep]
  decide

theorem TableRow.tpow10 (rd : XIdx) (k : BitVec 16) : TableRow.Statement (.tpow10 rd k) := by
  refine ⟨⟨.tpow10, 0x20#6, .i, 0x80000000#32, 0xFC3F0000#32, [], []⟩, by decide, rfl, by simp [encode], ?_⟩
  simp (disch := decide) only [encode, encodeI, or_and_distrib, place_and_clear, place_and_keep]
  decide

theorem TableRow.tpow5 (rd : XIdx) (k : BitVec 16) : TableRow.Statement (.tpow5 rd k) := by
  refine ⟨⟨.tpow5, 0x21#6, .i, 0x84000000#32, 0xFC3F0000#32, [], []⟩, by decide, rfl, by simp [encode], ?_⟩
  simp (disch := decide) only [encode, encodeI, or_and_distrib, place_and_clear, place_and_keep]
  decide

theorem TableRow.trmax (rd : XIdx) (k : BitVec 16) : TableRow.Statement (.trmax rd k) := by
  refine ⟨⟨.trmax, 0x22#6, .i, 0x88000000#32, 0xFC3F0000#32, [], []⟩, by decide, rfl, by simp [encode], ?_⟩
  simp (disch := decide) only [encode, encodeI, or_and_distrib, place_and_clear, place_and_keep]
  decide

theorem TableRow.digits (rd : XIdx) (rs1 : XIdx) : TableRow.Statement (.digits rd rs1) := by
  refine ⟨⟨.digits, 0x23#6, .r, 0x8C000000#32, 0xFC03FFFF#32, [.wrapping], [false]⟩, by decide, rfl, by simp [encode], ?_⟩
  simp (disch := decide) only [encode, encodeR, or_and_distrib, place_and_clear, place_and_keep]
  decide

theorem TableRow.mulp10 (rd : XIdx) (rs1 : XIdx) (rs2 : XIdx) (mode : Mode) : TableRow.Statement (.mulp10 rd rs1 rs2 mode) := by
  refine ⟨⟨.mulp10, 0x24#6, .r, 0x90000000#32, 0xFC003C7F#32, Mode.all, [false]⟩, by decide, rfl, by simp [encode], ?_⟩
  simp (disch := decide) only [encode, encodeR, or_and_distrib, place_and_clear, place_and_keep]
  decide

theorem TableRow.divp10 (rd : XIdx) (rd2 : XIdx) (rs1 : XIdx) (rs2 : XIdx) : TableRow.Statement (.divp10 rd rd2 rs1 rs2) := by
  refine ⟨⟨.divp10, 0x25#6, .r, 0x94000000#32, 0xFC0003FF#32, [.wrapping], [false]⟩, by decide, rfl, by simp [encode], ?_⟩
  simp (disch := decide) only [encode, encodeR, or_and_distrib, place_and_clear, place_and_keep]
  decide

theorem TableRow.dmake (rd : DIdx) (rs1 : XIdx) (neg : Bool) (scale : BitVec 16) : TableRow.Statement (.dmake rd rs1 neg scale) := by
  refine ⟨⟨.dmake, 0x30#6, .i, 0xC0000000#32, 0xFC020000#32, [], []⟩, by decide, rfl, by simp [encode], ?_⟩
  apply BitVec.eq_of_getLsbD_eq
  intro i hi
  simp only [encode, encodeI, BitVec.getLsbD_and, BitVec.getLsbD_or, getLsbD_place]
  interval_cases i <;> simp [BitVec.getLsbD_of_ge]

theorem TableRow.dctx (rd : DIdx) (rs1 : DIdx) (rm : RoundMode) (traps : BitVec 8) : TableRow.Statement (.dctx rd rs1 rm traps) := by
  refine ⟨⟨.dctx, 0x31#6, .i, 0xC4000000#32, 0xFC03F800#32, [], []⟩, by decide, rfl, by simp [encode], ?_⟩
  apply BitVec.eq_of_getLsbD_eq
  intro i hi
  simp only [encode, encodeI, contextImm, BitVec.getLsbD_and, BitVec.getLsbD_or, getLsbD_place]
  interval_cases i <;> simp [BitVec.getLsbD_of_ge]

theorem TableRow.dmov (rd : DIdx) (rs1 : DIdx) : TableRow.Statement (.dmov rd rs1) := by
  refine ⟨⟨.dmov, 0x32#6, .r, 0xC8000000#32, 0xFC03FFFF#32, [.wrapping], [false]⟩, by decide, rfl, by simp [encode], ?_⟩
  simp (disch := decide) only [encode, encodeR, or_and_distrib, place_and_clear, place_and_keep]
  decide

theorem TableRow.dcoef (rd : XIdx) (rs1 : DIdx) : TableRow.Statement (.dcoef rd rs1) := by
  refine ⟨⟨.dcoef, 0x33#6, .r, 0xCC000000#32, 0xFC03FFFF#32, [.wrapping], [false]⟩, by decide, rfl, by simp [encode], ?_⟩
  simp (disch := decide) only [encode, encodeR, or_and_distrib, place_and_clear, place_and_keep]
  decide

theorem TableRow.dcb (rd : XIdx) (rs1 : DIdx) : TableRow.Statement (.dcb rd rs1) := by
  refine ⟨⟨.dcb, 0x34#6, .r, 0xD0000000#32, 0xFC03FFFF#32, [.wrapping], [false]⟩, by decide, rfl, by simp [encode], ?_⟩
  simp (disch := decide) only [encode, encodeR, or_and_distrib, place_and_clear, place_and_keep]
  decide

theorem TableRow.dadd (rd : DIdx) (rs1 : DIdx) (rs2 : DIdx) : TableRow.Statement (.dadd rd rs1 rs2) := by
  refine ⟨⟨.dadd, 0x38#6, .r, 0xE0000000#32, 0xFC003FFF#32, [.wrapping], [false]⟩, by decide, rfl, by simp [encode], ?_⟩
  simp (disch := decide) only [encode, encodeR, or_and_distrib, place_and_clear, place_and_keep]
  decide

theorem TableRow.dsub (rd : DIdx) (rs1 : DIdx) (rs2 : DIdx) : TableRow.Statement (.dsub rd rs1 rs2) := by
  refine ⟨⟨.dsub, 0x39#6, .r, 0xE4000000#32, 0xFC003FFF#32, [.wrapping], [false]⟩, by decide, rfl, by simp [encode], ?_⟩
  simp (disch := decide) only [encode, encodeR, or_and_distrib, place_and_clear, place_and_keep]
  decide

theorem TableRow.dmul (rd : DIdx) (rs1 : DIdx) (rs2 : DIdx) : TableRow.Statement (.dmul rd rs1 rs2) := by
  refine ⟨⟨.dmul, 0x3A#6, .r, 0xE8000000#32, 0xFC003FFF#32, [.wrapping], [false]⟩, by decide, rfl, by simp [encode], ?_⟩
  simp (disch := decide) only [encode, encodeR, or_and_distrib, place_and_clear, place_and_keep]
  decide

theorem TableRow.dround (rd : DIdx) (rs1 : DIdx) (scale : BitVec 16) : TableRow.Statement (.dround rd rs1 scale) := by
  refine ⟨⟨.dround, 0x3C#6, .i, 0xF0000000#32, 0xFC030000#32, [], []⟩, by decide, rfl, by simp [encode], ?_⟩
  simp (disch := decide) only [encode, encodeI, or_and_distrib, place_and_clear, place_and_keep]
  decide

theorem TableRow.dtrunc (rd : DIdx) (rs1 : DIdx) (scale : BitVec 16) : TableRow.Statement (.dtrunc rd rs1 scale) := by
  refine ⟨⟨.dtrunc, 0x3D#6, .i, 0xF4000000#32, 0xFC030000#32, [], []⟩, by decide, rfl, by simp [encode], ?_⟩
  simp (disch := decide) only [encode, encodeI, or_and_distrib, place_and_clear, place_and_keep]
  decide

end Sys2Proof.Laws
end

