-- ==== Sys2Proof/Tests/Slice0.lean ====
section
/-! SUPPORT. Our own tests: the WellFormed smoke, the decoding of every constructor and of illegal words, one or two steps of each
command with the results of `95_test_vectors.md`, and for each statement with hypotheses a state and operands that meet them. -/

open Sys2Proof Sys2Proof.Machine

namespace Sys2Proof.Tests

-- One theorem at a time: each kernel evaluation below would otherwise wait in a thread of its own.
set_option Elab.async false

/-! ### WellFormed smoke (R110, R112) -/

theorem test_wf_refuses_saturating_shl : (Instr.shl 3 1 2 .saturating).wf 2 = false := by decide
theorem test_wf_refuses_saturating_shr : (Instr.shr 3 1 2 .saturating true).wf 2 = false := by decide
theorem test_wf_refuses_saturating_divrem : (Instr.divrem 3 4 1 2 .saturating false).wf 2 = false := by decide
theorem test_wf_refuses_saturating_divrd : (Instr.divrd 3 4 1 2 .saturating).wf 2 = false := by decide
theorem test_wf_refuses_saturating_divw : (Instr.divw 3 4 1 2 .saturating).wf 2 = false := by decide
theorem test_wf_refuses_divw_of_one_limb : (Instr.divw 3 4 1 2 .wrapping).wf 1 = false := by decide
theorem test_wf_accepts_divw_of_two_limbs : (Instr.divw 3 4 1 2 .wrapping).wf 2 = true := by decide

/-! ### Decoding: one word of each row, written from its pattern string (R109) -/

theorem test_decode_mov : decode 2 0b00000100100001000000000000000000 = .ok (.mov 2 1) := rfl
theorem test_decode_ldi : decode 2 0b00001000110000001111111111111110 = .ok (.ldi 3 0xFFFE) := rfl
theorem test_decode_lget : decode 2 0b00001100100001000000000000000001 = .ok (.lget 2 1 1) := rfl
theorem test_decode_lset : decode 2 0b00010000100001000000000000000101 = .ok (.lset 2 1 5) := rfl
theorem test_decode_shl : decode 2 0b00100000110001001000000100000000 = .ok (.shl 3 1 2 .checked) := rfl
theorem test_decode_shr : decode 2 0b00100100110001001000000101000000 = .ok (.shr 3 1 2 .checked true) := rfl
theorem test_decode_cmp : decode 2 0b01000000000001001000000001000000 = .ok (.cmp 1 2 true) := rfl
theorem test_decode_add : decode 2 0b01000100110001001000001001000000 = .ok (.add 3 1 2 .saturating true) := rfl
theorem test_decode_sub : decode 2 0b01001000110001001000000111000000 = .ok (.sub 3 1 2 .strict true) := rfl
theorem test_decode_mul : decode 2 0b01001100110001001000000010000000 = .ok (.mul 3 1 2 .overflowing false) := rfl
theorem test_decode_mulw : decode 2 0b01010000110001001001000000000000 = .ok (.mulw 3 4 1 2) := rfl
theorem test_decode_divrem : decode 2 0b01100000110001001001000111000000 = .ok (.divrem 3 4 1 2 .strict true) := rfl
theorem test_decode_divrd : decode 2 0b01100100110001001001000100000000 = .ok (.divrd 3 4 1 2 .checked) := rfl
theorem test_decode_divw : decode 2 0b01101000110001001001000110000000 = .ok (.divw 3 4 1 2 .strict) := rfl
theorem test_decode_tpow10 : decode 2 0b10000000010000000000000000100110 = .ok (.tpow10 1 38) := rfl
theorem test_decode_tpow5 : decode 2 0b10000100010000000000000000110111 = .ok (.tpow5 1 55) := rfl
theorem test_decode_trmax : decode 2 0b10001000010000000000000000011110 = .ok (.trmax 1 30) := rfl
theorem test_decode_digits : decode 2 0b10001100100001000000000000000000 = .ok (.digits 2 1) := rfl
theorem test_decode_mulp10 : decode 2 0b10010000110001001000001000000000 = .ok (.mulp10 3 1 2 .saturating) := rfl
theorem test_decode_divp10 : decode 2 0b10010100110001001001000000000000 = .ok (.divp10 3 4 1 2) := rfl
theorem test_decode_dmake : decode 2 0b11000000010001010000000000010101 = .ok (.dmake 1 1 true 21) := rfl
theorem test_decode_dctx : decode 2 0b11000100100001000000000011010010 = .ok (.dctx 2 1 .ceiling 0x1A) := rfl
theorem test_decode_dmov : decode 2 0b11001000100001000000000000000000 = .ok (.dmov 2 1) := rfl
theorem test_decode_dcoef : decode 2 0b11001100100001000000000000000000 = .ok (.dcoef 2 1) := rfl
theorem test_decode_dcb : decode 2 0b11010000100001000000000000000000 = .ok (.dcb 2 1) := rfl
theorem test_decode_dadd : decode 2 0b11100000110001001000000000000000 = .ok (.dadd 3 1 2) := rfl
theorem test_decode_dsub : decode 2 0b11100100110001001000000000000000 = .ok (.dsub 3 1 2) := rfl
theorem test_decode_dmul : decode 2 0b11101000110001001000000000000000 = .ok (.dmul 3 1 2) := rfl
theorem test_decode_dround : decode 2 0b11110000100001001111111111111110 = .ok (.dround 2 1 0xFFFE) := rfl
theorem test_decode_dtrunc : decode 2 0b11110100100001000000000000000001 = .ok (.dtrunc 2 1 1) := rfl

/-- A word of each kind of illegality (D7.1 to D7.30). -/
theorem test_decode_refuses :
    decode 2 0x00000000 = .error .unassignedOpcode ∧ decode 2 0xFFFFFFFF = .error .unassignedOpcode ∧
    decode 2 0x44C48280 = .error .badMode ∧ decode 2 0x44C48001 = .error .mustBeZero ∧
    decode 2 0x44C48400 = .error .mustBeZero ∧ decode 2 0x40048080 = .error .mustBeZero ∧
    decode 2 0x20C48040 = .error .mustBeZero ∧ decode 2 0x20C48200 = .error .badMode ∧
    decode 1 0x68C49000 = .error .needsTwoLimbs ∧ decode 2 0xC0460015 = .error .mustBeZero := by
  refine ⟨rfl, rfl, rfl, rfl, rfl, rfl, rfl, rfl, rfl, rfl⟩

/-- A list of bytes that holds no whole word is refused by name; the bytes of D7.4 are its word's, the lowest first (R82). -/
theorem test_decode_bytes :
    decodeBytes 2 [0x00, 0x80, 0xC4] = .error .notAWord ∧
    decodeBytes 2 [0x00, 0x80, 0xC4, 0x44] = .ok (.add 3 1 2 .wrapping false) := ⟨rfl, rfl⟩

/-! ### Steps -/

/-- `x[r]` set to `v`. -/
def putX (s : State) (r : XIdx) (v : Nat) : State := s.writeX r (limbsOf s.cfg.n v)

/-- `d[r]` set to the coefficient `c` and the control block `cb`. -/
def putD (s : State) (r : DIdx) (c : Nat) (cb : Word) : State := s.writeD r { coef := limbsOf s.cfg.n c, cb := cb }

/-- One step with the command word `w` next at the port. -/
def runWord (w : Nat) (s : State) : Outcome := step (s.withFetchWord 32 w)

/-- A property of the next state; false at a stop. -/
def nextIs (o : Outcome) (p : State → Bool) : Bool :=
  match o with
  | .next t => p t
  | .fault _ => false
  | .refused _ => false

/-- `x[r]` is written and reads as `v`. -/
def xIs (r : XIdx) (v : Nat) (s : State) : Bool := allMarked (s.xSlots r) && decide (uval (slotWords (s.xSlots r)) = v)

/-- `d[r]` is written, with the coefficient `c` and the control block `cb`. -/
def dIs (r : DIdx) (c : Nat) (cb : Word) (s : State) : Bool :=
  allMarked (s.dSlots r).coef && (s.dSlots r).cb.mark && decide (uval (slotWords (s.dSlots r).coef) = c) &&
    decide ((s.dSlots r).cb.word = cb)

/-- FLAGS and STATUS, as the host reads them. -/
def wordsAre (flags status : Word) (s : State) : Bool :=
  decide (s.flags.toWord = flags) && decide (s.status.toWord = status)

/-- The state after reset with `x1` and `x2` set. -/
def x12 (a b : Nat) : State := putX (putX State.reset 1 a) 2 b

/-- The largest value of two limbs. -/
def top : Nat := 2 ^ 128 - 1

/-- The bound of the signed range of two limbs. -/
def half : Nat := 2 ^ 127

/-- D1.1. -/
theorem test_mov : nextIs (runWord 0x04840000 (x12 0x10000000000000005 0)) (xIs 2 0x10000000000000005) = true := by
  decide +kernel
/-- D1.2. -/
theorem test_ldi : nextIs (runWord 0x08C0FFFF State.reset) (xIs 3 65535) = true := by decide +kernel
/-- D1.6. -/
theorem test_lget : nextIs (runWord 0x0C440001 (x12 0xABCD0000000000000007 0)) (xIs 1 43981) = true := by decide +kernel
/-- D1.5. -/
theorem test_lget_index :
    nextIs (runWord 0x0C840002 (x12 0x10000000000000000 9)) (fun t => xIs 2 9 t && wordsAre 0 0x0401 t) = true := by
  decide +kernel
/-- D1.8. -/
theorem test_lset : nextIs (runWord 0x10840000 (x12 0xAA0000000000000055 0x110000000000000022))
    (xIs 2 0x110000000000000055) = true := by decide +kernel
/-- D1.15. -/
theorem test_shl_wraps_amount :
    nextIs (runWord 0x20C48000 (x12 1 130)) (fun t => xIs 3 4 t && wordsAre 4 0 t) = true := by decide +kernel
/-- D1.16. -/
theorem test_shl_checked :
    nextIs (runWord 0x20C48100 (putX (x12 1 130) 3 77)) (fun t => xIs 3 77 t && wordsAre 0xC 0 t) = true := by
  decide +kernel
/-- D1.23. -/
theorem test_shr_signed : nextIs (runWord 0x24C48040 (x12 (2 ^ 128 - 256) 4)) (xIs 3 (2 ^ 128 - 16)) = true := by
  decide +kernel
/-- D1.24. -/
theorem test_shr : nextIs (runWord 0x24C48080 (x12 half 200)) (fun t => xIs 3 0x80000000000000 t && wordsAre 4 0 t) = true := by
  decide +kernel
/-- D2.4. -/
theorem test_cmp_signed : nextIs (runWord 0x40048040 (x12 half (half - 1))) (wordsAre 0x10 0) = true := by decide +kernel
/-- D2.1. -/
theorem test_cmp : nextIs (runWord 0x40048000 (x12 (2 ^ 64) (2 ^ 64 - 1))) (wordsAre 0x20 0) = true := by decide +kernel
/-- D2.10. -/
theorem test_add_checked :
    nextIs (runWord 0x44C48100 (putX (x12 top 1) 3 42)) (fun t => xIs 3 42 t && wordsAre 0xD 0 t) = true := by
  decide +kernel
/-- D2.17. -/
theorem test_add_saturates_signed :
    nextIs (runWord 0x44C48240 (x12 half top)) (fun t => xIs 3 half t && wordsAre 7 0 t) = true := by decide +kernel
/-- D2.23. -/
theorem test_sub_signed :
    nextIs (runWord 0x48C48040 (x12 0 1)) (fun t => xIs 3 top t && wordsAre 1 0 t) = true := by decide +kernel
/-- D2.26. -/
theorem test_sub_strict : nextIs (runWord 0x48C481C0 (x12 half 1))
    (fun t => !xIs 3 (half - 1) t && wordsAre 0 0x0201 t && decide (t.abortCmd = 0x48C481C0)) = true := by decide +kernel
/-- D2.30. -/
theorem test_mul : nextIs (runWord 0x4CC48000 (x12 (2 ^ 64 - 1) (2 ^ 64 - 1)))
    (fun t => xIs 3 0xFFFFFFFFFFFFFFFE0000000000000001 t && wordsAre 2 0 t) = true := by decide +kernel
/-- D2.33. -/
theorem test_mul_saturates_signed :
    nextIs (runWord 0x4CC48240 (x12 half top)) (fun t => xIs 3 (half - 1) t && wordsAre 7 0 t) = true := by decide +kernel
/-- D2.39. -/
theorem test_mulw : nextIs (runWord 0x50C49000 (x12 (10 ^ 20) (10 ^ 20)))
    (fun t => xIs 3 0x6329F1C35CA4BFABB9F5610000000000 t && xIs 4 29 t && wordsAre 0 0 t) = true := by decide +kernel
/-- D8.16. -/
theorem test_mulw_in_place : nextIs (runWord 0x50448800 (x12 3 5)) (fun t => xIs 1 15 t && xIs 2 0 t) = true := by
  decide +kernel
/-- D3.3. -/
theorem test_divrem_signed : nextIs (runWord 0x60C49040 (x12 (2 ^ 128 - 7) 2))
    (fun t => xIs 3 (2 ^ 128 - 3) t && xIs 4 top t && wordsAre 0 0 t) = true := by decide +kernel
/-- D3.12. -/
theorem test_divrem_zero_checked : nextIs (runWord 0x60C49100 (putX (putX (x12 5 0) 3 1) 4 2))
    (fun t => xIs 3 1 t && xIs 4 2 t && wordsAre 8 0 t) = true := by decide +kernel
/-- D3.20. -/
theorem test_divrd : nextIs (runWord 0x64C49000 (x12 100 0x70000000000000003)) (fun t => xIs 3 33 t && xIs 4 1 t) = true := by
  decide +kernel
/-- D3.19. -/
theorem test_divrd_zero : nextIs (runWord 0x64C49000 (x12 100 0x70000000000000000)) (wordsAre 0 0x0301) = true := by
  decide +kernel
/-- D3.24. -/
theorem test_divw_wraps : nextIs (runWord 0x68C49000 (x12 0x50000000000000007 5))
    (fun t => xIs 3 1 t && xIs 4 2 t && wordsAre 4 0 t) = true := by decide +kernel
/-- D3.23. -/
theorem test_divw : nextIs (runWord 0x68C49000 (x12 0xFFFFFFFFFFFFFFFEFFFFFFFFFFFFFFFF (2 ^ 64 - 1)))
    (fun t => xIs 3 (2 ^ 64 - 1) t && xIs 4 (2 ^ 64 - 2) t && wordsAre 0 0 t) = true := by decide +kernel
/-- D4.3. -/
theorem test_tpow10 : nextIs (runWord 0x80400026 State.reset) (xIs 1 0x4B3B4CA85A86C47A098A224000000000) = true := by
  decide +kernel
/-- D4.4. -/
theorem test_tpow10_index : nextIs (runWord 0x80400027 State.reset) (wordsAre 0 0x0401) = true := by decide +kernel
/-- D4.5. -/
theorem test_tpow5 : nextIs (runWord 0x84400037 State.reset) (xIs 1 0xD0CF4B50CFE20765FFF4B4E3F741CF6D) = true := by
  decide +kernel
/-- D4.6. -/
theorem test_tpow5_index : nextIs (runWord 0x84400038 State.reset) (wordsAre 0 0x0401) = true := by decide +kernel
/-- D4.8. -/
theorem test_trmax : nextIs (runWord 0x8840001E State.reset) (xIs 1 0x14484BFE) = true := by decide +kernel
/-- D4.14. -/
theorem test_digits : nextIs (runWord 0x8C840000 (x12 (2 ^ 64) 0)) (xIs 2 20) = true := by decide +kernel
/-- D4.11. -/
theorem test_digits_zero : nextIs (runWord 0x8C840000 (x12 0 0)) (xIs 2 1) = true := by decide +kernel
/-- D4.21. -/
theorem test_mulp10_wraps : nextIs (runWord 0x90C48000 (x12 1 39))
    (fun t => xIs 3 0xF050FE938943ACC45F65568000000000 t && wordsAre 5 0 t) = true := by decide +kernel
/-- D4.20. -/
theorem test_mulp10_zero : nextIs (runWord 0x90C48100 (putX (x12 0 500) 3 6)) (fun t => xIs 3 0 t && wordsAre 0 0 t) = true := by
  decide +kernel
/-- D4.26. -/
theorem test_divp10 : nextIs (runWord 0x94C49000 (x12 top 38))
    (fun t => xIs 3 3 t && xIs 4 0x1E4E1A06F06BB291E361993FFFFFFFFF t) = true := by decide +kernel
/-- D4.25. -/
theorem test_divp10_large : nextIs (runWord 0x94C49000 (x12 top 39)) (fun t => xIs 3 0 t && xIs 4 top t) = true := by
  decide +kernel
/-- D5.1. -/
theorem test_dmake : nextIs (runWord 0xC0440015 (x12 0x2B3A53B7D2574C495C41C59999999 0))
    (dIs 1 14028236093846346337460743176821145 0x6A0000015) = true := by decide +kernel
/-- D5.2. -/
theorem test_dmake_negative_zero : nextIs (runWord 0xC0450000 (x12 0 0)) (dIs 1 0 0x6A0010000) = true := by decide +kernel

/-- The state after reset with `d1` and `d2` set. -/
def d12 (c1 : Nat) (cb1 : Word) (c2 : Nat) (cb2 : Word) : State := putD (putD State.reset 1 c1 cb1) 2 c2 cb2

/-- D5.6: the default context becomes Ceiling with the same traps. -/
theorem test_dctx : nextIs (runWord 0xC48400D2 (d12 5 0x6A0000001 0 0)) (dIs 2 5 0x690000001) = true := by decide +kernel
/-- D5.9. -/
theorem test_dctx_malformed : nextIs (runWord 0xC48400D4 (d12 5 0x6A0060000 0 0)) (wordsAre 0 0x0501) = true := by
  decide +kernel
/-- D5.10. -/
theorem test_dmov : nextIs (runWord 0xC8840000 (d12 5 0x6A0060000 0 0)) (dIs 2 5 0x6A0060000) = true := by decide +kernel
/-- D5.11. -/
theorem test_dcoef : nextIs (runWord 0xCC840000 (d12 0x2B3A53B7D2574C495C41C59999999 0x6A0000015 0 0))
    (xIs 2 0x2B3A53B7D2574C495C41C59999999) = true := by decide +kernel
/-- D5.13. -/
theorem test_dcb : nextIs (runWord 0xD0840000 (d12 0 0x6A0050000 0 0)) (xIs 2 0x6A0050000) = true := by decide +kernel
/-- D5.14: Ceiling, traps 0x1A; Inexact and Rounded are bits 2 and 5 of the signals. -/
theorem test_dround : nextIs (runWord 0xF0840003 (d12 10001 0x690000004 0 0)) (dIs 2 1001 0x691200003) = true := by
  decide +kernel
/-- D5.23. -/
theorem test_dround_traps : nextIs (runWord 0xF0840000 (d12 15 0xFA0000001 0 0)) (wordsAre 0 0x1201) = true := by
  decide +kernel
/-- D5.28. -/
theorem test_dtrunc : nextIs (runWord 0xF4840000 (d12 10001 0x690000004 0 0)) (dIs 2 1 0x690000000) = true := by
  decide +kernel
/-- D6.12: two retries round twice, 45 to 5 to 1. -/
theorem test_dadd : nextIs (runWord 0xE0C48000 (d12 45 0x6A0000027 4 0x6A0000000))
    (dIs 3 40000000000000000000000000000000000001 0x6A1200025) = true := by decide +kernel
/-- D6.17. -/
theorem test_dadd_infinities : nextIs (runWord 0xE0C48000 (d12 0 0x6A0040000 0 0x6A0050000)) (wordsAre 0 0x1301) = true := by
  decide +kernel
/-- D6.4: an exact zero under Floor is negative. -/
theorem test_dsub_floor : nextIs (runWord 0xE4C48000 (d12 10 0x698000001 100 0x6A0000002)) (dIs 3 0 0x698010002) = true := by
  decide +kernel
/-- D6.25. -/
theorem test_dmul : nextIs (runWord 0xE8C48000 (d12 15 0x6A0000001 15 0x6A0000001)) (dIs 3 225 0x6A0000002) = true := by
  decide +kernel
/-- D6.39: under Strict a dropped 5 aborts. -/
theorem test_dmul_strict : nextIs (runWord 0xE8C48000 (d12 3 0x6B8000000 top 0x6A0000000)) (wordsAre 0 0x0601) = true := by
  decide +kernel

/-- D8.8: one limb written is not a written register, and a command that reads it is the model's fault (R49). -/
theorem test_unwritten_operand :
    runWord 0x05D80000 (State.reset.writeXLimb 6 0 7) = .fault .unwritten := rfl
/-- D8.9: decode comes first, so an illegal word aborts with every register unwritten. -/
theorem test_illegal_word : nextIs (runWord 0x44C48281 State.reset) (wordsAre 0 0x0101) = true := by decide +kernel
/-- D8.18. -/
theorem test_host_reads :
    nextIs (step (State.reset.withAccess (.read 0x0004))) (fun t => decide (t.readData = 2)) = true ∧
    nextIs (step (State.reset.withAccess (.read 0x0006))) (fun t => decide (t.readData = 0)) = true := by
  decide +kernel

/-- The pseudo-instructions of R118. -/
theorem test_pseudo : encode (expandPseudo (.clr 1)) = 0x08400000 ∧ encode (expandPseudo (.cmps 1 2)) = 0x40048040 := ⟨rfl, rfl⟩

/-! ### Witnesses: a state and operands that meet all the hypotheses of each statement -/

/-- Every register written: 7 in the integer registers; 1.5 in the decimal ones, with HalfUp and no traps. -/
def ready : State :=
  { State.reset with
    x := Vector.replicate 16 (markedSlots (limbsOf 2 7))
    d := Vector.replicate 16 { coef := markedSlots (limbsOf 2 15), cb := { word := 0x20000001, mark := true } } }

/-- `ready` with `x1` and `x2` set. -/
def pair (a b : Nat) : State := putX (putX ready 1 a) 2 b

/-- `ready` with `d1` and `d2` set. -/
def dpair (c1 : Nat) (cb1 : Word) (c2 : Nat) (cb2 : Word) : State := putD (putD ready 1 c1 cb1) 2 c2 cb2

theorem ready_wf : ready.wf :=
  ⟨by decide, ⟨fun r => by simp [ready, State.xSlots, State.reset, Config.reference],
    fun r => by simp [ready, State.dSlots, State.reset, Config.reference]⟩,
    ⟨fun _ => ⟨rfl, rfl⟩, fun h => by simp [ready, State.reset, Status.zero] at h, by decide⟩⟩

theorem putX_wf {s : State} (h : s.wf) (r : XIdx) (v : Nat) : (putX s r v).wf := by
  refine ⟨h.1, ⟨fun q => ?_, h.2.1.2⟩, h.2.2⟩
  by_cases hq : q = r
  · subst hq; simp [putX]
  · simp only [putX, xSlots_writeX_ne _ _ hq]; exact h.2.1.1 q

theorem putD_wf {s : State} (h : s.wf) (r : DIdx) (c : Nat) (cb : Word) : (putD s r c cb).wf := by
  refine ⟨h.1, ⟨h.2.1.1, fun q => ?_⟩, h.2.2⟩
  by_cases hq : q = r
  · subst hq; simp [putD]
  · simp only [putD, dSlots_writeD_ne _ _ hq]; exact h.2.1.2 q

theorem pair_wf (a b : Nat) : (pair a b).wf := putX_wf (putX_wf ready_wf 1 a) 2 b

theorem dpair_wf (c1 : Nat) (cb1 : Word) (c2 : Nat) (cb2 : Word) : (dpair c1 cb1 c2 cb2).wf :=
  putD_wf (putD_wf ready_wf 1 c1 cb1) 2 c2 cb2

theorem pair_x1 (a b : Nat) : (pair a b).readX 1 = .ok (limbsOf 2 a) := by
  rw [pair, putX, readX_writeX_ne _ _ (by decide), putX, readX_writeX_self]; rfl

theorem pair_x2 (a b : Nat) : (pair a b).readX 2 = .ok (limbsOf 2 b) := readX_writeX_self _ _ _

theorem dpair_d1 (c1 : Nat) (cb1 : Word) (c2 : Nat) (cb2 : Word) :
    (dpair c1 cb1 c2 cb2).readD 1 = .ok { coef := limbsOf 2 c1, cb := cb1 } := by
  rw [dpair, putD, readD_writeD_ne _ _ (by decide), putD, readD_writeD_self]; rfl

theorem dpair_d2 (c1 : Nat) (cb1 : Word) (c2 : Nat) (cb2 : Word) :
    (dpair c1 cb1 c2 cb2).readD 2 = .ok { coef := limbsOf 2 c2, cb := cb2 } := readD_writeD_self _ _ _

theorem of_nextIs {o : Outcome} {p : State → Bool} (h : nextIs o p = true) : ∃ t, o = .next t ∧ p t = true := by
  match o, h with
  | .next t, h => exact ⟨t, rfl, h⟩

/-- The state with `x1 = a` and `x2 = b` meets the hypotheses that integer statements share. -/
def operandsAre (a b : Nat) : Prop :=
  (pair a b).wf ∧ (pair a b).readX 1 = .ok (limbsOf 2 a) ∧ (pair a b).readX 2 = .ok (limbsOf 2 b)

theorem operandsAre_pair (a b : Nat) : operandsAre a b := ⟨pair_wf a b, pair_x1 a b, pair_x2 a b⟩

/-- The state with `d1` and `d2` set meets the hypotheses that decimal statements share. -/
def decimalsAre (c1 : Nat) (cb1 : Word) (c2 : Nat) (cb2 : Word) (a b : DecOperand) : Prop :=
  (dpair c1 cb1 c2 cb2).wf ∧ (dpair c1 cb1 c2 cb2).readD 1 = .ok { coef := limbsOf 2 c1, cb := cb1 } ∧
  (dpair c1 cb1 c2 cb2).readD 2 = .ok { coef := limbsOf 2 c2, cb := cb2 } ∧
  readDec { coef := limbsOf 2 c1, cb := cb1 } = .ok a ∧ readDec { coef := limbsOf 2 c2, cb := cb2 } = .ok b

theorem witness_DecodeOfEncode :
    (Instr.divw 15 0 15 0 .strict).wf 2 = true ∧ (Instr.shr 0 15 0 .strict true).wf 1 = true ∧
    (Instr.dctx 15 15 .strict 0xFF).wf 255 = true := by decide

theorem witness_EncodeOfDecode : decode 255 0b11000111111111000000011111111111 = .ok (.dctx 15 15 .strict 0xFF) := rfl

theorem witness_StepRunsDecodedCommand :
    (State.reset.withFetchWord 32 0x08C0FFFF).port = [.write offCommand 0x08C0FFFF] ∧
    (State.reset.withFetchWord 32 0x08C0FFFF).status.aborted = false ∧
    decode 2 ((0x08C0FFFF : Word).setWidth 32) = .ok (.ldi 3 0xFFFF) ∧
    (State.reset.withFetchWord 32 0).port = [.write offCommand 0] ∧
    ∀ i, decode 2 ((0 : Word).setWidth 32) ≠ .ok i :=
  ⟨rfl, rfl, rfl, rfl, fun _ h => by cases h⟩

/-- An aborted block. -/
def aborted (s : State) : State := s.takeAbort .intOverflow 0x44C48180

theorem aborted_wf {s : State} (h : s.wf) : (aborted s).wf := by
  refine ⟨h.1, h.2.1, ⟨fun h => by simp [aborted] at h, fun _ => ⟨.intOverflow, rfl⟩, ?_⟩⟩
  simp only [aborted, State.takeAbort_abortCmd]
  decide

theorem aborted_reset_wf : (aborted State.reset).wf := by
  refine ⟨by decide, ⟨fun r => by simp [aborted, State.reset, Config.reference, unwrittenX],
    fun r => by simp [aborted, State.reset, Config.reference, unwrittenD]⟩,
    ⟨fun h => by simp [aborted] at h, fun _ => ⟨.intOverflow, rfl⟩, ?_⟩⟩
  simp only [aborted, State.takeAbort_abortCmd]
  decide

/-- The register words at both ends of the map, written in `ready` and not written after reset. -/
theorem witness_AbortedBlockIgnoresCommands :
    ((aborted ready).withAccess (.write offCommand 0x08C0FFFF)).wf ∧
    ((aborted ready).withAccess (.write offCommand 0x08C0FFFF)).status.aborted = true ∧
    registerOffset 2 (offX 15 1) ∧ registerOffset 2 (offD 0 0) ∧ registerOffset 2 (offCb 15) ∧
    (aborted ready).portWord (offX 15 1) = some 0 ∧ (aborted ready).portWord (offCb 15) = some 0x20000001 ∧
    ((aborted State.reset).withAccess (.read (offX 0 0))).wf ∧
    ((aborted State.reset).withAccess (.read (offX 0 0))).status.aborted = true ∧
    (aborted State.reset).portWord (offX 0 0) = none ∧ (aborted State.reset).portWord (offCb 15) = none :=
  ⟨(show (aborted ready).wf from aborted_wf ready_wf), rfl, .inl ⟨15, 1, by decide, rfl⟩,
    .inr (.inl ⟨0, 0, by decide, rfl⟩), .inr (.inr ⟨15, rfl⟩), by decide +kernel, by decide +kernel,
    (show (aborted State.reset).wf from aborted_reset_wf), rfl, by decide +kernel, by decide +kernel⟩

theorem witness_AbortLeftOnlyByReset :
    (aborted ready).status.aborted = true ∧
    (∃ t, step ((aborted ready).withAccess (.write offReset 1)) = .next t ∧ t.status.aborted = false) ∧
    (∃ t, step ((aborted ready).withAccess (.write offCommand 0x08C0FFFF)) = .next t ∧ t.status.aborted = true) ∧
    (∃ t, step ((aborted ready).withAccess (.read offStatus)) = .next t ∧ t.status.aborted = true) :=
  ⟨rfl, ⟨_, rfl, rfl⟩, ⟨_, rfl, rfl⟩, ⟨_, rfl, rfl⟩⟩

theorem witness_ResetWriteClearsBlock :
    ((aborted ready).withAccess (.write offReset 0x77)).port = .write offReset 0x77 :: [] := rfl

theorem witness_HostReadsControlWords (off : BitVec 16) :
    (ready.withAccess (.read off)).wf ∧ (ready.withAccess (.read off)).port = .read off :: [] := ⟨ready_wf, rfl⟩

theorem witness_HostReadsRegisterWords :
    (ready.withAccess (.read (offX 15 1))).wf ∧
    ((ready.xSlots 15)[1]? = some ⟨0, true⟩) ∧ ((ready.dSlots 0).coef[0]? = some ⟨15, true⟩) ∧
    (ready.dSlots 15).cb = ⟨0x20000001, true⟩ ∧
    ((State.reset.xSlots 0)[0]? = some ⟨0, false⟩) ∧ (State.reset.dSlots 15).cb.mark = false ∧
    portMap 2 0x0006 = .unlisted ∧ portMap 2 0x1002 = .unlisted ∧ portMap 2 0x20FE = .unlisted ∧ portMap 2 0x3000 = .unlisted :=
  ⟨ready_wf, by decide +kernel⟩

theorem witness_HostWritesRegisterWords :
    (ready.withAccess (.write (offX 15 1) 9)).wf ∧ (1 < ready.cfg.n) ∧ portMap 2 (offX 15 1) = .xLimb 15 1 ∧
    portMap 2 (offD 15 1) = .dLimb 15 1 ∧ portMap 2 (offCb 15) = .dCb 15 ∧
    portMap 2 0x0004 = .config ∧ portMap 2 0xFFFF = .unlisted := ⟨ready_wf, by decide +kernel⟩

theorem registerOffset_not_status : ¬ registerOffset 2 0x0001 := by
  rintro (⟨r, j, hj, h⟩ | ⟨r, j, hj, h⟩ | ⟨r, h⟩) <;>
    (have h := congrArg BitVec.toNat h; have := r.isLt; simp [offX, offD, offCb] at h; omega)

/-- Two blocks that differ in a word nothing has written. -/
theorem witness_UnwrittenContentsInvisible :
    State.reset.agrees (State.reset.setXSlots 3 [⟨5, false⟩, ⟨0, false⟩]) ∧
    State.reset ≠ State.reset.setXSlots 3 [⟨5, false⟩, ⟨0, false⟩] := by
  have refl : ∀ l : List Slot, slotsAgree l l := fun l => List.forall₂_same.2 fun _ _ => ⟨rfl, fun _ => rfl⟩
  refine ⟨⟨rfl, rfl, rfl, rfl, rfl, rfl, rfl, fun r => ?_, fun r => ⟨refl _, rfl, fun _ => rfl⟩⟩, by decide +kernel⟩
  by_cases h : r = 3
  · subst h
    rw [xSlots_setXSlots_self]
    exact .cons ⟨rfl, fun h => by cases h⟩ (.cons ⟨rfl, fun h => by cases h⟩ .nil)
  · rw [xSlots_setXSlots_ne _ _ h]; exact refl _

theorem witness_ResetStateWellFormed : ({ n := 1, eMin := -32767, eMax := 32768 } : Params).legal := by decide

theorem witness_ResetStateValues : ({ n := 255, eMin := 0, eMax := 0 } : Params).legal := by decide

theorem witness_StepKeepsInvariant :
    (ready.withFetchWord 32 0x44C48000).wf ∧ ∃ t, step (ready.withFetchWord 32 0x44C48000) = .next t :=
  ⟨ready_wf, ⟨_, rfl⟩⟩

theorem witness_StepKeepsParametersAndOrder :
    (∃ t, step State.reset = .next t) ∧ ∃ t, step (ready.withFetchWord 32 0x44C48000) = .next t ∧ t.port = [] :=
  ⟨⟨_, rfl⟩, ⟨_, rfl, rfl⟩⟩

theorem witness_StepKeepsControlBlocksWellFormed :
    ready.controlBlocksOk ∧ ¬ (HostAccess.write (offCb 15) 0x20000001).storesMalformed 2 ∧
    ¬ (HostAccess.write (offX 0 0) 0xFFFFFFFFFFFFFFFF).storesMalformed 2 ∧
    (HostAccess.write (offCb 0) 0x60000).storesMalformed 2 ∧
    ∃ t, step (ready.withAccess (.write (offCb 15) 0x20000001)) = .next t := by
  refine ⟨fun r _ => ?_, fun h => by simp [HostAccess.storesMalformed, cbWellFormed, cbSpecial, cbReserved] at h,
    ?_, ⟨⟨0, by decide +kernel⟩, by decide +kernel⟩, ⟨_, rfl⟩⟩
  · simp only [ready, State.dSlots, Vector.getElem_replicate]; decide
  · rintro ⟨⟨r, h⟩, _⟩
    have : portMap 2 (offX 0 0) = .xLimb 0 0 := by decide +kernel
    rw [this] at h; cases h

/-- Every operand of every command is written in `ready`. -/
theorem ready_written (i : Instr) : operandsWritten i ready :=
  ⟨fun r _ => by simp [State.writtenX, ready, State.xSlots], fun r _ => by simp [State.writtenD, ready, State.dSlots]⟩

theorem witness_CommandFaultsExactlyOnUnwrittenOperand :
    (Instr.mov 2 1).wf 2 = true ∧ exec (.mov 2 1) State.reset = .fault .unwritten ∧
    operandsWritten (.mov 2 1) ready ∧
    exec (.dcb 2 1) (State.reset.setDSlots 1 { unwrittenD 2 with cb := { word := 5, mark := true } }) = .fault .unwritten ∧
    (Instr.shl 3 1 2 .saturating).wf 2 = false ∧ ¬ operandsWritten (.shl 3 1 2 .saturating) State.reset ∧
    exec (.shl 3 1 2 .saturating) State.reset =
      .next (State.reset.takeAbort .illegalCommand (encode (.shl 3 1 2 .saturating))) :=
  ⟨rfl, rfl, ready_written _, rfl, rfl, fun h => absurd (h.1 1 (by decide))
    (show ¬ allMarked (State.reset.xSlots 1) = true by decide +kernel), rfl⟩

/-- What CommandCompletesWhenNothingAborts asks, met by `ready`: a nonzero divisor, indexes in range, control blocks that trap
nothing, and for each family a legal command. -/
theorem witness_CommandCompletesWhenNothingAborts :
    ready.wf ∧ (∀ i, operandsWritten i ready) ∧ (Instr.shl 3 1 2 .saturating).wf 2 = false ∧
    (Instr.shl 3 1 2 .checked).wf 2 = true ∧ (Instr.divw 3 4 1 2 .checked).wf 2 = true ∧
    ready.readX 2 = .ok (limbsOf 2 7) ∧ uval (limbsOf 2 7) = 7 ∧ (1 : BitVec 16).toNat < ready.cfg.n ∧
    10 ^ (38 : BitVec 16).toNat < 2 ^ (64 * ready.cfg.n) ∧ 5 ^ (55 : BitVec 16).toNat < 2 ^ (64 * ready.cfg.n) ∧
    ready.cfg.eMin = -32767 ∧ ready.cfg.eMax = 32768 ∧
    ready.readD 1 = .ok { coef := limbsOf 2 15, cb := 0x20000001 } ∧ cbWellFormed 0x20000001 = true ∧
    cbTraps 0x20000001 = 0 ∧ cbRm 0x20000001 ≠ .strict :=
  ⟨ready_wf, ready_written, by decide, by decide, by decide, rfl, by decide, by decide, by decide +kernel, by decide +kernel,
    rfl, rfl, rfl, by decide, by decide, by decide⟩

/-- The command `i` aborts a block that was not aborted, with the cause `c`. -/
def abortsBy (s : State) (i : Instr) (c : BitVec 8) : Prop :=
  s.status.aborted = false ∧ i.wf s.cfg.n = true ∧ ∃ t, exec i s = .next t ∧ t.status.aborted = true ∧ t.status.cause = c

theorem abortsBy_of {s : State} {i : Instr} {c : BitVec 8}
    (h : (!s.status.aborted && i.wf s.cfg.n && nextIs (exec i s) fun t => t.status.aborted && t.status.cause == c) = true) :
    abortsBy s i c := by
  simp only [Bool.and_eq_true, Bool.not_eq_true'] at h
  obtain ⟨t, ht, hp⟩ := of_nextIs h.2
  simp only [Bool.and_eq_true, beq_iff_eq] at hp
  exact ⟨h.1.1, h.1.2, t, ht, hp⟩

theorem witness_CausesAreRaisedAsListed :
    (∀ a b, (pair a b).wf) ∧ (∀ c1 cb1 c2 cb2, (dpair c1 cb1 c2 cb2).wf) ∧
    abortsBy (pair top 1) (.add 3 1 2 .strict false) 0x02 ∧ abortsBy (pair 5 0) (.divrem 3 4 1 2 .wrapping false) 0x03 ∧
    abortsBy (pair 5 0) (.lget 3 1 2) 0x04 ∧ abortsBy (dpair 5 0x60000 0 0) (.dctx 3 1 .up 0) 0x05 ∧
    abortsBy (dpair 15 0x38000001 0 0) (.dround 3 1 0) 0x06 ∧
    abortsBy (dpair 0 0x6A0040000 0 0x6A0050000) (.dadd 3 1 2) 0x13 ∧
    abortsBy { pair top 1 with cfg := { n := 2, eMin := 0, eMax := 0 } } (.dmake 3 1 false 0xFFFF) 0x14 :=
  ⟨pair_wf, dpair_wf, abortsBy_of (by decide +kernel), abortsBy_of (by decide +kernel), abortsBy_of (by decide +kernel),
    abortsBy_of (by decide +kernel), abortsBy_of (by decide +kernel), abortsBy_of (by decide +kernel),
    abortsBy_of (by decide +kernel)⟩

theorem witness_AbortIsAtomic :
    ∃ t, step (ready.withFetchWord 32 0) = .next t ∧ t.status.aborted = true := ⟨_, rfl, rfl⟩

theorem witness_CommandWritesOnlyItsDestinations :
    ∃ t, exec (.mulw 3 4 1 2) (pair top top) = .next t ∧ t.status.aborted = false := ⟨_, rfl, rfl⟩

/-- DMOV carries DivByZero in from its operand. -/
theorem witness_DivByZeroIsNeverRaised :
    ∃ t, exec (.dmov 2 1) (dpair 0 0x100000 0 0) = .next t ∧ (cbSignals (t.dSlots 2).cb.word).has .divByZero = true := by
  obtain ⟨t, h, h2⟩ := of_nextIs (o := exec (.dmov 2 1) (dpair 0 0x100000 0 0))
    (p := fun t => (cbSignals (t.dSlots 2).cb.word).has .divByZero) (by decide +kernel)
  exact ⟨t, h, h2⟩

theorem witness_PatternReadings :
    (limbsOf 2 half).length = 2 ∧ (uval (limbsOf 2 half)).testBit 127 = true ∧
    (limbsOf 1 (2 ^ 63 - 1)).length = 1 ∧ (uval (limbsOf 1 (2 ^ 63 - 1))).testBit 63 = false := by decide +kernel

theorem witness_MovAndLdiWriteRegister : operandsAre 5 0 := operandsAre_pair _ _

theorem witness_LgetAndLsetIndexLimbs :
    operandsAre top 9 ∧ (1 : BitVec 16).toNat < (pair top 9).cfg.n ∧ (pair top 9).cfg.n ≤ (2 : BitVec 16).toNat :=
  ⟨operandsAre_pair _ _, by decide, by decide⟩

/-- An amount below the width and the width itself. -/
theorem witness_ShiftsMultiplyAndDivide : operandsAre half 127 ∧ operandsAre half 128 ∧ Mode.strict ≠ .saturating :=
  ⟨operandsAre_pair _ _, operandsAre_pair _ _, by decide⟩

theorem witness_CmpComparesReadings : operandsAre half (half - 1) ∧ operandsAre 5 5 :=
  ⟨operandsAre_pair _ _, operandsAre_pair _ _⟩

theorem witness_AddAndSubComputeExactResults : operandsAre top 1 ∧ operandsAre 0 1 ∧ operandsAre half top :=
  ⟨operandsAre_pair _ _, operandsAre_pair _ _, operandsAre_pair _ _⟩

theorem witness_MulComputesProduct : operandsAre (2 ^ 64) (2 ^ 64) ∧ operandsAre half top :=
  ⟨operandsAre_pair _ _, operandsAre_pair _ _⟩

theorem witness_MulwWritesBothHalves : operandsAre top top := operandsAre_pair _ _

/-- 17 by 5 for DIVREM; 100 by limb 0, which is 3, for DIVRD. -/
theorem witness_UnsignedDivisionIsExact :
    operandsAre 17 5 ∧ Mode.checked ≠ .saturating ∧ uval (limbsOf 2 17) = 3 * uval (limbsOf 2 5) + 2 ∧
    2 < uval (limbsOf 2 5) ∧ operandsAre 100 0x70000000000000003 ∧
    uval (limbsOf 2 100) = 33 * (uval (limbsOf 2 0x70000000000000003) % 2 ^ 64) + 1 ∧
    1 < uval (limbsOf 2 0x70000000000000003) % 2 ^ 64 :=
  ⟨operandsAre_pair _ _, by decide, by decide +kernel, by decide +kernel, operandsAre_pair _ _, by decide +kernel,
    by decide +kernel⟩

/-- -7 by 2, and `MINS / -1`. -/
theorem witness_SignedDivremTruncates :
    operandsAre (2 ^ 128 - 7) 2 ∧ sval 2 (limbsOf 2 (2 ^ 128 - 7)) = -3 * sval 2 (limbsOf 2 2) + -1 ∧
    (-1 : Int).natAbs < (sval 2 (limbsOf 2 2)).natAbs ∧ 0 ≤ (-1 : Int) * sval 2 (limbsOf 2 (2 ^ 128 - 7)) ∧
    operandsAre half top ∧ sval 2 (limbsOf 2 half) = 2 ^ 127 * sval 2 (limbsOf 2 top) + 0 ∧
    sval 2 (limbsOf 2 half) = -2 ^ 127 ∧ sval 2 (limbsOf 2 top) = -1 :=
  ⟨operandsAre_pair _ _, by decide +kernel, by decide +kernel, by decide +kernel, operandsAre_pair _ _, by decide +kernel,
    by decide +kernel, by decide +kernel⟩

/-- The largest quotient that fits in 64 bits, and one that does not. -/
theorem witness_DivwDividesTwoLimbs :
    operandsAre 0xFFFFFFFFFFFFFFFEFFFFFFFFFFFFFFFF (2 ^ 64 - 1) ∧ ready.cfg.n ≠ 1 ∧
    0xFFFFFFFFFFFFFFFEFFFFFFFFFFFFFFFF % 2 ^ 128 = (2 ^ 64 - 1) * ((2 ^ 64 - 1) % 2 ^ 64) + (2 ^ 64 - 2) ∧
    operandsAre 0x50000000000000007 5 ∧ 0x50000000000000007 % 2 ^ 128 = (2 ^ 64 + 1) * (5 % 2 ^ 64) + 2 :=
  ⟨operandsAre_pair _ _, by decide, by decide +kernel, operandsAre_pair _ _, by decide +kernel⟩

theorem witness_DivisionByZero :
    operandsAre 5 0 ∧ uval (limbsOf 2 0) = 0 ∧ operandsAre 5 (7 * 2 ^ 64) ∧
    uval (limbsOf 2 (7 * 2 ^ 64)) % 2 ^ 64 = 0 ∧ ready.cfg.n ≠ 1 ∧ Mode.strict ≠ .checked :=
  ⟨operandsAre_pair _ _, by decide, operandsAre_pair _ _, by decide +kernel, by decide, by decide⟩

/-- The last index of each table and the first beyond it. -/
theorem witness_TableReadsGivePowers :
    ready.wf ∧ 10 ^ (38 : BitVec 16).toNat < 2 ^ (64 * ready.cfg.n) ∧ 2 ^ (64 * ready.cfg.n) ≤ 10 ^ (39 : BitVec 16).toNat ∧
    5 ^ (55 : BitVec 16).toNat < 2 ^ (64 * ready.cfg.n) ∧ 2 ^ (64 * ready.cfg.n) ≤ 5 ^ (56 : BitVec 16).toNat :=
  ⟨ready_wf, by decide +kernel⟩

theorem witness_DigitsCountsDecimalDigits :
    operandsAre 0 0 ∧ uval (limbsOf 2 0) < 10 ^ 1 ∧ operandsAre 10 0 ∧ uval (limbsOf 2 10) < 10 ^ 2 ∧
    (∀ e, 1 ≤ e → uval (limbsOf 2 10) < 10 ^ e → 2 ≤ e) := by
  refine ⟨operandsAre_pair _ _, by decide, operandsAre_pair _ _, by decide, fun e h1 h2 => ?_⟩
  by_contra h
  obtain rfl : e = 1 := by omega
  revert h2; decide

theorem witness_RescalingByPowersOfTen : operandsAre 1 38 ∧ operandsAre 1 39 ∧ operandsAre top top :=
  ⟨operandsAre_pair _ _, operandsAre_pair _ _, operandsAre_pair _ _⟩

theorem witness_TablesTestAndCountDigits : top ≤ maxU 2 ∧ 38 ≤ k10 2 ∧ (1 : Nat) ≠ 0 := by decide +kernel

/-- A magnitude that must be rounded, one that is clamped, one that overflows, and zeros at both ends. -/
theorem witness_NormalizerStages :
    Config.reference.legal ∧ (normOf Config.reference (10 ^ 39) false 0 .halfUp 0).kind = .finite ∧
    (normOf Config.reference 1 false 32769 .halfUp 0).new = single .clamped ||| single .rounded ∧
    (normOf Config.reference top false 32769 .halfUp 0).kind = .inf ∧
    (normOf Config.reference 0 true (-40000) .up 0).exp = -32767 ∧ (normOf Config.reference 0 true 40000 .up 3).exp = 32768 := by
  decide +kernel

theorem witness_NormalizerResultInRange :
    Config.reference.legal ∧ (normOf Config.reference top false 32768 .halfUp 0).kind = .finite ∧
    (normOf Config.reference 1 false (-32767) .halfUp 0).kind = .finite := by decide +kernel

theorem witness_InexactExactlyWhenValueChanges :
    Config.reference.legal ∧ (normOf Config.reference (10 ^ 39) false 0 .halfUp 0).new.has .inexact = false ∧
    (normOf Config.reference (10 ^ 39 + 1) false 0 .halfUp 0).new.has .inexact = true := by decide +kernel

/-- `10^39` does not fit in two limbs and `10^38` does; `MAXU * 10 + 5` rounds up out of the last digit. -/
theorem witness_ShiftCountFromLeastCut :
    10 ^ 39 / 10 ^ 1 ≤ maxU 2 ∧ (∀ j, 0 ≤ j → j < 1 → maxU 2 < 10 ^ 39 / 10 ^ j) ∧
    (top * 10 + 5) / 10 ^ 1 ≤ maxU 2 ∧ roundDiv (top * 10 + 5) 1 false .halfUp = maxU 2 + 1 := by
  refine ⟨by decide +kernel, fun j _ h => ?_, by decide +kernel, by decide +kernel⟩
  obtain rfl : j = 0 := by omega
  decide +kernel

theorem witness_DmakeConstructsDecimal :
    operandsAre top 0 ∧ (pair top 0).cfg.eMin = -32767 ∧ (pair top 0).cfg.eMax = 32768 := ⟨operandsAre_pair _ _, rfl, rfl⟩

/-- The two operands of D6.25, 1.5 and 1.5. -/
def onePointFive : DecOperand :=
  { kind := .finite, coef := 15, neg := false, exp := -1, signals := 0, ctx := Context.default }

theorem witness_DaddDsubOfFiniteOperands :
    decimalsAre 15 0x6A0000001 15 0x6A0000001 onePointFive onePointFive ∧ onePointFive.kind = .finite :=
  ⟨⟨dpair_wf _ _ _ _, dpair_d1 _ _ _ _, dpair_d2 _ _ _ _, rfl, rfl⟩, rfl⟩

/-- The highest exponent and the lowest one. -/
theorem witness_DmulOfFiniteOperands :
    decimalsAre 1 0x6A0008000 1 0x6A0007FFF
      { kind := .finite, coef := 1, neg := false, exp := 32768, signals := 0, ctx := Context.default }
      { kind := .finite, coef := 1, neg := false, exp := -32767, signals := 0, ctx := Context.default } :=
  ⟨dpair_wf _ _ _ _, dpair_d1 _ _ _ _, dpair_d2 _ _ _ _, rfl, rfl⟩

theorem witness_DecimalRegisterMoves :
    (dpair 5 0x6A0000001 0 0).wf ∧ (dpair 5 0x6A0000001 0 0).readD 1 = .ok { coef := limbsOf 2 5, cb := 0x6A0000001 } ∧
    cbWellFormed 0x6A0000001 = true := ⟨dpair_wf _ _ _ _, dpair_d1 _ _ _ _, by decide⟩

/-- One digit to drop, none to drop, and an Infinity. -/
theorem witness_DroundAndDtruncReachScale :
    decimalsAre 15 0x6A0000001 0 0x6A0040000 onePointFive
      { kind := .inf, coef := 0, neg := false, exp := 0, signals := 0, ctx := Context.default } ∧
    ((1 : Nat) : Int) = max 0 (-onePointFive.exp - (0 : BitVec 16).toInt) ∧
    ((0 : Nat) : Int) = max 0 (-onePointFive.exp - (1 : BitVec 16).toInt) :=
  ⟨⟨dpair_wf _ _ _ _, dpair_d1 _ _ _ _, dpair_d2 _ _ _ _, rfl, rfl⟩, by decide, by decide⟩

theorem witness_InfinityTables :
    decimalsAre 0 0x6A0040000 0 0x6A0050000
      { kind := .inf, coef := 0, neg := false, exp := 0, signals := 0, ctx := Context.default }
      { kind := .inf, coef := 0, neg := true, exp := 0, signals := 0, ctx := Context.default } ∧
    decimalsAre 0 0x6A0000000 0 0x6A0040000
      { kind := .finite, coef := 0, neg := false, exp := 0, signals := 0, ctx := Context.default }
      { kind := .inf, coef := 0, neg := false, exp := 0, signals := 0, ctx := Context.default } :=
  ⟨⟨dpair_wf _ _ _ _, dpair_d1 _ _ _ _, dpair_d2 _ _ _ _, rfl, rfl⟩,
    ⟨dpair_wf _ _ _ _, dpair_d1 _ _ _ _, dpair_d2 _ _ _ _, rfl, rfl⟩⟩

/-- D6.21: 3 and a NaN that carries Rounded; for DROUND and DTRUNC, the NaN in `d2` as both operands. -/
theorem witness_NanIsAbsorbing :
    decimalsAre 3 0x6A0000000 0 0x6A1020000
      { kind := .finite, coef := 3, neg := false, exp := 0, signals := 0, ctx := Context.default }
      { kind := .nan, coef := 0, neg := false, exp := 0, signals := 0x20, ctx := Context.default } :=
  ⟨dpair_wf _ _ _ _, dpair_d1 _ _ _ _, dpair_d2 _ _ _ _, rfl, rfl⟩

/-- `special` 11 in one operand, the highest reserved bit set in the other. -/
theorem witness_MalformedOperandAborts :
    (dpair 5 0x60000 5 0x8000000000000000).wf ∧
    (dpair 5 0x60000 5 0x8000000000000000).readD 1 = .ok { coef := limbsOf 2 5, cb := 0x60000 } ∧
    (dpair 5 0x60000 5 0x8000000000000000).readD 2 = .ok { coef := limbsOf 2 5, cb := 0x8000000000000000 } ∧
    cbSpecial 0x60000 = 3 ∧ cbReserved 0x60000 = 0 ∧ cbReserved 0x8000000000000000 ≠ 0 :=
  ⟨dpair_wf _ _ _ _, dpair_d1 _ _ _ _, dpair_d2 _ _ _ _, by decide, by decide, by decide⟩

/-- 1.5 + 1.5, 1.5 - 1.5 and 1.5 * 1.5 are exact. -/
theorem witness_ArithmeticIsExactUnlessInexact :
    Config.reference.legal ∧ onePointFive.kind = .finite ∧
    (addResult Config.reference onePointFive onePointFive).new.has .inexact = false ∧
    (addResult Config.reference onePointFive (negateOperand onePointFive)).new.has .inexact = false ∧
    (mulResult Config.reference onePointFive onePointFive).new.has .inexact = false := by decide +kernel

theorem witness_ComparatorLimbProcedureAgrees : (limbsOf 2 top).length = 2 ∧ (limbsOf 2 0).length = 2 := by decide

/-- The largest high half the divider accepts, and the smallest divisor. -/
theorem witness_EngineDividersAreExact : 2 ^ 64 - 2 < 2 ^ 64 - 1 ∧ 2 ^ 64 - 1 < 2 ^ 64 ∧ (0 < 1 ∧ 1 < 2 ^ 64) := by decide

theorem witness_AssemblyNamesOneCommand : assemblyOf (.dctx 1 2 .up 0x1A) = assemblyOf (.dctx 1 2 .up 0x1A) := rfl

/-- A read of a word that nothing has written, twice; and the write of one, twice. -/
theorem witness_ReadsAndRegisterWritesAreIdempotent :
    (((aborted State.reset).withAccess (.read (offX 0 0))).withAccess (.read (offX 0 0))).wf ∧
    (aborted State.reset).portWord (offX 0 0) = none ∧
    (((aborted State.reset).withAccess (.read (offX 0 0))).withAccess (.read (offX 0 0))).port =
      .read (offX 0 0) :: .read (offX 0 0) :: [] ∧
    (ready.withAccess (.write (offCb 15) 9)).wf ∧ registerOffset 2 (offCb 15) :=
  ⟨(show (aborted State.reset).wf from aborted_reset_wf), by decide +kernel, rfl, ready_wf, .inr (.inr ⟨15, rfl⟩)⟩

end Sys2Proof.Tests
end

/-! PROOFS. The scope file's statements (`00_scope.md`): what one access of the host port can do, the machine's invariant at reset
and after every step, the readings of a pattern, and the derived constants. -/

section
open Sys2Proof Sys2Proof.Machine

namespace Sys2Proof.Machine

/-! ### What a step can do -/

/-- The next state of a command: legal and completed, legal with an abort of one of its causes, or an ill-formed term that
aborts as the illegal word does (R340, R345). -/
theorem exec_next {i : Instr} {s t : State} (h : exec i s = .next t) :
    (i.wf s.cfg.n = true ∧ operandsWritten i s ∧ Completed i s t) ∨
      (i.wf s.cfg.n = true ∧ ∃ c, mayRaise i c ∧ t = s.takeAbort c (encode i)) ∨
      (i.wf s.cfg.n = false ∧ t = s.takeAbort .illegalCommand (encode i)) := by
  obtain ⟨rule, hexec, hends⟩ := command_ends i s
  rw [hexec] at h
  rcases runCommand_next h with ⟨hw, hrule⟩ | ⟨hw, c, hrule, ht⟩ | ⟨hw, ht⟩
  · rcases hends hw with ⟨hu, _⟩ | ⟨how, ⟨t', ht', hc⟩ | ⟨c, hc, _⟩⟩
    · simp [hrule] at hu
    · obtain rfl : t = t' := by simpa [hrule] using ht'
      exact .inl ⟨hw, how, hc⟩
    · simp [hrule] at hc
  · rcases hends hw with ⟨hu, _⟩ | ⟨_, ⟨t', ht', _⟩ | ⟨c', hc', hr⟩⟩
    · simp [hrule] at hu
    · simp [hrule] at ht'
    · obtain rfl : c = c' := by simpa [hrule] using hc'
      exact .inr (.inl ⟨hw, c, hr, ht⟩)
  · exact .inr (.inr ⟨hw, ht⟩)

/-- What one access can do to the block, with the word of the map that decides it (R86 to R88, R340, R346). -/
inductive Performed (s : State) : HostAccess → State → Prop
  | read (off : BitVec 16) : Performed s (.read off) (s.hostRead off)
  | ignored (off : BitVec 16) (v : Word)
      (hm : portMap s.cfg.n off ∈ [.status, .abortCmd, .flags, .config, .unlisted]) : Performed s (.write off v) s
  | reset (off : BitVec 16) (v : Word) (hm : portMap s.cfg.n off = .reset) : Performed s (.write off v) s.resetBlock
  | xLimb (off : BitVec 16) (v : Word) (r : XIdx) (j : Nat) (hm : portMap s.cfg.n off = .xLimb r j) :
      Performed s (.write off v) (s.writeXLimb r j v)
  | dLimb (off : BitVec 16) (v : Word) (r : DIdx) (j : Nat) (hm : portMap s.cfg.n off = .dLimb r j) :
      Performed s (.write off v) (s.writeDLimb r j v)
  | dCb (off : BitVec 16) (v : Word) (r : DIdx) (hm : portMap s.cfg.n off = .dCb r) :
      Performed s (.write off v) (s.writeDCb r v)
  | commandWhileAborted (off : BitVec 16) (v : Word) (hm : portMap s.cfg.n off = .command)
      (ha : s.status.aborted = true) : Performed s (.write off v) s
  | illegalWord (off : BitVec 16) (v : Word) (e : Reject) (hm : portMap s.cfg.n off = .command)
      (ha : s.status.aborted = false) (hd : decode s.cfg.n (v.setWidth 32) = .error e) :
      Performed s (.write off v) (s.takeAbort .illegalCommand (v.setWidth 32))
  | command (off : BitVec 16) (v : Word) (i : Instr) (t : State) (hm : portMap s.cfg.n off = .command)
      (ha : s.status.aborted = false) (hd : decode s.cfg.n (v.setWidth 32) = .ok i) (he : exec i s = .next t) :
      Performed s (.write off v) t

/-- A write to `COMMAND` that answers a next state (R113, R340, R346). -/
theorem performed_of_issue {s t : State} {off : BitVec 16} {v : Word} (hm : portMap s.cfg.n off = .command)
    (h : issue (v.setWidth 32) s = .next t) : Performed s (.write off v) t := by
  cases ha : s.status.aborted with
  | true =>
    obtain rfl : s = t := by simpa [issue, ha] using h
    exact .commandWhileAborted off v hm ha
  | false =>
    cases hd : decode s.cfg.n (v.setWidth 32) with
    | error e =>
      obtain rfl : s.takeAbort .illegalCommand (v.setWidth 32) = t := by simpa [issue, ha, hd] using h
      exact .illegalWord off v e hm ha hd
    | ok i => exact .command off v i t hm ha hd (by simpa [issue, ha, hd] using h)

/-- A host write that answers a next state, by the word its offset names (R87). -/
theorem performed_of_hostWrite {s t : State} {off : BitVec 16} {v : Word} (h : hostWrite off v s = .next t) :
    Performed s (.write off v) t := by
  cases hm : portMap s.cfg.n off <;> simp only [hostWrite, hm, Host.Outcome.next.injEq] at h
  case command => exact performed_of_issue hm h
  case reset => exact h ▸ .reset off v hm
  case xLimb r j => exact h ▸ .xLimb off v r j hm
  case dLimb r j => exact h ▸ .dLimb off v r j hm
  case dCb r => exact h ▸ .dCb off v r hm
  all_goals exact h ▸ .ignored off v (by simp [hm])

/-- A step idles with no access waiting, or performs the first one on the block without it (R84, R90, R356). -/
theorem step_next {s t : State} (h : step s = .next t) :
    (s.port = [] ∧ t = s) ∨ ∃ a rest, s.port = a :: rest ∧ Performed { s with port := rest } a t := by
  cases hp : s.port with
  | nil => exact .inl ⟨rfl, by simpa [step, performNext, hp, eq_comm] using h⟩
  | cons a rest =>
    simp only [step, performNext, hp] at h
    refine .inr ⟨a, rest, rfl, ?_⟩
    cases a with
    | read off =>
      obtain rfl : State.hostRead { s with port := rest } off = t := by simpa [perform] using h
      exact .read off
    | write off v => exact performed_of_hostWrite h

/-! ### The machine's invariant (R7, R8, R31, R32, R43, R44) -/

/-- The invariant speaks of the parameters, the registers and the abort record only. -/
theorem wf_of_same {s t : State} (hcfg : t.cfg = s.cfg) (hx : t.x = s.x) (hd : t.d = s.d) (hst : t.status = s.status)
    (hcmd : t.abortCmd = s.abortCmd) (h : s.wf) : t.wf := by
  simpa [State.wf, State.shaped, State.xSlots, State.dSlots, State.abortRecordOk, hcfg, hx, hd, hst, hcmd] using h

/-- The state after reset meets the invariant: STATUS and ABORT_CMD are both 0 (R60). -/
theorem wf_resetOf {p : Params} (hp : p.legal) : (State.resetOf p).wf := by
  have hshape : (State.resetOf p).shaped := ⟨fun r => by simp [unwrittenX], fun r => by simp [unwrittenD]⟩
  have hrecord : (State.resetOf p).abortRecordOk :=
    ⟨fun _ => ⟨rfl, rfl⟩, fun ha => by simp [Status.zero] at ha, by simp⟩
  exact ⟨hp, hshape, hrecord⟩

/-- After reset no control block is written, so none is malformed (R35, R60). -/
theorem controlBlocksOk_resetOf (p : Params) : (State.resetOf p).controlBlocksOk := by
  intro r hmark
  simp [unwrittenD, Slot.unwritten] at hmark

/-- A write to `RESET` leaves the registers and the abort record of the state after reset (R380). -/
theorem wf_resetBlock {s : State} (h : s.wf) : s.resetBlock.wf := by
  obtain ⟨hlegal, _, _⟩ := h
  exact wf_of_same rfl rfl rfl rfl rfl (wf_resetOf hlegal)

/-- An abort records a cause of R341 and a 32-bit word, and writes no register (R345). -/
theorem wf_takeAbort {s : State} (c : Cause) (w : CmdWord) (h : s.wf) : (s.takeAbort c w).wf := by
  obtain ⟨hlegal, hshape, _⟩ := h
  have hword : (w.setWidth 64).toNat < 2 ^ 32 := by
    rw [BitVec.toNat_setWidth]
    exact (Nat.mod_le _ _).trans_lt w.isLt
  exact ⟨hlegal, hshape, fun ha => by simp at ha, fun _ => ⟨c, rfl⟩, hword⟩

/-- Storing N words in an integer register. -/
theorem wf_setXSlots {s : State} (r : XIdx) {v : List Slot} (hv : v.length = s.cfg.n) (h : s.wf) :
    (s.setXSlots r v).wf := by
  obtain ⟨hlegal, ⟨hx, hd⟩, hrecord⟩ := h
  refine ⟨hlegal, ⟨fun q => ?_, hd⟩, hrecord⟩
  by_cases hq : q = r
  · subst hq
    simpa using hv
  · rw [xSlots_setXSlots_ne s v hq]
    exact hx q

/-- Storing a decimal register whose coefficient has N words. -/
theorem wf_setDSlots {s : State} (r : DIdx) {v : DecReg} (hv : v.coef.length = s.cfg.n) (h : s.wf) :
    (s.setDSlots r v).wf := by
  obtain ⟨hlegal, ⟨hx, hd⟩, hrecord⟩ := h
  refine ⟨hlegal, ⟨hx, fun q => ?_⟩, hrecord⟩
  by_cases hq : q = r
  · subst hq
    simpa using hv
  · rw [dSlots_setDSlots_ne s v hq]
    exact hd q

/-- A completed command writes whole registers and no abort record. -/
theorem Completed.wf {i : Instr} {s t : State} (hc : Completed i s t) (h : s.wf) : t.wf := by
  obtain ⟨hlegal, hshape, hrecord⟩ := h
  refine ⟨hc.cfg ▸ hlegal, hc.shaped hshape, ?_⟩
  simpa only [State.abortRecordOk, hc.status, hc.abortCmd] using hrecord

theorem exec_keeps_wf {i : Instr} {s t : State} (h : s.wf) (he : exec i s = .next t) : t.wf := by
  rcases exec_next he with ⟨_, _, hc⟩ | ⟨_, c, _, rfl⟩ | ⟨_, rfl⟩
  · exact hc.wf h
  · exact wf_takeAbort c _ h
  · exact wf_takeAbort .illegalCommand _ h

/-- Every access of the host port keeps the invariant. -/
theorem Performed.wf {s t : State} {a : HostAccess} (hp : Performed s a t) (h : s.wf) : t.wf := by
  have ⟨_, ⟨hx, hd⟩, _⟩ := h
  cases hp with
  | read off => exact wf_of_same rfl rfl rfl rfl rfl h
  | ignored => exact h
  | reset => exact wf_resetBlock h
  | xLimb off v r j => exact wf_setXSlots r (by simpa using hx r) h
  | dLimb off v r j => exact wf_setDSlots r (by simpa using hd r) h
  | dCb off v r => exact wf_setDSlots r (hd r) h
  | commandWhileAborted => exact h
  | illegalWord off v => exact wf_takeAbort .illegalCommand _ h
  | command off v i t hm ha hd he => exact exec_keeps_wf h he

/-- Settles O15, by the cases of `step_next`. -/
theorem stepKeepsInvariant : Obligations.StepKeepsInvariant := by
  intro s t h hstep
  rcases step_next hstep with ⟨_, rfl⟩ | ⟨a, rest, _, hp⟩
  · exact h
  · exact hp.wf (wf_of_same rfl rfl rfl rfl rfl h)

/-- Settles O13: the reference parameters are legal ones (R7, R8). -/
theorem resetStateWellFormed : Obligations.ResetStateWellFormed := by
  have hreference : Config.reference.legal := by decide
  exact ⟨fun p hp => ⟨wf_resetOf hp, controlBlocksOk_resetOf p⟩, wf_resetOf hreference, controlBlocksOk_resetOf _⟩

/-! ### The readings of a pattern (R12) -/

/-- Bit `j` of limb `i` is bit `64i + j` of the BigUInt reading (R11). -/
theorem testBit_uval (a : LimbArray) (i : Nat) {j : Nat} (hj : j < 64) :
    (uval a).testBit (64 * i + j) = (limb a i).getLsbD j := by
  calc (uval a).testBit (64 * i + j) = (uval a / 2 ^ (64 * i) % 2 ^ 64).testBit j := by
        rw [Nat.testBit_mod_two_pow, Nat.testBit_div_two_pow, decide_eq_true hj, Bool.true_and, Nat.add_comm]
    _ = (limb a i).getLsbD j := by rw [← limb_toNat, BitVec.testBit_toNat]

theorem sval_of_top_set {n : Nat} {a : LimbArray} (h : (uval a).testBit (width n - 1) = true) :
    sval n a = (uval a : Int) - modulus n := if_pos h

theorem sval_of_top_clear {n : Nat} {a : LimbArray} (h : (uval a).testBit (width n - 1) = false) :
    sval n a = uval a := if_neg (by simp [h])

/-- The pattern of an integer is the only N-limb pattern with the same residue. -/
theorem pat_eq_of_emod {n : Nat} {a : LimbArray} {v : Int} (ha : a.length = n) (h : v % modulus n = uval a) :
    pat n v = a := by
  apply eq_of_uval_eq (by simp [ha])
  have := (uval_pat n v).trans h
  exact_mod_cast this

theorem pat_uval {n : Nat} {a : LimbArray} (ha : a.length = n) : pat n (uval a) = a :=
  pat_eq_of_emod ha (by exact_mod_cast Nat.mod_eq_of_lt (uval_lt_of_length ha))

theorem pat_sval {n : Nat} {a : LimbArray} (hn : 1 ≤ n) (ha : a.length = n) : pat n (sval n a) = a :=
  pat_eq_of_emod ha (sval_emod hn ha)

theorem natCast_modulus (n : Nat) : (modulus n : Int) = 2 ^ (64 * n) := by
  simp [modulus, width]

/-- Settles O24. -/
theorem patternReadings : Obligations.PatternReadings := by
  intro n a hn ha
  refine ⟨uval_lt_of_length ha, fun i j _ hj => testBit_uval a i hj, fun htop => ?_, sval_of_top_clear,
    fun v => ⟨length_pat n v, ?_⟩, pat_uval ha, pat_sval hn ha⟩
  · rw [← natCast_modulus]
    exact sval_of_top_set htop
  · rw [← natCast_modulus]
    exact uval_pat n v

/-! ### The derived constants (R9) -/

/-- A greater number has no fewer decimal digits. -/
theorem dc_mono {m k : Nat} (h : m ≤ k) : dc m ≤ dc k := by
  rcases Nat.eq_zero_or_pos m with rfl | hm
  · exact one_le_dc k
  · have hpow : 10 ^ (dc m - 1) < 10 ^ dc k :=
      calc 10 ^ (dc m - 1) ≤ m := pow_dc_le hm.ne'
        _ ≤ k := h
        _ < 10 ^ dc k := lt_pow_dc k
    have := (Nat.pow_lt_pow_iff_right (by decide : 1 < 10)).1 hpow
    omega

/-- `MAXU` has `MAX_CLENGTH(N)` digits. -/
theorem dc_maxU (n : Nat) : dc (maxU n) = maxCLength n := by
  have h : 1 ≤ digitCount 10 (maxU n) := one_le_dc (maxU n)
  simp only [dc, maxCLength, k10]
  omega

/-- No coefficient has more than `MAX_CLENGTH(N)` digits. -/
theorem dc_le_maxCLength {n m : Nat} (h : m < modulus n) : dc m ≤ maxCLength n :=
  dc_maxU n ▸ dc_mono ((le_maxU_iff n m).2 h)

/-- The end of the table of the powers of `b`, found by trying two neighbours (R9). -/
theorem tableEnd_eq {b n k : Nat} (hb : 2 ≤ b) (hn : 1 ≤ n) (hfits : b ^ k ≤ maxU n) (hnext : maxU n < b ^ (k + 1)) :
    digitCount b (maxU n) - 1 = k := by
  have hle := (pow_le_maxU_iff b hb n k).1 hfits
  have hlt := mt (pow_le_maxU_iff b hb n (k + 1)).2 (Nat.not_le.2 hnext)
  omega

/-- The values of `K10` that the spec lists (R9). -/
theorem k10_values : k10 1 = 19 ∧ k10 2 = 38 ∧ k10 4 = 77 ∧ k10 8 = 154 := by
  refine ⟨?_, ?_, ?_, ?_⟩ <;> exact tableEnd_eq (by decide) (by decide) (by decide +kernel) (by decide +kernel)

/-- The values of `K5` that the spec lists (R9). -/
theorem k5_values : k5 1 = 27 ∧ k5 2 = 55 ∧ k5 4 = 110 ∧ k5 8 = 220 := by
  refine ⟨?_, ?_, ?_, ?_⟩ <;> exact tableEnd_eq (by decide) (by decide) (by decide +kernel) (by decide +kernel)

/-- Settles O25. -/
theorem derivedConstants : Obligations.DerivedConstants := by
  obtain ⟨ten1, ten2, ten4, ten8⟩ := k10_values
  obtain ⟨five1, five2, five4, five8⟩ := k5_values
  refine ⟨fun n => ⟨rfl, rfl, rfl, fun k => pow_le_maxU_iff 10 (by decide) n k,
    fun k => pow_le_maxU_iff 5 (by decide) n k, rfl, dc_maxU n, fun m hm => dc_le_maxCLength hm⟩, ?_, ?_, ?_⟩
  · simp [ten1, ten2, ten4, ten8]
  · simp [five1, five2, five4, five8]
  · simp [maxCLength, ten1, ten2, ten4, ten8]

end Sys2Proof.Machine
end

/-! PROOFS. The state file's statements (`10_state.md`), first what nothing has written (R48, R49, R382): agreement is kept by the
shared operations, then by every rule that is built of them, then by one access of the host port. -/

section
open Sys2Proof Sys2Proof.Machine

namespace Sys2Proof.Machine

theorem slotsAgree_refl (a : List Slot) : slotsAgree a a :=
  List.forall₂_same.2 fun _ _ => ⟨rfl, fun _ => rfl⟩

theorem allMarked_of_slotsAgree {a b : List Slot} (h : slotsAgree a b) : allMarked a = allMarked b := by
  induction h with
  | nil => rfl
  | cons hab _ ih => simpa [allMarked, hab.1] using congrArg _ ih

/-- A register whose words are all marked shows them. -/
theorem slotWords_of_slotsAgree {a b : List Slot} (h : slotsAgree a b) (hm : allMarked a = true) :
    slotWords a = slotWords b := by
  induction h with
  | nil => rfl
  | cons hab _ ih =>
    simp only [allMarked, List.all_cons, Bool.and_eq_true] at hm
    obtain ⟨hhead, htail⟩ := hm
    simp only [slotWords, List.map_cons, hab.2 hhead, List.cons.injEq, true_and]
    exact ih htail

section
variable {s t : State} (h : s.agrees t)
include h

theorem State.agrees.cfg_eq : s.cfg = t.cfg := h.1

theorem State.agrees.flags_eq : s.flags = t.flags := h.2.1

theorem State.agrees.xSlots (r : XIdx) : slotsAgree (s.xSlots r) (t.xSlots r) := by
  obtain ⟨_, _, _, _, _, _, _, hx, _⟩ := h
  exact hx r

theorem State.agrees.dSlots (r : DIdx) :
    slotsAgree (s.dSlots r).coef (t.dSlots r).coef ∧ (s.dSlots r).cb.agrees (t.dSlots r).cb := by
  obtain ⟨_, _, _, _, _, _, _, _, hd⟩ := h
  exact hd r

/-- A command reads the same operand, or stops for both. -/
theorem State.agrees.readX_eq (r : XIdx) : s.readX r = t.readX r := by
  simp only [State.readX, ← allMarked_of_slotsAgree (h.xSlots r)]
  split
  · rename_i hm
    rw [slotWords_of_slotsAgree (h.xSlots r) hm]
  · rfl

theorem State.agrees.readD_eq (r : DIdx) : s.readD r = t.readD r := by
  obtain ⟨hcoef, hmark, hword⟩ := h.dSlots r
  simp only [State.readD, ← allMarked_of_slotsAgree hcoef, ← hmark]
  split
  · rename_i hm
    simp only [Bool.and_eq_true] at hm
    rw [slotWords_of_slotsAgree hcoef hm.1, hword hm.2]
  · rfl

theorem State.agrees.readDec2_eq (a b : DIdx) : readDec2 s a b = readDec2 t a b := by
  simp only [readDec2, h.readD_eq]

/-! Updates that store the same thing keep the agreement. -/

theorem State.agrees.setXSlots (r : XIdx) {v w : List Slot} (hv : slotsAgree v w) :
    (s.setXSlots r v).agrees (t.setXSlots r w) := by
  obtain ⟨hcfg, hflags, hstatus, habort, hport, hdata, hresets, hx, hd⟩ := h
  refine ⟨hcfg, hflags, hstatus, habort, hport, hdata, hresets, fun q => ?_, hd⟩
  by_cases hq : q = r
  · subst hq
    simpa using hv
  · simpa only [xSlots_setXSlots_ne _ _ hq] using hx q

theorem State.agrees.setDSlots (r : DIdx) {v w : DecReg} (hcoef : slotsAgree v.coef w.coef) (hcb : v.cb.agrees w.cb) :
    (s.setDSlots r v).agrees (t.setDSlots r w) := by
  obtain ⟨hcfg, hflags, hstatus, habort, hport, hdata, hresets, hx, hd⟩ := h
  refine ⟨hcfg, hflags, hstatus, habort, hport, hdata, hresets, hx, fun q => ?_⟩
  by_cases hq : q = r
  · subst hq
    simpa using ⟨hcoef, hcb⟩
  · simpa only [dSlots_setDSlots_ne _ _ hq] using hd q

theorem State.agrees.writeX (r : XIdx) (a : LimbArray) : (s.writeX r a).agrees (t.writeX r a) :=
  h.setXSlots r (slotsAgree_refl _)

theorem State.agrees.writeD (r : DIdx) (v : DecWord) : (s.writeD r v).agrees (t.writeD r v) :=
  h.setDSlots r (slotsAgree_refl _) ⟨rfl, fun _ => rfl⟩

theorem State.agrees.withFlags {f g : Flags} (hfg : f = g) :
    State.agrees { s with flags := f } { t with flags := g } := by
  obtain ⟨hcfg, _, hrest⟩ := h
  exact ⟨hcfg, hfg, hrest⟩

theorem State.agrees.putArith (f : ArithFlags) (b : Bool) : (s.putArith f b).agrees (t.putArith f b) :=
  h.withFlags (by rw [h.flags_eq])

theorem State.agrees.takeAbort (c : Cause) (w : CmdWord) : (s.takeAbort c w).agrees (t.takeAbort c w) := by
  obtain ⟨hcfg, hflags, _, _, hrest⟩ := h
  exact ⟨hcfg, hflags, rfl, rfl, hrest⟩

theorem State.agrees.withPort (p : List HostAccess) : State.agrees { s with port := p } { t with port := p } := by
  obtain ⟨hcfg, hflags, hstatus, habort, _, hrest⟩ := h
  exact ⟨hcfg, hflags, hstatus, habort, rfl, hrest⟩

theorem State.agrees.withReadData (w : Word) : State.agrees { s with readData := w } { t with readData := w } := by
  obtain ⟨hcfg, hflags, hstatus, habort, hport, _, hrest⟩ := h
  exact ⟨hcfg, hflags, hstatus, habort, hport, rfl, hrest⟩

/-- A reset forgets the contents of every register (R382). -/
theorem State.agrees.resetBlock : s.resetBlock.agrees t.resetBlock := by
  obtain ⟨hcfg, _, _, _, hport, hdata, hresets, _, _⟩ := h
  refine ⟨hcfg, rfl, rfl, rfl, hport, hdata, by simp [hresets], fun r => ?_, fun r => ?_⟩
  · simpa only [xSlots_resetBlock, hcfg] using slotsAgree_refl _
  · simpa only [dSlots_resetBlock, hcfg] using ⟨slotsAgree_refl _, rfl, fun _ => rfl⟩

end

theorem State.agrees.writeXs {s t : State} (h : s.agrees t) (ws : List XWrite) :
    (s.writeXs ws).agrees (t.writeXs ws) := by
  induction ws generalizing s t with
  | nil => exact h
  | cons p ws ih => exact ih (h.writeX p.1 p.2)

/-- Two endings of a rule agree: the same stop, or next states that agree. -/
inductive RulesAgree : Except Stop State → Except Stop State → Prop
  | ok {s t : State} (h : s.agrees t) : RulesAgree (.ok s) (.ok t)
  | error (e : Stop) : RulesAgree (.error e) (.error e)

/-- A rule that begins with the same read. -/
theorem rulesAgree_bind {α : Type} (m : Except Stop α) {f g : α → Except Stop State}
    (h : ∀ u, RulesAgree (f u) (g u)) : RulesAgree (m >>= f) (m >>= g) := by
  cases m with
  | error e => exact .error e
  | ok u => exact h u

section
variable {s t : State} (h : s.agrees t)
include h

/-- Rules that end alike give answers that agree: the frame of a command uses the parameters alone (R340). -/
theorem runCommand_agree {i : Instr} {a b : Except Stop State} (hab : RulesAgree a b) :
    outcomesAgree (runCommand i s a) (runCommand i t b) := by
  cases hw : i.wf s.cfg.n with
  | false =>
    rw [runCommand_illegal hw, runCommand_illegal (h.cfg_eq ▸ hw)]
    exact h.takeAbort _ _
  | true =>
    have hw' : i.wf t.cfg.n = true := h.cfg_eq ▸ hw
    cases hab with
    | ok hst =>
      rw [runCommand_ok hw, runCommand_ok hw']
      exact hst
    | error e =>
      cases e with
      | unwritten =>
        rw [runCommand_unwritten hw, runCommand_unwritten hw']
        rfl
      | abort c =>
        rw [runCommand_abort hw, runCommand_abort hw']
        exact h.takeAbort c _

theorem finish_agree (mode : Mode) (exc : Option Cause) (res sat : List XWrite) (f : ArithFlags) :
    RulesAgree (finish mode exc res sat f s) (finish mode exc res sat f t) := by
  have hres := RulesAgree.ok ((h.writeXs res).putArith f false)
  cases mode with
  | wrapping => exact hres
  | overflowing => exact hres
  | checked =>
    cases exc with
    | none => exact hres
    | some c => exact .ok (h.putArith f true)
  | strict =>
    cases exc with
    | none => exact hres
    | some c => exact .error _
  | saturating =>
    cases exc with
    | none => exact hres
    | some c => exact .ok ((h.writeXs sat).putArith f false)

theorem divZero_agree (mode : Mode) : RulesAgree (divZero mode s) (divZero mode t) := by
  cases mode
  case checked => exact .ok (h.putArith _ _)
  all_goals exact .error _

theorem tableRead_agree (rd : XIdx) (last k entry : Nat) :
    RulesAgree (tableRead rd last k entry s) (tableRead rd last k entry t) := by
  simp only [tableRead, h.cfg_eq]
  split
  · exact .error _
  · exact .ok (h.writeX _ _)

theorem finishDecimal_agree (rd : DIdx) (r : NormResult) (inherited : SignalSet) (ctx : Context) :
    RulesAgree (finishDecimal rd r inherited ctx s) (finishDecimal rd r inherited ctx t) := by
  simp only [finishDecimal, h.cfg_eq]
  split
  · exact .error _
  · split
    · exact .error _
    · exact .ok (h.writeD _ _)

theorem finishAdder_agree (rd : XIdx) (mode : Mode) (sgn : Bool) (tu ts : Int) (sat : LimbArray) :
    RulesAgree (finishAdder rd mode sgn tu ts sat s) (finishAdder rd mode sgn tu ts sat t) := by
  simp only [finishAdder, h.cfg_eq]
  exact finish_agree h _ _ _ _ _

theorem divremRule_agree (rd rd2 : XIdx) (mode : Mode) (sgn : Bool) (a b : LimbArray) :
    RulesAgree (divremRule rd rd2 mode sgn a b s) (divremRule rd rd2 mode sgn a b t) := by
  simp only [divremRule, h.cfg_eq]
  split_ifs
  · exact divZero_agree h _
  · exact finish_agree h _ _ _ _ _
  · exact divZero_agree h _
  · exact finish_agree h _ _ _ _ _

theorem divwRule_agree (rd rd2 : XIdx) (mode : Mode) (hi lo v : Nat) :
    RulesAgree (divwRule rd rd2 mode hi lo v s) (divwRule rd rd2 mode hi lo v t) := by
  simp only [divwRule, h.cfg_eq]
  split
  · exact divZero_agree h _
  · exact finish_agree h _ _ _ _ _

/-- A rule that reads one integer register. -/
theorem rulesAgree_readX (a : XIdx) {f g : LimbArray → Except Stop State} (hf : ∀ u, RulesAgree (f u) (g u)) :
    RulesAgree (s.readX a >>= f) (t.readX a >>= g) := by
  rw [h.readX_eq]
  exact rulesAgree_bind _ hf

/-- A rule that reads one decimal register. -/
theorem rulesAgree_readD (a : DIdx) {f g : DecWord → Except Stop State} (hf : ∀ u, RulesAgree (f u) (g u)) :
    RulesAgree (s.readD a >>= f) (t.readD a >>= g) := by
  rw [h.readD_eq]
  exact rulesAgree_bind _ hf

/-- A rule that reads two integer registers. -/
theorem rulesAgree_readX2 (a b : XIdx) {f g : LimbArray → LimbArray → Except Stop State}
    (hf : ∀ u v, RulesAgree (f u v) (g u v)) :
    RulesAgree (do let u ← s.readX a; let v ← s.readX b; f u v) (do let u ← t.readX a; let v ← t.readX b; g u v) :=
  rulesAgree_readX h a fun u => rulesAgree_readX h b (hf u)

/-- A rule that reads two arithmetic operands. -/
theorem rulesAgree_readDec2 (a b : DIdx) {f g : DecOperand × DecOperand → Except Stop State}
    (hf : ∀ u v, RulesAgree (f (u, v)) (g (u, v))) : RulesAgree (readDec2 s a b >>= f) (readDec2 t a b >>= g) := by
  rw [h.readDec2_eq]
  exact rulesAgree_bind _ fun (u, v) => hf u v

/-- Every command reads its operands through their marks and writes what it computed from them, so it answers alike. -/
theorem exec_agree (i : Instr) : outcomesAgree (exec i s) (exec i t) := by
  have hcfg := h.cfg_eq
  cases i with
  | mov rd a => exact runCommand_agree h (rulesAgree_readX h a fun _ => .ok (h.writeX rd _))
  | ldi rd imm =>
    have hword : zext s.cfg.n imm.toNat = zext t.cfg.n imm.toNat := by rw [hcfg]
    exact runCommand_agree (i := .ldi rd imm) h (.ok (hword ▸ h.writeX rd _))
  | lget rd a k =>
    refine runCommand_agree h (rulesAgree_readX h a fun u => ?_)
    rw [hcfg]
    split
    · exact .error _
    · exact .ok (h.writeX rd _)
  | lset rd a k =>
    refine runCommand_agree h (rulesAgree_readX2 h rd a fun u v => ?_)
    rw [hcfg]
    split
    · exact .error _
    · exact .ok (h.writeX rd _)
  | shl rd a b m => exact runCommand_agree h (rulesAgree_readX2 h a b fun u v => hcfg ▸ finish_agree h _ _ _ _ _)
  | shr rd a b m g => exact runCommand_agree h (rulesAgree_readX2 h a b fun u v => hcfg ▸ finish_agree h _ _ _ _ _)
  | cmp a b g =>
    exact runCommand_agree h (rulesAgree_readX2 h a b fun u v => .ok (h.withFlags (by rw [hcfg, h.flags_eq])))
  | add rd a b m g => exact runCommand_agree h (rulesAgree_readX2 h a b fun u v => hcfg ▸ finishAdder_agree h _ _ _ _ _ _)
  | sub rd a b m g => exact runCommand_agree h (rulesAgree_readX2 h a b fun u v => hcfg ▸ finishAdder_agree h _ _ _ _ _ _)
  | mul rd a b m g => exact runCommand_agree h (rulesAgree_readX2 h a b fun u v => hcfg ▸ finishAdder_agree h _ _ _ _ _ _)
  | mulw rd e a b => exact runCommand_agree h (rulesAgree_readX2 h a b fun u v => hcfg ▸ finish_agree h _ _ _ _ _)
  | divrem rd e a b m g => exact runCommand_agree h (rulesAgree_readX2 h a b fun u v => divremRule_agree h _ _ _ _ _ _)
  | divrd rd e a b m =>
    refine runCommand_agree h (rulesAgree_readX2 h a b fun u v => ?_)
    simp only [hcfg]
    split
    · exact divZero_agree h _
    · exact finish_agree h _ _ _ _ _
  | divw rd e a b m => exact runCommand_agree h (rulesAgree_readX2 h a b fun u v => divwRule_agree h _ _ _ _ _ _)
  | tpow10 rd k => exact runCommand_agree h (hcfg ▸ tableRead_agree h _ _ _ _)
  | tpow5 rd k => exact runCommand_agree h (hcfg ▸ tableRead_agree h _ _ _ _)
  | trmax rd k => exact runCommand_agree h (hcfg ▸ tableRead_agree h _ _ _ _)
  | digits rd a => exact runCommand_agree h (rulesAgree_readX h a fun _ => hcfg ▸ .ok (h.writeX rd _))
  | mulp10 rd a b m => exact runCommand_agree h (rulesAgree_readX2 h a b fun u v => hcfg ▸ finish_agree h _ _ _ _ _)
  | divp10 rd e a b => exact runCommand_agree h (rulesAgree_readX2 h a b fun u v => hcfg ▸ finish_agree h _ _ _ _ _)
  | dmake rd a g k => exact runCommand_agree h (rulesAgree_readX h a fun u => hcfg ▸ finishDecimal_agree h _ _ _ _)
  | dctx rd a m k =>
    exact runCommand_agree h (rulesAgree_readD h a fun u => rulesAgree_bind _ fun _ => .ok (h.writeD rd _))
  | dmov rd a => exact runCommand_agree h (rulesAgree_readD h a fun _ => .ok (h.writeD rd _))
  | dcoef rd a => exact runCommand_agree h (rulesAgree_readD h a fun _ => .ok (h.writeX rd _))
  | dcb rd a => exact runCommand_agree h (rulesAgree_readD h a fun _ => hcfg ▸ .ok (h.writeX rd _))
  | dadd rd a b => exact runCommand_agree h (rulesAgree_readDec2 h a b fun u v => hcfg ▸ finishDecimal_agree h _ _ _ _)
  | dsub rd a b => exact runCommand_agree h (rulesAgree_readDec2 h a b fun u v => hcfg ▸ finishDecimal_agree h _ _ _ _)
  | dmul rd a b => exact runCommand_agree h (rulesAgree_readDec2 h a b fun u v => hcfg ▸ finishDecimal_agree h _ _ _ _)
  | dround rd a k =>
    exact runCommand_agree h (rulesAgree_readD h a fun u => rulesAgree_bind _ fun v => hcfg ▸ finishDecimal_agree h _ _ _ _)
  | dtrunc rd a k =>
    exact runCommand_agree h (rulesAgree_readD h a fun u => rulesAgree_bind _ fun v => hcfg ▸ finishDecimal_agree h _ _ _ _)

end

/-! The host port: a word is seen through its mark. -/

theorem visible_of_agrees {a b : Slot} (h : a.agrees b) : a.visible = b.visible := by
  obtain ⟨hmark, hword⟩ := h
  simp only [Slot.visible, ← hmark]
  split
  · rename_i hm
    rw [hword hm]
  · rfl

theorem slotAt_agrees {a b : List Slot} (h : slotsAgree a b) (j : Nat) : (slotAt a j).agrees (slotAt b j) := by
  induction h generalizing j with
  | nil => exact ⟨rfl, fun _ => rfl⟩
  | cons hab _ ih =>
    cases j with
    | zero => exact hab
    | succ j => simpa [slotAt] using ih j

/-- The same word stored at the same place. -/
theorem slotsAgree_set {a b : List Slot} (h : slotsAgree a b) (j : Nat) (w : Slot) :
    slotsAgree (a.set j w) (b.set j w) := by
  induction h generalizing j with
  | nil => exact .nil
  | cons hab htail ih =>
    cases j with
    | zero => exact .cons ⟨rfl, fun _ => rfl⟩ htail
    | succ j => exact .cons hab (ih j)

section
variable {s t : State} (h : s.agrees t)
include h

theorem State.agrees.portWord_eq (off : BitVec 16) : s.portWord off = t.portWord off := by
  obtain ⟨hcfg, hflags, hstatus, habort, _, _, _, hx, hd⟩ := h
  have hmap : portMap t.cfg.n off = portMap s.cfg.n off := by rw [hcfg]
  cases hm : portMap s.cfg.n off <;> simp only [State.portWord, hmap, hm]
  case status => rw [hstatus]
  case abortCmd => rw [habort]
  case flags => rw [hflags]
  case config => rw [hcfg]
  case xLimb r j => exact visible_of_agrees (slotAt_agrees (hx r) j)
  case dLimb r j => exact visible_of_agrees (slotAt_agrees (hd r).1 j)
  case dCb r => exact visible_of_agrees (hd r).2

theorem State.agrees.hostRead (off : BitVec 16) : (s.hostRead off).agrees (t.hostRead off) := by
  have ⟨_, _, _, _, _, _, hresets, _⟩ := h
  simpa only [State.hostRead, h.portWord_eq, hresets] using h.withReadData _

theorem issue_agree (w : CmdWord) : outcomesAgree (issue w s) (issue w t) := by
  have ⟨hcfg, _, hstatus, _⟩ := h
  simp only [issue, ← hcfg, ← hstatus]
  split
  · exact h
  · split
    · exact h.takeAbort _ _
    · exact exec_agree h _

theorem hostWrite_agree (off : BitVec 16) (v : Word) : outcomesAgree (hostWrite off v s) (hostWrite off v t) := by
  have hmap : portMap t.cfg.n off = portMap s.cfg.n off := by rw [h.cfg_eq]
  cases hm : portMap s.cfg.n off <;> simp only [hostWrite, hmap, hm]
  case command => exact issue_agree h _
  case reset => exact h.resetBlock
  case xLimb r j => exact h.setXSlots r (slotsAgree_set (h.xSlots r) j _)
  case dLimb r j => exact h.setDSlots r (slotsAgree_set (h.dSlots r).1 j _) (h.dSlots r).2
  case dCb r => exact h.setDSlots r (h.dSlots r).1 ⟨rfl, fun _ => rfl⟩
  all_goals exact h

theorem perform_agree (a : HostAccess) : outcomesAgree (perform a s) (perform a t) := by
  cases a with
  | read off => exact h.hostRead off
  | write off v => exact hostWrite_agree h off v

end

/-- Settles O12, by the first access waiting: every read of the block goes through a mark. -/
theorem unwrittenContentsInvisible : Obligations.UnwrittenContentsInvisible := by
  intro s t h
  have ⟨_, _, _, _, hport, _⟩ := h
  simp only [step, performNext, ← hport]
  cases s.port with
  | nil => exact h
  | cons a rest => exact perform_agree (h.withPort rest) a

end Sys2Proof.Machine
end

/-! PROOFS. The state file's statements (`10_state.md`) about every step and every command: control blocks stay well-formed (R35),
parameters and port order (R45, R90), the one stop (R49, R344), the frame (R42, R109) and the signal DivByZero (R36). -/

section
open Sys2Proof Sys2Proof.Machine

namespace Sys2Proof.Machine

/-- The next state of a command: it completed, or an abort of it was taken (R340, R345). -/
theorem exec_completes_or_aborts {i : Instr} {s t : State} (he : exec i s = .next t) :
    Completed i s t ∨ ∃ c, t = s.takeAbort c (encode i) := by
  rcases exec_next he with ⟨_, _, hc⟩ | ⟨_, c, _, ht⟩ | ⟨_, ht⟩
  · exact .inl hc
  · exact .inr ⟨c, ht⟩
  · exact .inr ⟨.illegalCommand, ht⟩

/-! ### Control blocks (R35) -/

/-- Storing a decimal register whose control block is unwritten or well-formed. -/
theorem controlBlocksOk_setDSlots {s : State} (r : DIdx) {v : DecReg}
    (hv : v.cb.mark = true → cbWellFormed v.cb.word = true) (h : s.controlBlocksOk) :
    (s.setDSlots r v).controlBlocksOk := by
  intro q
  by_cases hq : q = r
  · subst hq
    simpa using hv
  · simpa only [dSlots_setDSlots_ne s v hq] using h q

/-- A command writes no malformed control block: it computes one, copies one, or replaces the context of one (R273, R291, R295). -/
theorem exec_keeps_controlBlocksOk {i : Instr} {s t : State} (h : s.controlBlocksOk) (he : exec i s = .next t) :
    t.controlBlocksOk := by
  rcases exec_completes_or_aborts he with hc | ⟨c, rfl⟩
  · exact hc.control_blocks h
  · exact h

theorem Performed.controlBlocksOk {s t : State} {a : HostAccess} (hp : Performed s a t)
    (ha : ¬ a.storesMalformed s.cfg.n) (h : s.controlBlocksOk) : t.controlBlocksOk := by
  cases hp with
  | read off => exact h
  | ignored => exact h
  | reset =>
    intro r hmark
    simp [unwrittenD, Slot.unwritten] at hmark
  | xLimb off v r j => exact h
  | dLimb off v r j => exact controlBlocksOk_setDSlots r (h r) h
  | dCb off v r hm =>
    have hv : cbWellFormed v = true := by
      by_contra hbad
      exact ha ⟨⟨r, hm⟩, by simpa using hbad⟩
    exact controlBlocksOk_setDSlots r (fun _ => hv) h
  | commandWhileAborted => exact h
  | illegalWord => exact h
  | command off v i t hm hab hd he => exact exec_keeps_controlBlocksOk h he

/-- Settles O16, by the cases of `step_next`. -/
theorem stepKeepsControlBlocksWellFormed : Obligations.StepKeepsControlBlocksWellFormed := by
  intro s t h hport hstep
  rcases step_next hstep with ⟨_, rfl⟩ | ⟨a, rest, hs, hp⟩
  · exact h
  · exact hp.controlBlocksOk (hport a rest hs) h

/-! ### Parameters and the port's order (R45, R46, R90) -/

theorem exec_keeps_cfg_port {i : Instr} {s t : State} (he : exec i s = .next t) : t.cfg = s.cfg ∧ t.port = s.port := by
  rcases exec_completes_or_aborts he with hc | ⟨c, rfl⟩
  · exact ⟨hc.cfg, hc.port⟩
  · exact ⟨rfl, rfl⟩

theorem Performed.cfg_port {s t : State} {a : HostAccess} (hp : Performed s a t) : t.cfg = s.cfg ∧ t.port = s.port := by
  cases hp
  case command he => exact exec_keeps_cfg_port he
  all_goals exact ⟨rfl, rfl⟩

/-- Settles O17. -/
theorem stepKeepsParametersAndOrder : Obligations.StepKeepsParametersAndOrder := by
  intro s t hstep
  rcases step_next hstep with ⟨hs, rfl⟩ | ⟨a, rest, hs, hp⟩
  · exact ⟨rfl, by simp [hs]⟩
  · obtain ⟨hcfg, hport⟩ := hp.cfg_port
    exact ⟨hcfg, by simp [hs, hport]⟩

/-! ### The one stop (R49, R344, R348) -/

/-- A rule stops for an operand that is not written, and for nothing else. -/
theorem Ends.unwritten_iff {i : Instr} {s : State} {rule : Except Stop State} (h : Ends i s rule) :
    rule = .error .unwritten ↔ ¬ operandsWritten i s := by
  rcases h with ⟨hrule, how⟩ | ⟨how, ⟨t, hrule, _⟩ | ⟨c, hrule, _⟩⟩ <;> simp [hrule, how]

/-- Settles O18. -/
theorem commandFaultsExactlyOnUnwrittenOperand : Obligations.CommandFaultsExactlyOnUnwrittenOperand := by
  intro i s
  obtain ⟨rule, hexec, hends⟩ := command_ends i s
  rw [hexec]
  refine ⟨?_, runCommand_not_refused i s rule⟩
  calc (∃ f, runCommand i s rule = .fault f) ↔ i.wf s.cfg.n = true ∧ rule = .error .unwritten :=
        ⟨fun ⟨f, hf⟩ => (runCommand_fault_iff i s rule f).1 hf, fun h => ⟨.unwritten, (runCommand_fault_iff i s rule _).2 h⟩⟩
    _ ↔ i.wf s.cfg.n = true ∧ ¬ operandsWritten i s := and_congr_right fun hw => (hends hw).unwritten_iff

/-! ### The frame of every command (R42, R109, R145, R345) -/

/-- Settles O21: a completed command keeps the abort record, and an abort writes nothing else. -/
theorem commandWritesOnlyItsDestinations : Obligations.CommandWritesOnlyItsDestinations := by
  intro i s t he
  rcases exec_completes_or_aborts he with hc | ⟨c, rfl⟩
  · exact ⟨hc.x_other, hc.d_other, hc.arith_kept, hc.cmp_kept, hc.cfg, hc.port, hc.readData, hc.resets,
      .inl ⟨hc.status, hc.abortCmd⟩⟩
  · exact ⟨fun _ _ => rfl, fun _ _ => rfl, fun _ => ⟨rfl, rfl, rfl, rfl⟩, fun _ => rfl, rfl, rfl, rfl, rfl, .inr ⟨c, rfl⟩⟩

/-! ### DivByZero (R36, R275) -/

/-- Settles O23: a decimal register is kept, or its signals come from an operand and from rules that never raise this one. -/
theorem divByZeroIsNeverRaised : Obligations.DivByZeroIsNeverRaised := by
  intro i s t he r hr
  rcases exec_completes_or_aborts he with hc | ⟨c, rfl⟩
  · by_cases hd : r ∈ writesD i
    · exact .inr (hc.signals_inherited r hd hr)
    · exact .inl (hc.d_other r hd)
  · exact .inl rfl

end Sys2Proof.Machine
end

/-! PROOFS. The state file's statements (`10_state.md`) about the host port and the state after reset: what a read returns, what a
write stores, in the aborted state too (R42 to R45, R49, R60, R85 to R89). -/

section
open Sys2Proof Sys2Proof.Machine

namespace Sys2Proof.Machine

/-! ### One access (R87) -/

/-- A read changes the host's read data alone: the word of the map, or a free value where none is specified. -/
theorem step_read {s : State} {off : BitVec 16} {rest : List HostAccess} (hp : s.port = .read off :: rest) :
    step s = .next { s with port := rest, readData := (s.portWord off).getD (Config.freeWord s.resets off) } := by
  simp only [step, performNext, hp]
  rfl

theorem step_write {s : State} {off : BitVec 16} {v : Word} {rest : List HostAccess} (hp : s.port = .write off v :: rest) :
    step s = hostWrite off v { s with port := rest } := by
  simp only [step, performNext, hp, perform]

section
variable {s : State} {off : BitVec 16} (v : Word)

theorem hostWrite_xLimb {r : XIdx} {j : Nat} (hm : portMap s.cfg.n off = .xLimb r j) :
    hostWrite off v s = .next (s.writeXLimb r j v) := by simp only [hostWrite, hm]

theorem hostWrite_dLimb {r : DIdx} {j : Nat} (hm : portMap s.cfg.n off = .dLimb r j) :
    hostWrite off v s = .next (s.writeDLimb r j v) := by simp only [hostWrite, hm]

theorem hostWrite_dCb {r : DIdx} (hm : portMap s.cfg.n off = .dCb r) :
    hostWrite off v s = .next (s.writeDCb r v) := by simp only [hostWrite, hm]

/-- A write at a read-only or unlisted offset does nothing (R87). -/
theorem hostWrite_ignored (hm : portMap s.cfg.n off ∈ [.status, .abortCmd, .flags, .config, .unlisted]) :
    hostWrite off v s = .next s := by
  simp only [List.mem_cons, List.not_mem_nil, or_false] at hm
  rcases hm with hm | hm | hm | hm | hm <;> simp only [hostWrite, hm]

end

/-! ### The register words (R86) -/

/-- What a register offset names: a limb that exists, or a control block. -/
theorem portMap_of_registerOffset {n : Nat} (hn : n ≤ 255) {off : BitVec 16} (h : registerOffset n off) :
    (∃ r j, j < n ∧ portMap n off = .xLimb r j) ∨ (∃ r j, j < n ∧ portMap n off = .dLimb r j) ∨
      ∃ r, portMap n off = .dCb r := by
  rcases h with ⟨r, j, hj, rfl⟩ | ⟨r, j, hj, rfl⟩ | ⟨r, rfl⟩
  · exact .inl ⟨r, j, hj, portMap_offX hn r j hj⟩
  · exact .inr (.inl ⟨r, j, hj, portMap_offD hn r j hj⟩)
  · exact .inr (.inr ⟨r, portMap_offCb r⟩)

/-- The offsets that are neither `COMMAND` nor `RESET` nor a register word: read-only or unlisted (R86). -/
theorem portMap_readOnly {n : Nat} {off : BitVec 16} (h : ¬ registerOffset n off) (hc : off ≠ 0x0000) (hr : off ≠ 0x0005) :
    portMap n off ∈ [PortWord.status, .abortCmd, .flags, .config, .unlisted] := by
  by_cases hlow : 5 < off.toNat
  · simp [portMap_unlisted off h hlow]
  · have hoff : off = 1 ∨ off = 2 ∨ off = 3 ∨ off = 4 := by bv_omega
    rcases hoff with rfl | rfl | rfl | rfl <;> simp [portMap, offCommand, offStatus, offAbortCmd, offFlags, offConfig]

@[simp] theorem visible_of_marked {w : Slot} (h : w.mark = true) : w.visible = some w.word := if_pos h

theorem visible_of_unmarked {w : Slot} (h : w.mark = false) : w.visible = none := if_neg (by simp [h])

@[simp] theorem visible_hostSlot (v : Word) : (hostSlot v).visible = some v := rfl

theorem slotAt_set_self {a : List Slot} {j : Nat} (hj : j < a.length) (w : Slot) : slotAt (a.set j w) j = w :=
  slotAt_of_getElem (by simp [hj])

section
variable {s : State} {off : BitVec 16}

theorem portWord_xLimb {r : XIdx} {j : Nat} (hm : portMap s.cfg.n off = .xLimb r j) :
    s.portWord off = (slotAt (s.xSlots r) j).visible := by simp only [State.portWord, hm]

theorem portWord_dLimb {r : DIdx} {j : Nat} (hm : portMap s.cfg.n off = .dLimb r j) :
    s.portWord off = (slotAt (s.dSlots r).coef j).visible := by simp only [State.portWord, hm]

theorem portWord_dCb {r : DIdx} (hm : portMap s.cfg.n off = .dCb r) :
    s.portWord off = (s.dSlots r).cb.visible := by simp only [State.portWord, hm]

theorem portWord_unlisted (hm : portMap s.cfg.n off = .unlisted) : s.portWord off = some 0 := by
  simp only [State.portWord, hm]

/-- The word of the map at a register offset is what the slot there shows. -/
theorem portWord_of_slot (hn : s.cfg.n ≤ 255) {w : Slot}
    (h : (∃ r j, j < s.cfg.n ∧ off = offX r j ∧ (s.xSlots r)[j]? = some w) ∨
      (∃ r j, j < s.cfg.n ∧ off = offD r j ∧ (s.dSlots r).coef[j]? = some w) ∨
      (∃ r, off = offCb r ∧ (s.dSlots r).cb = w)) : s.portWord off = w.visible := by
  rcases h with ⟨r, j, hj, rfl, hw⟩ | ⟨r, j, hj, rfl, hw⟩ | ⟨r, rfl, rfl⟩
  · rw [portWord_xLimb (portMap_offX hn r j hj), slotAt_of_getElem hw]
  · rw [portWord_dLimb (portMap_offD hn r j hj), slotAt_of_getElem hw]
  · rw [portWord_dCb (portMap_offCb r)]

/-- A host write to a register word is what the next read of it returns, and it leaves STATUS alone (R87, R88). -/
theorem hostWrite_stores (hwf : s.wf) (h : registerOffset s.cfg.n off) (v : Word) :
    ∃ t, hostWrite off v s = .next t ∧ t.portWord off = some v ∧ t.status = s.status := by
  obtain ⟨⟨_, hn, _⟩, ⟨hx, hd⟩, _⟩ := hwf
  rcases portMap_of_registerOffset hn h with ⟨r, j, hj, hm⟩ | ⟨r, j, hj, hm⟩ | ⟨r, hm⟩
  · refine ⟨_, hostWrite_xLimb v hm, ?_, rfl⟩
    rw [portWord_xLimb (s := s.writeXLimb r j v) hm]
    simp [State.writeXLimb, slotAt_set_self (hx r ▸ hj)]
  · refine ⟨_, hostWrite_dLimb v hm, ?_, rfl⟩
    rw [portWord_dLimb (s := s.writeDLimb r j v) hm]
    simp [State.writeDLimb, slotAt_set_self (hd r ▸ hj)]
  · refine ⟨_, hostWrite_dCb v hm, ?_, rfl⟩
    rw [portWord_dCb (s := s.writeDCb r v) hm]
    simp [State.writeDCb]

end

/-! ### Storing the same word twice (R85) -/

theorem writeXLimb_idem (s : State) (r : XIdx) (j : Nat) (v : Word) :
    (s.writeXLimb r j v).writeXLimb r j v = s.writeXLimb r j v := by
  simp [State.writeXLimb, State.setXSlots, State.xSlots]

theorem writeDLimb_idem (s : State) (r : DIdx) (j : Nat) (v : Word) :
    (s.writeDLimb r j v).writeDLimb r j v = s.writeDLimb r j v := by
  simp [State.writeDLimb, State.setDSlots, State.dSlots]

theorem writeDCb_idem (s : State) (r : DIdx) (v : Word) : (s.writeDCb r v).writeDCb r v = s.writeDCb r v := by
  simp [State.writeDCb, State.setDSlots, State.dSlots]

/-- A write to a register word, with any accesses `p` waiting, leaves a state in which the same write does nothing. -/
theorem hostWrite_idem {s : State} (hn : s.cfg.n ≤ 255) {off : BitVec 16} (h : registerOffset s.cfg.n off) (v : Word) :
    ∃ t, hostWrite off v s = .next t ∧
      ∀ p, hostWrite off v { t with port := p } = .next { t with port := p } := by
  rcases portMap_of_registerOffset hn h with ⟨r, j, _, hm⟩ | ⟨r, j, _, hm⟩ | ⟨r, hm⟩
  · refine ⟨_, hostWrite_xLimb v hm, fun p => ?_⟩
    exact (hostWrite_xLimb v (s := { s.writeXLimb r j v with port := p }) hm).trans
      (congrArg _ (writeXLimb_idem { s with port := p } r j v))
  · refine ⟨_, hostWrite_dLimb v hm, fun p => ?_⟩
    exact (hostWrite_dLimb v (s := { s.writeDLimb r j v with port := p }) hm).trans
      (congrArg _ (writeDLimb_idem { s with port := p } r j v))
  · refine ⟨_, hostWrite_dCb v hm, fun p => ?_⟩
    exact (hostWrite_dCb v (s := { s.writeDCb r v with port := p }) hm).trans
      (congrArg _ (writeDCb_idem { s with port := p } r v))

/-! ### The control words bit by bit (R42, R43, R45) -/

section
variable (f : Flags)

theorem toWord_cf : f.toWord.getLsbD 0 = f.cf := by
  rw [getLsbD_eq_extract]
  simp [Flags.toWord, extract_or, extract_place_self, extract_place_above, -BitVec.getLsbD_eq_getElem]

theorem toWord_vf : f.toWord.getLsbD 1 = f.vf := by
  rw [getLsbD_eq_extract]
  simp [Flags.toWord, extract_or, extract_place_self, extract_place_above, extract_place_below, -BitVec.getLsbD_eq_getElem]

theorem toWord_of : f.toWord.getLsbD 2 = f.of := by
  rw [getLsbD_eq_extract]
  simp [Flags.toWord, extract_or, extract_place_self, extract_place_above, extract_place_below, -BitVec.getLsbD_eq_getElem]

theorem toWord_none : f.toWord.getLsbD 3 = f.none := by
  rw [getLsbD_eq_extract]
  simp [Flags.toWord, extract_or, extract_place_self, extract_place_above, extract_place_below, -BitVec.getLsbD_eq_getElem]

theorem toWord_cmp : f.toWord.extractLsb' 4 2 = f.cmp.code := by
  simp [Flags.toWord, extract_or, extract_place_self, extract_place_below]

theorem toWord_flags_reserved : f.toWord.extractLsb' 6 58 = 0 := by
  simp [Flags.toWord, extract_or, extract_place_below]

end

section
variable (t : Status)

theorem toWord_aborted : t.toWord.getLsbD 0 = t.aborted := by
  rw [getLsbD_eq_extract]
  simp [Status.toWord, extract_or, extract_place_self, extract_place_above, -BitVec.getLsbD_eq_getElem]

theorem toWord_cause : t.toWord.extractLsb' 8 8 = t.cause := by
  simp [Status.toWord, extract_or, extract_place_self, extract_place_below]

theorem toWord_status_reserved : t.toWord.extractLsb' 1 7 = 0 ∧ t.toWord.extractLsb' 16 48 = 0 := by
  simp [Status.toWord, extract_or, extract_place_above, extract_place_below]

end

theorem toWord_zero : Flags.zero.toWord = 0 ∧ Status.zero.toWord = 0 := by decide

theorem configWord_toNat {p : Params} (hn : p.n ≤ 255) : (configWord p).toNat = p.n := by
  simp [configWord, place, BitVec.toNat_setWidth]
  omega

/-! ### The statements -/

/-- Settles O9. -/
theorem hostReadsControlWords : Obligations.HostReadsControlWords := by
  rintro s off rest ⟨⟨_, hn, _⟩, _⟩ hp
  refine ⟨(s.portWord off).getD (Config.freeWord s.resets off), ?_, ?_, ?_, ?_, ?_, ?_, fun _ => step_read hp⟩
  · rintro rfl
    rfl
  · rintro rfl
    obtain ⟨hlow, hhigh⟩ := toWord_status_reserved s.status
    exact ⟨toWord_aborted _, hlow, toWord_cause _, hhigh⟩
  · rintro rfl
    rfl
  · rintro rfl
    refine ⟨toWord_cf _, toWord_vf _, toWord_of _, toWord_none _, ?_, toWord_flags_reserved _⟩
    exact (toWord_cmp _).trans (by cases s.flags.cmp <;> rfl)
  · rintro rfl
    exact configWord_toNat hn
  · rintro rfl
    rfl

/-- Settles O10. -/
theorem hostReadsRegisterWords : Obligations.HostReadsRegisterWords := by
  rintro s off rest ⟨⟨_, hn, _⟩, _⟩ hp
  refine ⟨fun w hw => ⟨fun hmark => ?_, fun _ => ⟨_, step_read hp⟩⟩, fun hreg hoff => ?_⟩
  · rw [step_read hp, portWord_of_slot hn hw, visible_of_marked hmark]
    rfl
  · rw [step_read hp, portWord_unlisted (portMap_unlisted off hreg hoff)]
    rfl

/-- Settles O11. -/
theorem hostWritesRegisterWords : Obligations.HostWritesRegisterWords := by
  rintro s off v rest ⟨⟨_, hn, _⟩, _⟩ hp
  rw [step_write hp]
  refine ⟨?_, ?_, ?_, fun hreg hc hr => hostWrite_ignored v (portMap_readOnly hreg hc hr)⟩
  · rintro r j hj rfl
    refine ⟨_, hostWrite_xLimb v (portMap_offX hn r j hj), xSlots_setXSlots_self _ _ _, ?_, rfl⟩
    refine ⟨fun q hq => xSlots_setXSlots_ne _ _ (by simpa using hq), rfl, rfl, rfl, rfl, rfl, rfl, rfl⟩
  · rintro r j hj rfl
    refine ⟨_, hostWrite_dLimb v (portMap_offD hn r j hj), dSlots_setDSlots_self _ _ _, ?_⟩
    exact ⟨fun q hq => dSlots_setDSlots_ne _ _ hq, rfl, rfl, rfl, rfl, rfl, rfl, rfl, rfl⟩
  · rintro r rfl
    refine ⟨_, hostWrite_dCb v (portMap_offCb r), dSlots_setDSlots_self _ _ _, ?_⟩
    exact ⟨fun q hq => dSlots_setDSlots_ne _ _ hq, rfl, rfl, rfl, rfl, rfl, rfl, rfl, rfl⟩

/-- Settles O6: only a write to `COMMAND` looks at STATUS (R346). -/
theorem abortedBlockIgnoresCommands : Obligations.AbortedBlockIgnoresCommands := by
  intro s rest hwf ha
  refine ⟨fun v hp => ?_, fun off v hreg hp => ?_, fun off v hv hp => ?_, fun off _ hp => ⟨_, step_read hp⟩⟩
  · simp [step_write hp, hostWrite, issue, ha]
  · rw [step_write hp]
    exact hostWrite_stores (s := { s with port := rest }) (wf_of_same rfl rfl rfl rfl rfl hwf) hreg v
  · rw [step_read hp, hv]
    rfl

/-- Settles O59. -/
theorem readsAndRegisterWritesAreIdempotent : Obligations.ReadsAndRegisterWritesAreIdempotent := by
  rintro s off rest ⟨⟨_, hn, _⟩, _⟩
  refine ⟨fun hp => ⟨_, step_read hp, step_read rfl⟩, fun v hreg hp => ?_⟩
  obtain ⟨t, ht, hsame⟩ := hostWrite_idem (s := { s with port := .write off v :: rest }) hn hreg v
  refine ⟨t, (step_write hp).trans ht, ?_⟩
  have hport : t.port = .write off v :: rest := (performed_of_hostWrite ht).cfg_port.2
  exact (step_write hport).trans (hsame rest)

/-- Settles O14. -/
theorem resetStateValues : Obligations.ResetStateValues := by
  rintro p ⟨hn1, hn, _⟩
  have hnot : allMarked (unwrittenX p.n) = false := by
    obtain ⟨m, hm⟩ := Nat.exists_eq_add_of_le' hn1
    simp [allMarked, unwrittenX, hm, List.replicate_succ, Slot.unwritten]
  obtain ⟨hflags, hstatus⟩ := toWord_zero
  refine ⟨hflags, hstatus, rfl, configWord_toNat hn, ?_, ?_, ?_⟩
  · intro r w hw
    rw [xSlots_resetOf] at hw
    exact List.eq_of_mem_replicate hw ▸ rfl
  · intro r
    rw [dSlots_resetOf]
    exact ⟨fun w hw => List.eq_of_mem_replicate hw ▸ rfl, rfl⟩
  · intro r
    simp [State.writtenX, State.writtenD, hnot, unwrittenD, Slot.unwritten]

end Sys2Proof.Machine
end

/-! PROOFS. The state file's statements (`10_state.md`) about the tables (R46) and about decimal values: malformed operands (R35),
the default context (R38) and the value a register denotes (R39), which Inexact guards in the normalizer and in arithmetic. -/

section
open Sys2Proof Sys2Proof.Machine

namespace Sys2Proof.Machine

/-! ### The tables (R46, R230 to R232) -/

section
variable {i : Instr} {s : State} {rd : XIdx} {last k entry : Nat}

theorem writesValue_of_tableRead (hw : i.wf s.cfg.n = true) (he : exec i s = runCommand i s (tableRead rd last k entry s))
    (hk : k ≤ last) (hentry : entry < modulus s.cfg.n) : writesValue i s rd entry :=
  writesValue_of_ok hw he (if_neg (Nat.not_lt.2 hk)) (length_zext _ _) (uval_zext_lt hentry)

theorem abortsWith_of_tableRead (hw : i.wf s.cfg.n = true) (he : exec i s = runCommand i s (tableRead rd last k entry s))
    (hk : last < k) : abortsWith i s .indexRange :=
  abortsWith_of_error hw he (if_pos hk)

end

/-- A power fits in N limbs exactly up to the end of its table (R9). -/
theorem pow_fits_iff {b n : Nat} (hb : 2 ≤ b) (hn : 1 ≤ n) (k : Nat) :
    b ^ k < 2 ^ (64 * n) ↔ k ≤ digitCount b (maxU n) - 1 :=
  calc b ^ k < 2 ^ (64 * n) ↔ b ^ k ≤ maxU n := (le_maxU_iff n (b ^ k)).symm
    _ ↔ k ≤ digitCount b (maxU n) - 1 ∧ 1 ≤ n := pow_le_maxU_iff b hb n k
    _ ↔ k ≤ digitCount b (maxU n) - 1 := and_iff_left hn

/-- Settles O37. -/
theorem tableReadsGivePowers : Obligations.TableReadsGivePowers := by
  rintro rd k s ⟨⟨hn, _⟩, _⟩
  have ten := pow_fits_iff (b := 10) (by decide) hn k.toNat
  have five := pow_fits_iff (b := 5) (by decide) hn k.toNat
  have hquotient : maxU s.cfg.n / 10 ^ k.toNat < modulus s.cfg.n :=
    (le_maxU_iff _ _).1 (Nat.div_le_self _ _)
  refine ⟨fun h => ⟨?_, ?_⟩, fun h => ⟨?_, ?_⟩, fun h => ?_, fun h => ?_⟩
  · exact writesValue_of_tableRead rfl rfl (ten.1 h) h
  · exact writesValue_of_tableRead rfl rfl (ten.1 h) hquotient
  · exact abortsWith_of_tableRead rfl rfl (Nat.not_le.1 (mt ten.2 (Nat.not_lt.2 h)))
  · exact abortsWith_of_tableRead rfl rfl (Nat.not_le.1 (mt ten.2 (Nat.not_lt.2 h)))
  · exact writesValue_of_tableRead rfl rfl (five.1 h) h
  · exact abortsWith_of_tableRead rfl rfl (Nat.not_le.1 (mt five.2 (Nat.not_lt.2 h)))

/-! ### Malformed operands (R35, R260, R342) -/

theorem readDec_malformed {v : DecWord} (h : cbSpecial v.cb = 3 ∨ cbReserved v.cb ≠ 0) :
    readDec v = .error (.abort .reservedOperand) := by
  rcases readDec_cases v with ⟨hwf, _⟩ | ⟨_, herror⟩
  · simp only [cbWellFormed, Bool.and_eq_true, decide_eq_true_eq] at hwf
    obtain ⟨hspecial, hreserved⟩ := hwf
    exact absurd h (not_or.2 ⟨hspecial, not_not.2 hreserved⟩)
  · exact herror

/-- Either operand of two may be the malformed one: the check of the first can only stop with the same cause. -/
theorem readDec2_malformed {s : State} {rs1 rs2 : DIdx} {u w : DecWord} (hu : s.readD rs1 = .ok u) (hw : s.readD rs2 = .ok w)
    (h : (cbSpecial u.cb = 3 ∨ cbReserved u.cb ≠ 0) ∨ cbSpecial w.cb = 3 ∨ cbReserved w.cb ≠ 0) :
    readDec2 s rs1 rs2 = .error (.abort .reservedOperand) := by
  simp only [readDec2, hu, hw, bind, Except.bind]
  rcases h with h | h
  · rw [readDec_malformed h]
  · cases ha : readDec u with
    | error e => rw [readDec_error ha]
    | ok a => rw [readDec_malformed h]

/-- Settles O54. -/
theorem malformedOperandAborts : Obligations.MalformedOperandAborts := by
  intro rd rs1 rs2 rm traps t s u w _ hu hw
  constructor
  · intro h
    have hread {f : DecWord → DecOperand → Except Stop State} :
        (s.readD rs1 >>= fun v => readDec v >>= f v) = .error (.abort .reservedOperand) := by
      simp only [hu, readDec_malformed h, bind, Except.bind]
    exact ⟨abortsWith_of_error rfl rfl hread, abortsWith_of_error rfl rfl hread, abortsWith_of_error rfl rfl hread⟩
  · intro h
    have hread {f : DecOperand × DecOperand → Except Stop State} :
        (readDec2 s rs1 rs2 >>= f) = .error (.abort .reservedOperand) := by
      rw [readDec2_malformed hu hw (or_assoc.2 h)]
      rfl
    exact ⟨abortsWith_of_error rfl rfl hread, abortsWith_of_error rfl rfl hread, abortsWith_of_error rfl rfl hread⟩

/-! ### The value of a sign, a coefficient and an exponent (R39) -/

/-- Powers of ten move between the coefficient and the exponent. -/
theorem finiteValue_mul_pow (c k : Nat) (neg : Bool) (e : Int) :
    finiteValue (c * 10 ^ k) neg e = finiteValue c neg (e + k) := by
  simp only [finiteValue, zpow_add₀ (by norm_num : (10 : Rat) ≠ 0), zpow_natCast]
  push_cast
  ring

theorem finiteValue_zero (neg : Bool) (e : Int) : finiteValue 0 neg e = 0 := by simp [finiteValue]

/-- At one sign and exponent the coefficient is the value. -/
theorem finiteValue_inj {c m : Nat} {neg : Bool} {e : Int} : finiteValue c neg e = finiteValue m neg e ↔ c = m := by
  have hpow : (10 : Rat) ^ e ≠ 0 := zpow_ne_zero e (by norm_num)
  have hsign : (if neg then -1 else 1 : Rat) ≠ 0 := by cases neg <;> norm_num
  simp only [finiteValue, mul_left_inj' hpow, mul_right_inj' hsign, Nat.cast_inj]

theorem finiteValue_not (c : Nat) (neg : Bool) (e : Int) : finiteValue c (!neg) e = -finiteValue c neg e := by
  cases neg <;> simp [finiteValue]

theorem finiteValue_add (c c' : Nat) (neg : Bool) (e : Int) :
    finiteValue (c + c') neg e = finiteValue c neg e + finiteValue c' neg e := by
  simp only [finiteValue]
  push_cast
  ring

theorem finiteValue_sub {c c' : Nat} (h : c' ≤ c) (neg : Bool) (e : Int) :
    finiteValue (c - c') neg e = finiteValue c neg e + finiteValue c' (!neg) e := by
  have hsum := finiteValue_add (c - c') c' neg e
  rw [Nat.sub_add_cancel h] at hsum
  rw [hsum, finiteValue_not, add_neg_cancel_right]

theorem finiteValue_mul (c c' : Nat) (neg neg' : Bool) (e e' : Int) :
    finiteValue (c * c') (xor neg neg') (e + e') = finiteValue c neg e * finiteValue c' neg' e' := by
  have hsign : (if xor neg neg' then -1 else 1 : Rat) = (if neg then -1 else 1) * (if neg' then -1 else 1) := by
    cases neg <;> cases neg' <;> norm_num
  simp only [finiteValue, hsign, zpow_add₀ (by norm_num : (10 : Rat) ≠ 0)]
  push_cast
  ring

/-! ### Inexact and the normalizer (R262 to R269) -/

/-- Dropping digits loses nothing exactly when they are all zeros (R262). -/
theorem roundDiv_mul_pow_eq_iff (m k : Nat) (neg : Bool) (rm : RoundMode) :
    roundDiv m k neg rm * 10 ^ k = m ↔ m % 10 ^ k = 0 := by
  constructor
  · intro h
    rw [← h, Nat.mul_mod_left]
  · intro h
    rw [roundDiv_exact neg rm h, Nat.div_mul_cancel (Nat.dvd_of_mod_eq_zero h)]

/-- The range stage raises Inexact only with an overflow to Infinity (R269). -/
theorem rangeStage_inexact (p : Params) (c : Nat) (neg : Bool) (e : Int) (new : SignalSet) :
    (rangeStage p c neg e new).new.has .inexact = false ↔
      (rangeStage p c neg e new).kind = .finite ∧ new.has .inexact = false := by
  simp only [rangeStage]
  split_ifs <;> simp [has_or]

/-- Where the range stage stays finite it keeps the value: it clamps by appending zeros (R269). -/
theorem rangeStage_value {p : Params} {c : Nat} {neg : Bool} {e : Int} {new : SignalSet}
    (h : (rangeStage p c neg e new).kind = .finite) :
    finiteValue (rangeStage p c neg e new).coef (rangeStage p c neg e new).neg (rangeStage p c neg e new).exp =
      finiteValue c neg e := by
  simp only [rangeStage] at h ⊢
  split_ifs at h ⊢ with hmax hfits
  · rfl
  · rw [finiteValue_mul_pow, Int.toNat_of_nonneg (by omega), add_sub_cancel]

/-- A zero stays a zero through the range stage (R268, R269). -/
theorem rangeStage_zero_kind (p : Params) (neg : Bool) (e : Int) (new : SignalSet) :
    (rangeStage p 0 neg e new).kind = .finite := by
  simp only [rangeStage, Nat.zero_mul, Nat.zero_le, if_true]
  split_ifs <;> rfl

/-- The normalizer raises Inexact exactly when it changes the value (R39, R266 to R269). -/
theorem normOf_inexact_iff (p : Params) (m : Nat) (neg : Bool) (e : Int) (rm : RoundMode) (kreq : Nat) :
    (normOf p m neg e rm kreq).new.has .inexact = false ↔
      (normOf p m neg e rm kreq).kind = .finite ∧
        finiteValue (normOf p m neg e rm kreq).coef (normOf p m neg e rm kreq).neg (normOf p m neg e rm kreq).exp =
          finiteValue m neg e := by
  simp only [normOf]
  split_ifs with hm
  · simp only [normZero, rangeStage_inexact, rangeStage_zero_kind, rangeStage_value, hm, finiteValue_zero]
    simp [has_or]
  · simp only [normNonzero, rangeStage_inexact]
    refine and_congr_right fun hfinite => ?_
    rw [rangeStage_value hfinite, ← finiteValue_mul_pow, finiteValue_inj, roundDiv_mul_pow_eq_iff]
    simp [has_or]

/-- Settles O44. -/
theorem inexactExactlyWhenValueChanges : Obligations.InexactExactlyWhenValueChanges := by
  intro p m neg e rm kreq _
  exact normOf_inexact_iff p m neg e rm kreq

/-! ### Inexact and arithmetic (R311 to R315) -/

/-- An alignment that raises no Inexact dropped only zeros (R311). -/
theorem alignLoop_exact {lim : Nat} {rm : RoundMode} {hiNeg : Bool} {lo diff hi : Nat} {new : SignalSet} {al : Aligned}
    (hal : alignLoop lim rm hiNeg lo diff hi new = al) (h : al.new.has .inexact = false) :
    new.has .inexact = false ∧ al.diff ≤ diff ∧ al.coef * 10 ^ (diff - al.diff) = hi := by
  induction diff generalizing hi new with
  | zero =>
    subst hal
    exact ⟨h, Nat.le_refl _, Nat.mul_one _⟩
  | succ diff ih =>
    simp only [alignLoop] at hal
    split at hal
    · subst hal
      exact ⟨h, Nat.le_refl _, by simp⟩
    · obtain ⟨hnew, hle, hcoef⟩ := ih hal
      simp only [has_or, has_single, has_raiseIf, Bool.or_eq_false_iff] at hnew
      have hzero : hi % 10 ^ 1 = 0 := by simpa using hnew.2
      rw [roundDiv_exact hiNeg rm hzero] at hcoef
      refine ⟨hnew.1.1, by omega, ?_⟩
      rw [Nat.succ_sub hle, Nat.pow_succ, ← Nat.mul_assoc, hcoef]
      omega

/-- The sign and magnitude of `Combine` are those of the sum (R312). -/
theorem combine_value (a b : Nat) (negA negB : Bool) (rm : RoundMode) (e : Int) :
    finiteValue (combine a negA b negB rm).1 (combine a negA b negB rm).2 e =
      finiteValue a negA e + finiteValue b negB e := by
  simp only [combine]
  split_ifs with hsign hba hab
  · rw [← hsign, finiteValue_add]
  · rw [finiteValue_sub hba.le, ← Bool.eq_not_of_ne (Ne.symm hsign)]
  · rw [finiteValue_sub hab.le, ← Bool.eq_not_of_ne hsign, add_comm]
  · obtain rfl : a = b := by omega
    rw [finiteValue_zero, Bool.eq_not_of_ne hsign, finiteValue_not, neg_add_cancel]

/-- A sum that raises no Inexact, neither in the alignment nor in the normalizer, is exact (R311 to R313). -/
theorem addAligned_exact {p : Params} {rm : RoundMode} {hi lo : DecOperand} (hexp : hi.exp ≤ lo.exp)
    (h : (addAligned p rm hi lo).new.has .inexact = false) :
    (addAligned p rm hi lo).kind = .finite ∧
      finiteValue (addAligned p rm hi lo).coef (addAligned p rm hi lo).neg (addAligned p rm hi lo).exp =
        finiteValue lo.coef lo.neg lo.exp + finiteValue hi.coef hi.neg hi.exp := by
  simp only [addAligned, has_or, Bool.or_eq_false_iff] at h ⊢
  obtain ⟨haligned, hnorm⟩ := h
  obtain ⟨hkind, hvalue⟩ := (normOf_inexact_iff _ _ _ _ _ _).1 hnorm
  refine ⟨hkind, hvalue.trans ?_⟩
  obtain ⟨_, hdiff, hcoef⟩ := alignLoop_exact rfl haligned
  generalize alignLoop (maxU p.n) rm hi.neg lo.coef (lo.exp - hi.exp).toNat hi.coef 0 = al at hdiff hcoef ⊢
  have hlo : finiteValue (lo.coef * 10 ^ al.diff) lo.neg (lo.exp - al.diff) = finiteValue lo.coef lo.neg lo.exp := by
    rw [finiteValue_mul_pow, sub_add_cancel]
  have hhi : finiteValue al.coef hi.neg (lo.exp - al.diff) = finiteValue hi.coef hi.neg hi.exp := by
    rw [← hcoef, finiteValue_mul_pow]
    congr 1
    omega
  rw [combine_value, hlo, hhi]

theorem addResult_exact {p : Params} {a b : DecOperand} (ha : a.kind = .finite) (hb : b.kind = .finite)
    (h : (addResult p a b).new.has .inexact = false) :
    (addResult p a b).kind = .finite ∧
      finiteValue (addResult p a b).coef (addResult p a b).neg (addResult p a b).exp =
        finiteValue a.coef a.neg a.exp + finiteValue b.coef b.neg b.exp := by
  simp only [addResult, ha, hb, addFinite] at h ⊢
  split_ifs at h ⊢ with hexp
  · rw [add_comm]
    exact addAligned_exact hexp h
  · exact addAligned_exact (by omega) h

/-- DSUB's second operand has the negated value (R314). -/
theorem negateOperand_value {b : DecOperand} (hb : b.kind = .finite) :
    (negateOperand b).kind = .finite ∧
      finiteValue (negateOperand b).coef (negateOperand b).neg (negateOperand b).exp = -finiteValue b.coef b.neg b.exp := by
  have hnegate : negateOperand b = { b with neg := !b.neg } := by simp [negateOperand, hb]
  rw [hnegate]
  exact ⟨hb, finiteValue_not _ _ _⟩

/-- Settles O55. -/
theorem arithmeticIsExactUnlessInexact : Obligations.ArithmeticIsExactUnlessInexact := by
  intro p a b _ ha hb
  refine ⟨addResult_exact ha hb, fun h => ?_, ?_⟩
  · obtain ⟨hkind, hvalue⟩ := negateOperand_value hb
    rw [sub_eq_add_neg, ← hvalue]
    exact addResult_exact ha hkind h
  · simp only [mulResult, ha, hb, ← finiteValue_mul]
    exact normOf_inexact_iff _ _ _ _ _ _

end Sys2Proof.Machine
end

/-! PROOFS. The state file's statement (`10_state.md`) about the default context (R38): what DMAKE constructs (R290), with the range
of the normalizer's results (R270) that it rests on. -/

section
open Sys2Proof Sys2Proof.Machine

namespace Sys2Proof.Machine

/-! ### The range of a result (R270) -/

/-- A finite result is a coefficient of N limbs and an exponent between the bounds. -/
def NormResult.inRange (p : Params) (r : NormResult) : Prop :=
  r.kind = .finite → r.coef ≤ maxU p.n ∧ p.eMin ≤ r.exp ∧ r.exp ≤ p.eMax

theorem rangeStage_inRange {p : Params} (hp : p.legal) {c : Nat} (neg : Bool) {e : Int} (new : SignalSet)
    (hc : c ≤ maxU p.n) (he : p.eMin ≤ e) : (rangeStage p c neg e new).inRange p := by
  obtain ⟨_, _, _, hmin, hmax, _⟩ := hp
  have hbounds : p.eMin ≤ p.eMax := hmin.trans hmax
  intro hfinite
  simp only [rangeStage] at hfinite ⊢
  split_ifs at hfinite ⊢ with hle hfits
  · exact ⟨hc, he, hle⟩
  · exact ⟨hfits, hbounds, le_rfl⟩

theorem normOf_inRange {p : Params} (hp : p.legal) (m : Nat) (neg : Bool) (e : Int) (rm : RoundMode) (kreq : Nat) :
    (normOf p m neg e rm kreq).inRange p := by
  simp only [normOf]
  split_ifs
  · exact rangeStage_inRange hp _ _ (Nat.zero_le _) (le_max_right _ _)
  · obtain ⟨_, hfit, _⟩ := fitCount_spec p m neg rm kreq hp
    refine rangeStage_inRange hp _ _ (roundDiv_fit_of_le (one_le_maxU hp.1) hfit (le_max_left _ _)) ?_
    omega

/-- An exponent between the bounds is a scale that an `i16` holds (R8, R270). -/
theorem sval16_pat16_neg {p : Params} (hp : p.legal) {e : Int} (h1 : p.eMin ≤ e) (h2 : e ≤ p.eMax) :
    sval16 (pat16 (-e)) = -e := by
  obtain ⟨_, _, hmin, _, _, hmax⟩ := hp
  exact sval16_pat16 _ (by omega) (by omega)

/-- A decimal command that ends with what the normalizer gives, which always fits its register (R270 to R273). -/
theorem finishesDecimal_of_normOf {i : Instr} {s : State} {rd : DIdx} {m : Nat} {neg : Bool} {e : Int} {rm : RoundMode}
    {kreq : Nat} {inh : SignalSet} {ctx : Context} (hp : s.cfg.legal) (hw : i.wf s.cfg.n = true)
    (he : exec i s = runCommand i s (finishDecimal rd (normOf s.cfg m neg e rm kreq) inh ctx s)) :
    finishesDecimal i s rd (normOf s.cfg m neg e rm kreq) inh ctx := by
  refine finishesDecimal_of_finish hw he fun hfinite => ?_
  obtain ⟨hcoef, hmin, hmax⟩ := normOf_inRange hp m neg e rm kreq hfinite
  exact ⟨(le_maxU_iff _ _).1 hcoef, sval16_pat16_neg hp hmin hmax⟩

/-! ### A value already in range (R264 to R269) -/

/-- What fits needs no shift (R266). -/
theorem fitCount_eq_zero {p : Params} (hp : p.legal) {m : Nat} (neg : Bool) (rm : RoundMode) (hm : m ≤ maxU p.n) :
    fitCount (maxU p.n) m neg rm 0 = 0 := by
  obtain ⟨_, _, hleast⟩ := fitCount_spec p m neg rm 0 hp
  by_contra hne
  have hover := hleast 0 le_rfl (Nat.pos_of_ne_zero hne)
  rw [roundDiv_zero] at hover
  omega

/-- The normalizer keeps a value in range, and raises nothing (R264 to R269). -/
theorem normOf_of_inRange {p : Params} (hp : p.legal) {m : Nat} (neg : Bool) {e : Int} (rm : RoundMode)
    (hm : m ≤ maxU p.n) (hmin : p.eMin ≤ e) (hmax : e ≤ p.eMax) :
    normOf p m neg e rm 0 = { kind := .finite, coef := m, neg := neg, exp := e, new := 0 } := by
  have hdigit := one_le_dc m
  simp only [normOf]
  split_ifs with hzero
  · simp [normZero, rangeStage, raiseIf, hzero, hmin, hmax, not_lt.2 hmin]
  · have hshift : (p.eMin - e).toNat = 0 := by omega
    have hnormal : ¬ e + (dc m : Int) - 1 < p.eMin := by omega
    simp [normNonzero, rangeStage, raiseIf, fitCount_eq_zero hp neg rm hm, hshift, hmax, not_lt.2 hmin, hnormal, Nat.mod_one]

/-! ### DMAKE (R38, R290) -/

/-- The context field of a control block, rounding mode and trap mask together, for the default context (R33, R38). -/
theorem packCb_default_context (scale : BitVec 16) (sign : Bool) (kind : Kind) (signals : SignalSet) :
    (packCb scale sign kind signals Context.default).extractLsb' 27 11 = 0x0D4 := by
  have hcontext : (place 27 Context.default.rm.code ||| place 30 Context.default.traps : Word).extractLsb' 27 11 = 0x0D4 := by
    decide
  rw [extract_or] at hcontext
  simp only [packCb, extract_or, BitVec.or_assoc, hcontext]
  simp [extract_place_below]

/-- DMAKE's meaning on a written operand. -/
theorem exec_dmake {rd : DIdx} {rs1 : XIdx} {neg : Bool} {scale : BitVec 16} {s : State} {a : LimbArray}
    (ha : s.readX rs1 = .ok a) :
    exec (.dmake rd rs1 neg scale) s = runCommand (.dmake rd rs1 neg scale) s
      (finishDecimal rd (normOf s.cfg (uval a) neg (-scale.toInt) .halfUp 0) 0 Context.default s) := by
  show runCommand _ s (s.readX rs1 >>= _) = _
  rw [ha]
  rfl

/-- Settles O46. -/
theorem dmakeConstructsDecimal : Obligations.DmakeConstructsDecimal := by
  rintro rd rs1 neg scale s a ⟨hp, hshape, _⟩ ha
  have htraps : Context.default =
      { rm := .halfUp, traps := single .divByZero ||| single .invalid ||| single .overflow } := by decide
  refine ⟨htraps ▸ finishesDecimal_of_normOf hp rfl (exec_dmake ha), fun hmin hmax => ?_⟩
  have hlen : a.length = s.cfg.n := length_of_readX hshape ha
  have hlow := scale.le_toInt
  have hhigh := scale.toInt_lt
  have hnorm := normOf_of_inRange hp neg (e := -scale.toInt) .halfUp ((le_maxU_iff _ _).2 (uval_lt_of_length hlen))
    (by omega) (by omega)
  have hrule := finishDecimal_of_quiet (rd := rd) (r := normOf s.cfg (uval a) neg (-scale.toInt) .halfUp 0) (inh := 0)
    (ctx := Context.default) (s := s) (by simp [hnorm]) (by simp [hnorm])
  refine ⟨_, _, (exec_dmake ha).trans (hrule ▸ runCommand_ok rfl), ?_, readD_writeD_self _ _ _, ?_⟩
  · exact ⟨fun q hq => dSlots_writeD_ne _ _ hq, rfl, rfl, rfl, rfl, rfl, rfl, rfl, rfl⟩
  · have hcoef : zext s.cfg.n (uval a) = a := by rw [zext, ← hlen, limbsOf_uval]
    simp [resultWord, hnorm, hcoef, pat16, packCb_default_context, Kind.code]

end Sys2Proof.Machine
end

/-! PROOFS. The memory file's statement (`20_memory.md`) about a write to `COMMAND` (R86, R87): it runs the command the word decodes
to (R340), or records the illegal word (R113, R345). -/

section
open Sys2Proof Sys2Proof.Machine

namespace Sys2Proof.Machine

/-! ### Issuing a command (R340) -/

section
variable {s : State} {w : CmdWord}

theorem issue_legal {i : Instr} (ha : s.status.aborted = false) (hd : decode s.cfg.n w = .ok i) :
    issue w s = exec i s := by
  simp only [issue, ha, hd, Bool.false_eq_true, if_false]

/-- An illegal word aborts, whatever the registers hold (R113, R348). -/
theorem issue_illegal (ha : s.status.aborted = false) (hd : ∀ i, decode s.cfg.n w ≠ .ok i) :
    issue w s = .next (s.takeAbort .illegalCommand w) := by
  cases h : decode s.cfg.n w with
  | ok i => exact absurd h (hd i)
  | error e => simp only [issue, ha, h, Bool.false_eq_true, if_false]

end

/-- A write to `COMMAND` issues its low 32 bits, once the access is off the port (R86, R87). -/
theorem step_command {s : State} {v : Word} {rest : List HostAccess} (hp : s.port = .write offCommand v :: rest) :
    step s = issue (v.setWidth 32) { s with port := rest } := by
  rw [step_write hp]
  simp only [hostWrite, portMap_command]

/-- What `ABORT_CMD` holds of a written word: its low 32 bits, zero-extended (R86, R345). -/
theorem setWidth_commandWord (v : Word) : (v.setWidth 32).setWidth 64 = v &&& 0xFFFFFFFF := by
  have hmask : (0xFFFFFFFF : Word).toNat = 2 ^ 32 - 1 := rfl
  apply BitVec.eq_of_toNat_eq
  rw [BitVec.toNat_and, hmask, Nat.and_two_pow_sub_one_eq_mod, BitVec.toNat_setWidth, BitVec.toNat_setWidth]
  omega

/-- Settles O5. -/
theorem stepRunsDecodedCommand : Obligations.StepRunsDecodedCommand := by
  intro s v rest hp ha
  rw [step_command hp]
  refine ⟨fun i hd => issue_legal ha hd, fun hd => ?_⟩
  have hissue := issue_illegal (s := { s with port := rest }) ha hd
  rw [hissue, State.takeAbort, setWidth_commandWord]
  rfl

end Sys2Proof.Machine
end

/-! PROOFS. The encoding file's statements (`30_encoding.md`). The decoder is said once, row by row (`decode_ok_iff`); the two
round trips then compare the fields of a word with those of the command (R101 to R114), and the assembly is read back
field by field (R115 to R117). -/

section
open Sys2Proof Sys2Proof.Machine

namespace Sys2Proof

/-! ### The bits that a row fixes (R108, R109) -/

section
variable {w : CmdWord}

theorem extract_of_match {mask pattern : CmdWord} {lo k : Nat} {v : BitVec k} (h : w &&& mask = pattern)
    (hmask : mask.extractLsb' lo k = BitVec.allOnes k := by decide) (hv : pattern.extractLsb' lo k = v := by decide) :
    w.extractLsb' lo k = v := by
  rw [← hv, ← h, BitVec.extractLsb'_and, hmask, BitVec.and_allOnes]

theorem getLsbD_of_match {mask pattern : CmdWord} {k : Nat} {b : Bool} (h : w &&& mask = pattern)
    (hmask : mask.getLsbD k = true := by decide) (hb : pattern.getLsbD k = b := by decide) : w.getLsbD k = b := by
  rw [← hb, ← h, BitVec.getLsbD_and, hmask, Bool.and_true]

/-- A word of format R is put together from its fields; the bits of `z` are zero (R101). -/
theorem encodeR_of_fields {op : BitVec 6} {rd a b rd2 : BitVec 4} {m : Mode} {s : Bool} (hop : fieldOp w = op)
    (hrd : fieldRd w = rd) (ha : fieldRs1 w = a) (hb : fieldRs2 w = b) (hrd2 : fieldRd2 w = rd2)
    (hm : fieldMode w = m.code) (hs : fieldS w = s) (hz : w.extractLsb' 0 6 = 0) : encodeR op rd a b rd2 m s = w := by
  subst hop hrd ha hb hrd2 hs
  have hlow (i : Nat) (hi : i < 6) : w.getLsbD i = false := by
    simpa [hi] using congrArg (BitVec.getLsbD · i) hz
  apply BitVec.eq_of_getLsbD_eq
  intro i hi
  simp only [encodeR, ← hm, fieldOp, fieldRd, fieldRs1, fieldRs2, fieldRd2, fieldMode, fieldS, BitVec.getLsbD_or,
    getLsbD_place, BitVec.getLsbD_extractLsb']
  interval_cases i <;> simp [hlow, bit, -BitVec.getLsbD_eq_getElem]

/-- A word of format I is put together from its fields (R102). -/
theorem encodeI_of_fields {op : BitVec 6} {rd a : BitVec 4} {f2 : BitVec 2} {imm : BitVec 16} (hop : fieldOp w = op)
    (hrd : fieldRd w = rd) (ha : fieldRs1 w = a) (hf2 : w.extractLsb' 16 2 = f2) (himm : fieldImm w = imm) :
    encodeI op rd a f2 imm = w := by
  subst hop hrd ha hf2 himm
  apply BitVec.eq_of_getLsbD_eq
  intro i hi
  simp only [encodeI, fieldOp, fieldRd, fieldRs1, fieldImm, BitVec.getLsbD_or, getLsbD_place, BitVec.getLsbD_extractLsb']
  interval_cases i <;> simp [-BitVec.getLsbD_eq_getElem]

/-- The bits 17..16 of DMAKE, where 17 is zero (R107, R109). -/
theorem signField_eq (h : w.getLsbD 17 = false) : w.extractLsb' 16 2 = place 0 (bit (fieldSign w)) := by
  apply BitVec.eq_of_getLsbD_eq
  intro i hi
  simp only [fieldSign, bit, getLsbD_place, BitVec.getLsbD_extractLsb']
  interval_cases i <;> simp [h, -BitVec.getLsbD_eq_getElem]

/-- The `imm16` of DCTX, where the bits above the trap mask are zero (R106). -/
theorem fieldImm_eq_contextImm (h : w.extractLsb' 11 5 = 0) :
    fieldImm w = contextImm (fieldCtxMode w) (fieldCtxTraps w) := by
  have hhigh (i : Nat) (hi : i < 5) : w.getLsbD (11 + i) = false := by
    simpa [hi] using congrArg (BitVec.getLsbD · i) h
  apply BitVec.eq_of_getLsbD_eq
  intro i hi
  simp only [fieldImm, contextImm, fieldCtxMode, fieldCtxTraps, RoundMode.code_ofCode, BitVec.getLsbD_or, getLsbD_place,
    BitVec.getLsbD_extractLsb']
  by_cases h11 : i < 11
  · interval_cases i <;> simp [-BitVec.getLsbD_eq_getElem]
  · have hi5 : 11 + (i - 11) = i := by omega
    have hz : w.getLsbD i = false := hi5 ▸ hhigh (i - 11) (by omega)
    simp [hz, show ¬ i < 3 by omega, show ¬ i - 3 < 8 by omega, -BitVec.getLsbD_eq_getElem]

end
/-! ### The rows of the opcode map (R109) -/

/-- The row that lists an opcode. -/
def Opcode.row (o : Opcode) : Row := (opcodeMap.find? (·.name = o)).get (by cases o <;> rfl)

@[simp] theorem Opcode.row_name (o : Opcode) : o.row.name = o := by cases o <;> rfl

theorem Opcode.row_mem (o : Opcode) : o.row ∈ opcodeMap := List.mem_of_find?_eq_some (Option.some_get _).symm

theorem names_nodup : (opcodeMap.map (·.name)).Nodup := by decide

theorem row_of_mem {row : Row} (h : row ∈ opcodeMap) : row.name.row = row :=
  List.inj_on_of_nodup_map names_nodup (Opcode.row_mem _) h (Opcode.row_name _)

/-- Every row fixes the whole `op` field, and `rowOf` finds the row by it. -/
theorem op_of_mem : ∀ row ∈ opcodeMap, row.mask.extractLsb' 26 6 = BitVec.allOnes 6 ∧
    row.pattern.extractLsb' 26 6 = row.op ∧ rowOf row.op = some row := by decide

theorem rowOf_of_match {row : Row} {w : CmdWord} (h : row ∈ opcodeMap) (hw : w &&& row.mask = row.pattern) :
    rowOf (fieldOp w) = some row := by
  obtain ⟨hmask, hpattern, hrow⟩ := op_of_mem row h
  rw [fieldOp, extract_of_match hw hmask hpattern, hrow]

/-- A row of format R that does not admit `s = 1` has bit 6 among its zero bits (R108, R111). -/
theorem sign_of_mem : ∀ row ∈ opcodeMap, row.fmt = .r →
    row.signs = [false, true] ∨ row.signs = [false] ∧ row.mask.getLsbD 6 = true ∧ row.pattern.getLsbD 6 = false := by
  decide

theorem fieldS_of_match {row : Row} {w : CmdWord} (h : row ∈ opcodeMap) (hw : w &&& row.mask = row.pattern)
    (hr : row.fmt = .r) : fieldS w ∈ row.signs := by
  obtain hs | ⟨hs, hmask, hpattern⟩ := sign_of_mem row h hr
  · rw [hs]
    cases fieldS w <;> decide
  · simp [hs, fieldS, getLsbD_of_match hw hmask hpattern, -BitVec.getLsbD_eq_getElem]

/-! ### What the decoder accepts (R110 to R114) -/

theorem decodeMode_r {row : Row} {w : CmdWord} {m : Mode} (hr : row.fmt = .r) :
    decodeMode row w = some m ↔ m ∈ row.modes ∧ fieldMode w = m.code := by
  simp only [decodeMode, hr, Option.filter_eq_some_iff, List.contains_iff_mem]
  constructor
  · rintro ⟨hc, hm⟩
    exact ⟨hm, (Mode.code_of_ofCode hc).symm⟩
  · rintro ⟨hm, hc⟩
    exact ⟨by rw [hc, Mode.ofCode_code], hm⟩

theorem decodeMode_i {row : Row} {w : CmdWord} (hi : row.fmt = .i) : decodeMode row w = some .wrapping := by
  simp only [decodeMode, hi]

theorem exists_decodeMode {row : Row} {w : CmdWord} :
    (∃ m, decodeMode row w = some m) ↔ (row.fmt = .r → ∃ m ∈ row.modes, fieldMode w = m.code) := by
  cases hf : row.fmt with
  | r => simp [decodeMode_r hf]
  | i => simp [decodeMode_i hf]

/-- The decoder, once for all rows: the row a word matches, the checks it passes, and the command built from its fields. -/
theorem decode_ok_iff {n : Nat} {w : CmdWord} {i : Instr} : decode n w = .ok i ↔
    ∃ row ∈ opcodeMap, w &&& row.mask = row.pattern ∧ (∃ m, decodeMode row w = some m ∧ build row.name m w = i) ∧
      (row.fmt = .r → fieldS w ∈ row.signs) ∧ (row.name = .divw → n ≠ 1) := by
  constructor
  · intro h
    unfold decode at h
    split at h
    · cases h
    rename_i row hrow
    split at h
    · cases h
    rename_i hw
    split at h
    · cases h
    rename_i m hm
    split at h
    · cases h
    rename_i hs
    split at h
    · cases h
    rename_i hn
    refine ⟨row, List.mem_of_find?_eq_some hrow, not_not.mp hw, ⟨m, hm, Except.ok.inj h⟩, fun hr => ?_,
      fun hd h1 => hn ⟨hd, h1⟩⟩
    simpa [hr] using hs
  · rintro ⟨row, hrow, hw, ⟨m, hm, rfl⟩, hs, hn⟩
    have hn' : ¬ (row.name = .divw ∧ n = 1) := fun ⟨hd, h1⟩ => hn hd h1
    simpa [decode, rowOf_of_match hrow hw, hw, hm, hn'] using hs

/-- Settles O3: both sides say the same of the row that the word matches. -/
theorem decodeAcceptsExactlyLegalWords : Obligations.DecodeAcceptsExactlyLegalWords := by
  intro n w
  simp only [decode_ok_iff]
  constructor
  · rintro ⟨_, row, hrow, hw, ⟨m, hm, _⟩, hs, hn⟩
    exact ⟨row, hrow, hw, fun hr => ⟨exists_decodeMode.mp ⟨m, hm⟩ hr, hs hr⟩, hn⟩
  · rintro ⟨row, hrow, hw, hrs, hn⟩
    obtain ⟨m, hm⟩ := exists_decodeMode.mpr fun hr => (hrs hr).1
    exact ⟨_, row, hrow, hw, ⟨m, hm, rfl⟩, fun hr => (hrs hr).2, hn⟩

/-! ### From the command to the word and back (R114) -/

/-- The `mode` field of a command; mode 000 where it has none (R104, R110). -/
def Instr.mode : Instr → Mode
  | .shl _ _ _ m | .shr _ _ _ m _ | .add _ _ _ m _ | .sub _ _ _ m _ | .mul _ _ _ m _ | .divrem _ _ _ _ m _
  | .divrd _ _ _ _ m | .divw _ _ _ _ m | .mulp10 _ _ _ m => m
  | _ => .wrapping

theorem Mode.notSaturating_iff {m : Mode} : m.notSaturating = true ↔ m ∈ Mode.toStrict := by cases m <;> decide

theorem Mode.mem_all (m : Mode) : m ∈ Mode.all := by cases m <;> decide

/-- The opcode and the fields of its word make up a command, legal or not. -/
theorem build_encode (i : Instr) : build (opcodeOf i) i.mode (encode i) = i := by
  cases i <;> simp [build, encode, opcodeOf, Instr.mode]

theorem fieldMode_encode {i : Instr} (hr : (opcodeOf i).row.fmt = .r) : fieldMode (encode i) = i.mode.code := by
  cases i with
  | ldi | lget | lset | tpow10 | tpow5 | trmax | dmake | dctx | dround | dtrunc => cases hr
  | _ => exact fieldMode_encodeR ..

/-- A legal command has a `mode` that its row admits (R110). -/
theorem mode_mem_of_wf {n : Nat} {i : Instr} (h : i.wf n = true) (hr : (opcodeOf i).row.fmt = .r) :
    i.mode ∈ (opcodeOf i).row.modes := by
  cases i with
  | shl | shr | divrem | divrd => exact Mode.notSaturating_iff.mp h
  | divw => exact Mode.notSaturating_iff.mp (Bool.and_eq_true_iff.mp h).1
  | add | sub | mul | mulp10 => exact Mode.mem_all _
  | mov | cmp | mulw | digits | divp10 | dmov | dcoef | dcb | dadd | dsub | dmul => exact List.mem_singleton.mpr rfl
  | _ => cases hr

theorem decodeMode_encode {n : Nat} {i : Instr} (h : i.wf n = true) :
    decodeMode (opcodeOf i).row (encode i) = some i.mode := by
  cases hf : (opcodeOf i).row.fmt with
  | r => exact (decodeMode_r hf).mpr ⟨mode_mem_of_wf h hf, fieldMode_encode hf⟩
  | i =>
    have hmode : i.mode = .wrapping := by
      cases i with
      | ldi | lget | lset | tpow10 | tpow5 | trmax | dmake | dctx | dround | dtrunc => rfl
      | _ => cases hf
    rw [decodeMode_i hf, hmode]

/-- The word of a command matches the row of its opcode: the per-command laws, for all thirty. -/
theorem encode_match (i : Instr) : encode i &&& (opcodeOf i).row.mask = (opcodeOf i).row.pattern := by
  have hrow : Laws.TableRow.Statement i := by
    cases i
    exacts [Laws.TableRow.mov .., Laws.TableRow.ldi .., Laws.TableRow.lget .., Laws.TableRow.lset ..,
      Laws.TableRow.shl .., Laws.TableRow.shr .., Laws.TableRow.cmp .., Laws.TableRow.add .., Laws.TableRow.sub ..,
      Laws.TableRow.mul .., Laws.TableRow.mulw .., Laws.TableRow.divrem .., Laws.TableRow.divrd ..,
      Laws.TableRow.divw .., Laws.TableRow.tpow10 .., Laws.TableRow.tpow5 .., Laws.TableRow.trmax ..,
      Laws.TableRow.digits .., Laws.TableRow.mulp10 .., Laws.TableRow.divp10 .., Laws.TableRow.dmake ..,
      Laws.TableRow.dctx .., Laws.TableRow.dmov .., Laws.TableRow.dcoef .., Laws.TableRow.dcb ..,
      Laws.TableRow.dadd .., Laws.TableRow.dsub .., Laws.TableRow.dmul .., Laws.TableRow.dround ..,
      Laws.TableRow.dtrunc ..]
  obtain ⟨row, hmem, hname, _, hmatch⟩ := hrow
  rw [← hname, row_of_mem hmem, hmatch]

/-- A legal DIVW is on a block of two limbs or more (R112). -/
theorem limbs_of_wf {n : Nat} {i : Instr} (h : i.wf n = true) (hd : opcodeOf i = .divw) : n ≠ 1 := by
  cases i with
  | divw => exact of_decide_eq_true (Bool.and_eq_true_iff.mp h).2
  | _ => cases hd

/-- Settles O1: the word of a legal command passes every check of the row of its opcode. -/
theorem decodeOfEncode : Obligations.DecodeOfEncode := by
  intro n i h
  have hmem := (opcodeOf i).row_mem
  have hmatch := encode_match i
  refine decode_ok_iff.mpr ⟨_, hmem, hmatch, ⟨i.mode, decodeMode_encode h, ?_⟩, fieldS_of_match hmem hmatch, ?_⟩
  · rw [Opcode.row_name, build_encode]
  · rw [Opcode.row_name]
    exact limbs_of_wf h

/-! ### From the word to the command and back (R108, R114) -/

section
variable {o : Opcode} {w : CmdWord} {m : Mode}

/-- The fields a command does not have are fixed by its row, so that its word is the one it was built from. -/
theorem encode_build (hw : w &&& o.row.mask = o.row.pattern) (hm : o.row.fmt = .r → fieldMode w = m.code) :
    encode (build o m w) = w := by
  have hop : fieldOp w = o.row.op := by
    obtain ⟨hmask, hpattern, _⟩ := op_of_mem _ o.row_mem
    exact extract_of_match hw hmask hpattern
  cases o with
  | mov | digits | dmov | dcoef | dcb =>
    exact encodeR_of_fields hop rfl rfl (extract_of_match hw)
      (extract_of_match hw) (extract_of_match hw)
      (getLsbD_of_match hw) (extract_of_match hw)
  | dadd | dsub | dmul =>
    exact encodeR_of_fields hop rfl rfl rfl (extract_of_match hw)
      (extract_of_match hw) (getLsbD_of_match hw)
      (extract_of_match hw)
  | mulw | divp10 =>
    exact encodeR_of_fields hop rfl rfl rfl rfl (extract_of_match hw)
      (getLsbD_of_match hw) (extract_of_match hw)
  | cmp =>
    exact encodeR_of_fields hop (extract_of_match hw) rfl rfl
      (extract_of_match hw) (extract_of_match hw) rfl
      (extract_of_match hw)
  | shl | mulp10 =>
    exact encodeR_of_fields hop rfl rfl rfl (extract_of_match hw) (hm rfl)
      (getLsbD_of_match hw) (extract_of_match hw)
  | shr | add | sub | mul =>
    exact encodeR_of_fields hop rfl rfl rfl (extract_of_match hw) (hm rfl) rfl
      (extract_of_match hw)
  | divrem => exact encodeR_of_fields hop rfl rfl rfl rfl (hm rfl) rfl (extract_of_match hw)
  | divrd | divw =>
    exact encodeR_of_fields hop rfl rfl rfl rfl (hm rfl) (getLsbD_of_match hw)
      (extract_of_match hw)
  | ldi | tpow10 | tpow5 | trmax =>
    exact encodeI_of_fields hop rfl (extract_of_match hw)
      (extract_of_match hw) rfl
  | lget | lset | dround | dtrunc =>
    exact encodeI_of_fields hop rfl rfl (extract_of_match hw) rfl
  | dmake => exact encodeI_of_fields hop rfl rfl (signField_eq (getLsbD_of_match hw)) rfl
  | dctx =>
    exact encodeI_of_fields hop rfl rfl (extract_of_match hw) (fieldImm_eq_contextImm (extract_of_match hw))

/-- A command built with a `mode` that its row admits is legal, on a block that has the limbs for it (R110, R112). -/
theorem wf_build {n : Nat} (hm : o.row.fmt = .r → m ∈ o.row.modes) (hn : o = .divw → n ≠ 1) :
    (build o m w).wf n = true := by
  cases o with
  | shl | shr | divrem | divrd => exact Mode.notSaturating_iff.mpr (hm rfl)
  | divw => exact Bool.and_eq_true_iff.mpr ⟨Mode.notSaturating_iff.mpr (hm rfl), decide_eq_true (hn rfl)⟩
  | _ => rfl

end

/-- Settles O2: the row fixes the bits that are no operand, and the checks make the command legal. -/
theorem encodeOfDecode : Obligations.EncodeOfDecode := by
  intro n w i h
  obtain ⟨row, hrow, hw, ⟨m, hm, rfl⟩, -, hn⟩ := decode_ok_iff.mp h
  rw [← row_of_mem hrow] at hw hm
  exact ⟨encode_build hw fun hr => ((decodeMode_r hr).mp hm).2, wf_build (fun hr => ((decodeMode_r hr).mp hm).1) hn⟩

/-- Settles O4: each word is decoded by evaluation. -/
theorem sampleWordsDecode : Obligations.SampleWordsDecode := ⟨rfl, rfl, rfl, rfl, rfl, rfl, rfl, rfl⟩

end Sys2Proof

namespace Sys2Proof.Machine

/-! ### The assembly of a command (R115 to R117) -/

/-- The mnemonic of an opcode, from any command of it. -/
def mnemonicOf (o : Opcode) : String := (assemblyOf (build o .wrapping 0)).mnemonic

theorem mnemonic_build (o : Opcode) (m : Mode) (w : CmdWord) : (assemblyOf (build o m w)).mnemonic = mnemonicOf o := by
  cases o <;> rfl

theorem mnemonics_nodup : (opcodeMap.map fun row => mnemonicOf row.name).Nodup := by decide

theorem mnemonicOf_injective {o o' : Opcode} (h : mnemonicOf o = mnemonicOf o') : o = o' := by
  have hrow : o.row = o'.row := List.inj_on_of_nodup_map mnemonics_nodup o.row_mem o'.row_mem (by simpa using h)
  simpa using congrArg Row.name hrow

theorem modeSuffix_injective : Function.Injective modeSuffix := by
  intro m m' h
  cases m <;> cases m' <;> simp [modeSuffix] at h ⊢

/-- The suffix `.s` is told from every mode suffix (R116). -/
theorem mem_suffixes_iff {m : Mode} {s : Bool} : "s" ∈ modeSuffix m ++ signSuffix s ↔ s = true := by
  cases m <;> cases s <;> decide

theorem arithLine_inj {name : String} {m m' : Mode} {s s' : Bool} {ops ops' : List AsmOperand} :
    arithLine name m s ops = arithLine name m' s' ops' ↔ m = m' ∧ s = s' ∧ ops = ops' := by
  constructor
  · intro h
    injection h with _ hsuffixes hops
    obtain rfl : s = s' := Bool.eq_iff_iff.mpr (by rw [← mem_suffixes_iff, hsuffixes, mem_suffixes_iff])
    exact ⟨modeSuffix_injective (List.append_cancel_right hsuffixes), rfl, hops⟩
  · rintro ⟨rfl, rfl, rfl⟩
    rfl

theorem immIndex_inj {a b : BitVec 16} : immIndex a = immIndex b ↔ a = b := BitVec.toNat_inj

theorem sval16_inj {a b : BitVec 16} : sval16 a = sval16 b ↔ a = b := BitVec.toInt_inj

/-- Within one opcode, the suffixes and the operands give every field that the command has. -/
theorem build_eq_of_assembly_eq {o : Opcode} {m m' : Mode} {w w' : CmdWord}
    (h : assemblyOf (build o m w) = assemblyOf (build o m' w')) : build o m w = build o m' w' := by
  cases o with
  | shl | shr | cmp | add | sub | mul | divrem | divrd | divw | mulp10 =>
    obtain ⟨hmode, hsign, hops⟩ := arithLine_inj.mp h
    simp_all [build]
  | dmake =>
    injection h with _ hsuffixes hops
    have hneg : fieldSign w = fieldSign w' := by
      cases hw : fieldSign w <;> cases hw' : fieldSign w' <;> simp [hw, hw'] at hsuffixes ⊢
    simp_all [build, sval16_inj]
  | _ =>
    injection h with _ _ hops
    simpa [build, immIndex_inj, sval16_inj, BitVec.toNat_inj] using hops

/-- Settles O58: the mnemonic gives the opcode, and every command is built from its opcode and its fields. -/
theorem assemblyNamesOneCommand : Obligations.AssemblyNamesOneCommand := by
  intro i j h
  rw [← build_encode i, ← build_encode j] at h ⊢
  have hop : opcodeOf i = opcodeOf j := mnemonicOf_injective (by
    simpa only [mnemonic_build] using congrArg AsmLine.mnemonic h)
  rw [hop] at h ⊢
  exact build_eq_of_assembly_eq h

end Sys2Proof.Machine
end

/-! PROOFS. The limb file's statements (`40_limb_array.md`) about single commands: moves and limb indexing write one register
(R140 to R143), shifts end in Finish (R144, R146, R147). -/

section
open Sys2Proof Sys2Proof.Machine

namespace Sys2Proof.Machine

/-! ### A rule after its reads (R340) -/

section
variable {i : Instr} {s : State} {r q : XIdx} {a b : LimbArray}

theorem exec_of_readX {f : LimbArray → Except Stop State} (he : exec i s = runCommand i s (s.readX r >>= f))
    (ha : s.readX r = .ok a) : exec i s = runCommand i s (f a) := by
  rw [he, ha]
  rfl

theorem exec_of_readX2 {f : LimbArray → LimbArray → Except Stop State}
    (he : exec i s = runCommand i s (s.readX r >>= fun u => s.readX q >>= f u))
    (ha : s.readX r = .ok a) (hb : s.readX q = .ok b) : exec i s = runCommand i s (f a b) := by
  rw [he, ha, hb]
  rfl

end

/-! ### Moves (R140, R141) -/

/-- A field or a limb is below `2^(64N)`, so that its zero extension keeps it (R11, R106). -/
theorem toNat_lt_modulus {n k : Nat} (hn : 1 ≤ n) (hk : k ≤ 64) (v : BitVec k) : v.toNat < modulus n :=
  calc v.toNat < 2 ^ k := v.isLt
    _ ≤ modulus n := Nat.pow_le_pow_right (by decide) (by simp only [width]; omega)

/-- Settles O26. -/
theorem movAndLdiWriteRegister : Obligations.MovAndLdiWriteRegister := by
  constructor
  · rintro rd rs1 s a ⟨_, hshape, _⟩ ha
    exact writesValue_of_ok rfl (exec_of_readX rfl ha) rfl (length_of_readX hshape ha) rfl
  · rintro rd imm s ⟨⟨hn, _⟩, _⟩
    exact writesValue_of_ok rfl rfl rfl (length_zext _ _) (uval_zext_lt (toNat_lt_modulus hn (by decide) imm))

/-! ### Limb indexing (R142, R143) -/

theorem uval_cons_mod (w : Word) (ws : LimbArray) : uval (w :: ws) % 2 ^ 64 = w.toNat := by
  rw [uval, Nat.add_mul_mod_self_left, Nat.mod_eq_of_lt w.isLt]

theorem uval_cons_div (w : Word) (ws : LimbArray) : uval (w :: ws) / 2 ^ 64 = uval ws := by
  rw [uval, Nat.add_mul_div_left _ _ (by decide), Nat.div_eq_of_lt w.isLt, Nat.zero_add]

/-- Replacing a limb keeps the limbs below it and the limbs above it (R31). -/
theorem uval_set {v : LimbArray} {i : Nat} (hi : i < v.length) (w : Word) :
    uval (v.set i w) =
      uval v % 2 ^ (64 * i) + w.toNat * 2 ^ (64 * i) + uval v / 2 ^ (64 * (i + 1)) * 2 ^ (64 * (i + 1)) := by
  induction v generalizing i with
  | nil => simp at hi
  | cons x xs ih =>
    cases i with
    | zero =>
      simp only [List.set_cons_zero, Nat.mul_zero, pow_zero, Nat.mod_one, Nat.zero_add, Nat.mul_one, uval_cons_div]
      rw [uval, Nat.mul_comm]
    | succ i =>
      have hpow (j : Nat) : 2 ^ (64 * (j + 1)) = 2 ^ 64 * 2 ^ (64 * j) := by rw [← pow_add, Nat.mul_succ, Nat.add_comm]
      have hbelow : uval (x :: xs) % 2 ^ (64 * (i + 1)) = x.toNat + 2 ^ 64 * (uval xs % 2 ^ (64 * i)) := by
        rw [hpow, Nat.mod_mul, uval_cons_mod, uval_cons_div]
      have habove : uval (x :: xs) / 2 ^ (64 * (i + 1 + 1)) = uval xs / 2 ^ (64 * (i + 1)) := by
        rw [hpow (i + 1), ← Nat.div_div_eq_div_mul, uval_cons_div]
      rw [List.set_cons_succ, uval, ih (Nat.lt_of_succ_lt_succ hi), hbelow, habove, hpow (i + 1), hpow i]
      ring

/-- Settles O27. -/
theorem lgetAndLsetIndexLimbs : Obligations.LgetAndLsetIndexLimbs := by
  rintro rd rs1 idx s a ⟨⟨hn, _⟩, hshape, _⟩ ha
  have hget := exec_of_readX (i := .lget rd rs1 idx) rfl ha
  refine ⟨fun hin => ?_, fun hout => ?_, fun v hv => ?_⟩
  · rw [← limb_toNat]
    exact writesValue_of_ok rfl hget (if_neg (Nat.not_le.2 hin)) (length_zext _ _)
      (uval_zext_lt (toNat_lt_modulus hn le_rfl _))
  · exact abortsWith_of_error rfl hget (if_pos hout)
  · have hset := exec_of_readX2 (i := .lset rd rs1 idx) rfl hv ha
    have hlen : v.length = s.cfg.n := length_of_readX hshape hv
    refine ⟨fun hin => ?_, fun hout => abortsWith_of_error rfl hset (if_pos hout)⟩
    rw [← limb_zero_toNat a]
    exact writesValue_of_ok rfl hset (if_neg (Nat.not_le.2 hin)) (by rw [List.length_set, hlen])
      (uval_set (hlen.symm ▸ hin) _)

/-! ### Shifts (R146, R147) -/

theorem uval_pat_toNat (n : Nat) (v : Int) : uval (pat n v) = (v % 2 ^ (64 * n)).toNat := by
  rw [← natCast_modulus, ← uval_pat, Int.toNat_natCast]

theorem uval_pat_natCast (n v : Nat) : uval (pat n v) = v % 2 ^ (64 * n) := by
  rw [uval_pat_toNat]
  exact_mod_cast Int.toNat_natCast (v % 2 ^ (64 * n))

theorem uval_shiftLeft (n : Nat) (a : LimbArray) (k : Nat) :
    uval (shiftLeft n a k) = uval a * 2 ^ (k % (64 * n)) % 2 ^ (64 * n) :=
  uval_pat_natCast n _

/-- The quotient rounded down, of the reading that the sign selects (R147). -/
theorem uval_shiftRight {n : Nat} {a : LimbArray} (ha : a.length = n) (sgn : Bool) (k : Nat) :
    uval (shiftRight n sgn a k) =
      if sgn then ((sval n a).fdiv (2 ^ (k % (64 * n))) % 2 ^ (64 * n)).toNat else uval a / 2 ^ (k % (64 * n)) := by
  cases sgn with
  | true =>
    have hfloor : (sval n a).fdiv (2 ^ (k % (64 * n))) = sval n a / (2 ^ (k % (64 * n)) : Nat) := by
      rw [Int.fdiv_eq_ediv_of_nonneg _ (by positivity), Nat.cast_pow, Nat.cast_ofNat]
    rw [if_pos rfl, hfloor]
    exact uval_pat_toNat n _
  | false =>
    have hquotient : shiftRight n false a k = pat n (uval a / 2 ^ (k % (64 * n)) : Nat) := by
      rw [Int.natCast_div]
      rfl
    have hlt : uval a / 2 ^ (k % (64 * n)) < 2 ^ (64 * n) := (Nat.div_le_self _ _).trans_lt (uval_lt_of_length ha)
    rw [hquotient, uval_pat_natCast, Nat.mod_eq_of_lt hlt]
    rfl

/-- Settles O28. -/
theorem shiftsMultiplyAndDivide : Obligations.ShiftsMultiplyAndDivide := by
  rintro rd rs1 rs2 mode sgn s a b ⟨_, hshape, _⟩ hmode ha hb w exc
  have hlegal : mode.notSaturating = true := decide_eq_true hmode
  have hlen : a.length = s.cfg.n := length_of_readX hshape ha
  have hshl := exec_of_readX2 (i := .shl rd rs1 rs2 mode) rfl ha hb
  have hshr := exec_of_readX2 (i := .shr rd rs1 rs2 mode sgn) rfl ha hb
  exact ⟨finishesAs_of_finish (rs := []) hlegal hshl (length_pat _ _) (uval_shiftLeft _ a _) fun h => absurd h hmode,
    finishesAs_of_finish (rs := []) hlegal hshr (length_pat _ _) (uval_shiftRight hlen sgn _) fun h => absurd h hmode⟩

end Sys2Proof.Machine
end

/-! PROOFS. The limb file's statement (`40_limb_array.md`) about all commands: one completes when its operands are written and
nothing in its rule aborts (R144, R201, R271, R272, R341). -/

section
open Sys2Proof Sys2Proof.Machine

namespace Sys2Proof.Machine

/-! ### Completing with written destinations -/

/-- The command completes, no abort is recorded, and its destinations are written afterwards, unless it is a checked command
without a result (R49, R144). -/
def completesWritten (i : Instr) (s : State) : Prop :=
  ∃ t, exec i s = .next t ∧ t.status = s.status ∧ t.abortCmd = s.abortCmd ∧
    ((writesArith i = true ∧ t.flags.none = true) ∨ ∀ r ∈ writesX i, t.writtenX r) ∧ ∀ r ∈ writesD i, t.writtenD r

section
variable {i : Instr} {s : State}

theorem completesWritten_of_completed {t : State} (he : exec i s = .next t) (hc : Completed i s t) :
    completesWritten i s :=
  ⟨t, he, hc.status, hc.abortCmd, hc.x_written.imp_left fun ⟨harith, hnone, _⟩ => ⟨harith, hnone⟩, hc.d_written⟩

/-- A rule that finds its operands and raises no abort completes (R340). -/
theorem completesWritten_of_ends {rule : Except Stop State} (hw : i.wf s.cfg.n = true)
    (he : exec i s = runCommand i s rule) (hends : Ends i s rule) (how : operandsWritten i s)
    (hno : ∀ c, mayRaise i c → rule ≠ .error (.abort c)) : completesWritten i s := by
  rcases hends with ⟨_, hun⟩ | ⟨_, ⟨t, rfl, hc⟩ | ⟨c, hrule, hc⟩⟩
  · exact absurd how hun
  · exact completesWritten_of_completed (he.trans (runCommand_ok hw)) hc
  · exact absurd hrule (hno c hc)

/-- A command that no cause is listed for completes (R341). -/
theorem completesWritten_of_no_cause (hw : i.wf s.cfg.n = true) (how : operandsWritten i s) (hno : ∀ c, ¬ mayRaise i c) :
    completesWritten i s := by
  obtain ⟨rule, he, hends⟩ := command_ends i s
  exact completesWritten_of_ends hw he (hends hw) how fun c hc => absurd hc (hno c)

theorem completesWritten_of_writesValue {rd : XIdx} {v : Nat} (h : writesValue i s rd v) (hx : writesX i = [rd])
    (hd : writesD i = []) : completesWritten i s := by
  obtain ⟨t, he, ⟨a, ha, _⟩, ⟨_, _, _, hstatus, hcmd, _⟩, _⟩ := h
  obtain ⟨hwritten, _⟩ := (readX_eq_ok_iff t rd a).1 ha
  exact ⟨t, he, hstatus, hcmd, .inr (by simpa [hx] using hwritten), by simp [hd]⟩

/-- A command that writes one decimal register. -/
theorem completesWritten_of_keepsAllButD {t : State} {rd : DIdx} {v : DecWord} (he : exec i s = .next t)
    (hkeeps : t.keepsAllButD s rd) (hread : t.readD rd = .ok v) (hx : writesX i = []) (hd : writesD i = [rd]) :
    completesWritten i s := by
  obtain ⟨_, _, _, _, hstatus, hcmd, _⟩ := hkeeps
  obtain ⟨hwritten, _⟩ := (readD_eq_ok_iff t rd v).1 hread
  exact ⟨t, he, hstatus, hcmd, .inr (by simp [hx]), by simpa [hd] using hwritten⟩

theorem completesWritten_of_writeD {rd : DIdx} {v : DecWord} (hw : i.wf s.cfg.n = true)
    (he : exec i s = runCommand i s (.ok (s.writeD rd v))) (hx : writesX i = []) (hd : writesD i = [rd]) :
    completesWritten i s :=
  completesWritten_of_keepsAllButD (he.trans (runCommand_ok hw))
    ⟨fun _ hq => dSlots_writeD_ne s v hq, rfl, rfl, rfl, rfl, rfl, rfl, rfl, rfl⟩ (readD_writeD_self s rd v) hx hd

end

/-! ### Divisions (R200 to R204) -/

section
variable {i : Instr} {s : State} {mode : Mode} {rd rd2 : XIdx}

/-- The rule is Finish of a quotient and a remainder of N limbs each: what a division is past its zero test (R200 to R204). -/
def isQuotRem (rule : Except Stop State) (rd rd2 : XIdx) (mode : Mode) (s : State) : Prop :=
  ∃ exc q r f, rule = finish mode (onOverflow exc) [(rd, q), (rd2, r)] [] f s ∧ q.length = s.cfg.n ∧ r.length = s.cfg.n

theorem completesWritten_of_quotRem {rule : Except Stop State} (hrule : isQuotRem rule rd rd2 mode s)
    (hw : i.wf s.cfg.n = true) (he : exec i s = runCommand i s rule) (hx : writesX i = [rd, rd2]) (hd : writesD i = [])
    (harith : writesArith i = true) (hsat : mode ≠ .saturating) (hstrict : mode ≠ .strict) (how : operandsWritten i s) :
    completesWritten i s := by
  obtain ⟨exc, q, r, f, rfl, hq, hr⟩ := hrule
  have hends := ends_finish i s mode exc [(rd, q), (rd2, r)] [] f hx hd (by simp [hq, hr]) harith
    (fun h => absurd h hsat) (fun h => absurd h hstrict) how
  refine completesWritten_of_ends hw he hends how fun c _ herror => ?_
  obtain ⟨_, hmode, _⟩ := finish_error herror
  exact hstrict hmode

/-- A pattern reads 0 as BigInt only if it reads 0 as BigUInt (R12). -/
theorem sval_ne_zero {n : Nat} {b : LimbArray} (hn : 1 ≤ n) (hb : b.length = n) (h : uval b ≠ 0) : sval n b ≠ 0 := by
  intro hzero
  have hmod := sval_emod hn hb
  rw [hzero, Int.zero_emod] at hmod
  exact h (by exact_mod_cast hmod.symm)

theorem divremRule_isQuotRem {a b : LimbArray} (hn : 1 ≤ s.cfg.n) (hlen : b.length = s.cfg.n) (hb : uval b ≠ 0)
    (sgn : Bool) : isQuotRem (divremRule rd rd2 mode sgn a b s) rd rd2 mode s := by
  cases sgn with
  | true =>
    have hrule : divremRule rd rd2 mode true a b s = _ := if_neg (sval_ne_zero hn hlen hb)
    exact ⟨_, _, _, _, hrule, length_pat _ _, length_pat _ _⟩
  | false =>
    have hrule : divremRule rd rd2 mode false a b s = _ := if_neg hb
    exact ⟨false, _, _, _, hrule, length_zext _ _, length_zext _ _⟩

theorem divwRule_isQuotRem {hi lo v : Nat} (hv : v ≠ 0) : isQuotRem (divwRule rd rd2 mode hi lo v s) rd rd2 mode s := by
  have hrule : divwRule rd rd2 mode hi lo v s = _ := if_neg hv
  exact ⟨_, _, _, _, hrule, length_zext _ _, length_zext _ _⟩

end

/-! ### Decimal results (R260, R271 to R273) -/

section
variable {i : Instr} {s : State} {rd rs1 rs2 : DIdx} {u v : DecWord}

theorem readDec_of_wellFormed (h : cbWellFormed v.cb = true) : ∃ x, readDec v = .ok x ∧ x.ctx = cbContext v.cb := by
  rcases readDec_cases v with ⟨_, k, _, hok⟩ | ⟨hbad, _⟩
  · exact ⟨_, hok, rfl⟩
  · simp [h] at hbad

/-- With no trap and no Strict, neither check can abort (R271, R272). -/
theorem completesWritten_of_finishDecimal {r : NormResult} {inh : SignalSet} {ctx : Context} (hw : i.wf s.cfg.n = true)
    (he : exec i s = runCommand i s (finishDecimal rd r inh ctx s)) (htraps : ctx.traps = 0) (hrm : ctx.rm ≠ .strict)
    (hx : writesX i = []) (hd : writesD i = [rd]) : completesWritten i s := by
  have hquiet := finishDecimal_of_quiet (rd := rd) (r := r) (inh := inh) (ctx := ctx) (s := s) (fun h => hrm h.1)
    (fun g => by simp [htraps])
  exact completesWritten_of_writeD hw (hquiet ▸ he) hx hd

theorem completesWritten_dctx {rm : RoundMode} {traps : BitVec 8} (hu : s.readD rs1 = .ok u)
    (hwf : cbWellFormed u.cb = true) : completesWritten (.dctx rd rs1 rm traps) s := by
  obtain ⟨x, hx, _⟩ := readDec_of_wellFormed hwf
  have he : exec (.dctx rd rs1 rm traps) s = runCommand (.dctx rd rs1 rm traps) s
      (s.readD rs1 >>= fun w => readDec w >>= fun _ => .ok (s.writeD rd ⟨w.coef, cbWithContext w.cb ⟨rm, traps⟩⟩)) := rfl
  simp only [hu, hx, bind, Except.bind] at he
  exact completesWritten_of_writeD rfl he rfl rfl

/-- DROUND and DTRUNC: one arithmetic operand, whose context decides (R261, R298, R299). -/
theorem completesWritten_of_operand {result : DecOperand → NormResult} (hw : i.wf s.cfg.n = true)
    (he : exec i s = runCommand i s
      (s.readD rs1 >>= fun w => readDec w >>= fun x => finishDecimal rd (result x) x.signals x.ctx s))
    (hx : writesX i = []) (hd : writesD i = [rd]) (hu : s.readD rs1 = .ok u)
    (hquiet : cbWellFormed u.cb = true ∧ cbTraps u.cb = 0 ∧ cbRm u.cb ≠ .strict) : completesWritten i s := by
  obtain ⟨hwf, htraps, hrm⟩ := hquiet
  obtain ⟨x, hread, hctx⟩ := readDec_of_wellFormed hwf
  simp only [hu, hread, bind, Except.bind] at he
  exact completesWritten_of_finishDecimal hw he (hctx ▸ htraps) (hctx ▸ hrm) hx hd

/-- DADD, DSUB and DMUL: two arithmetic operands, of which the context of the first decides (R261, R313 to R315). -/
theorem completesWritten_of_operands {result : DecOperand → DecOperand → NormResult} (hw : i.wf s.cfg.n = true)
    (he : exec i s = runCommand i s (readDec2 s rs1 rs2 >>= fun p =>
      finishDecimal rd (result p.1 p.2) (p.1.signals ||| p.2.signals) p.1.ctx s))
    (hx : writesX i = []) (hd : writesD i = [rd])
    (h : ∃ u v, s.readD rs1 = .ok u ∧ s.readD rs2 = .ok v ∧ cbWellFormed u.cb = true ∧ cbWellFormed v.cb = true ∧
      cbTraps u.cb = 0 ∧ cbRm u.cb ≠ .strict) : completesWritten i s := by
  obtain ⟨u, v, hu, hv, huwf, hvwf, htraps, hrm⟩ := h
  obtain ⟨x, hreadx, hctx⟩ := readDec_of_wellFormed huwf
  obtain ⟨y, hready, _⟩ := readDec_of_wellFormed hvwf
  simp only [readDec2, hu, hv, hreadx, hready, bind, Except.bind] at he
  exact completesWritten_of_finishDecimal hw he (hctx ▸ htraps) (hctx ▸ hrm) hx hd

end

/-! ### All commands -/

/-- A legal mode of a command that does not saturate (R110). -/
theorem ne_saturating_of_legal {m : Mode} (h : m.notSaturating = true) : m ≠ .saturating := of_decide_eq_true h

/-- Settles O19, by the commands: those that no cause is left for, the two limb indexes, the tables, the divisions and the decimal
commands. -/
theorem commandCompletesWhenNothingAborts : Obligations.CommandCompletesWhenNothingAborts := by
  intro i s hs hw how hpremise
  have ⟨⟨hn, _⟩, hshape, _⟩ := hs
  have ⟨howX, _⟩ := how
  have hread {r : XIdx} (h : r ∈ readsX i) : s.readX r = .ok (slotWords (s.xSlots r)) := readX_of_written (howX r h)
  cases i with
  | mov | ldi | cmp | mulw | digits | divp10 | dmov | dcoef | dcb =>
    exact completesWritten_of_no_cause hw how fun _ h => h
  | shl | shr | add | sub | mul | mulp10 =>
    exact completesWritten_of_no_cause hw how fun _ ⟨hstrict, _⟩ => hpremise hstrict
  | lget rd rs1 idx =>
    obtain ⟨hget, _⟩ := lgetAndLsetIndexLimbs rd rs1 idx s _ hs (hread (.head _))
    exact completesWritten_of_writesValue (hget hpremise) rfl rfl
  | lset rd rs1 idx =>
    obtain ⟨_, _, hset⟩ := lgetAndLsetIndexLimbs rd rs1 idx s _ hs (hread (.tail _ (.head _)))
    obtain ⟨hset, _⟩ := hset _ (hread (.head _))
    exact completesWritten_of_writesValue (hset hpremise) rfl rfl
  | tpow10 rd k =>
    obtain ⟨htables, _⟩ := tableReadsGivePowers rd k s hs
    exact completesWritten_of_writesValue (htables hpremise).1 rfl rfl
  | tpow5 rd k =>
    obtain ⟨_, _, hfive, _⟩ := tableReadsGivePowers rd k s hs
    exact completesWritten_of_writesValue (hfive hpremise) rfl rfl
  | trmax rd k =>
    obtain ⟨htables, _⟩ := tableReadsGivePowers rd k s hs
    exact completesWritten_of_writesValue (htables hpremise).2 rfl rfl
  | divrem rd rd2 rs1 rs2 m sgn =>
    obtain ⟨hstrict, v, hv, hne⟩ := hpremise
    have he := exec_of_readX2 (i := .divrem rd rd2 rs1 rs2 m sgn) rfl (hread (.head _)) hv
    exact completesWritten_of_quotRem (divremRule_isQuotRem hn (length_of_readX hshape hv) hne sgn) hw he rfl rfl rfl
      (ne_saturating_of_legal hw) hstrict how
  | divrd rd rd2 rs1 rs2 m =>
    obtain ⟨hstrict, v, hv, hne⟩ := hpremise
    have he := exec_of_readX2 (i := .divrd rd rd2 rs1 rs2 m) rfl (hread (.head _)) hv
    rw [← limb_zero_toNat] at hne
    exact completesWritten_of_quotRem ⟨false, _, _, _, if_neg hne, length_zext _ _, length_zext _ _⟩ hw he rfl rfl rfl
      (ne_saturating_of_legal hw) hstrict how
  | divw rd rd2 rs1 rs2 m =>
    obtain ⟨hstrict, v, hv, hne⟩ := hpremise
    obtain ⟨hmode, _⟩ := Bool.and_eq_true_iff.1 hw
    have he := exec_of_readX2 (i := .divw rd rd2 rs1 rs2 m) rfl (hread (.head _)) hv
    rw [← limb_zero_toNat] at hne
    exact completesWritten_of_quotRem (divwRule_isQuotRem hne) hw he rfl rfl rfl
      (ne_saturating_of_legal hmode) hstrict how
  | dmake rd rs1 neg scale =>
    obtain ⟨hmin, hmax⟩ := hpremise
    obtain ⟨_, hmake⟩ := dmakeConstructsDecimal rd rs1 neg scale s _ hs (hread (.head _))
    obtain ⟨t, v, he, hkeeps, hv, _⟩ := hmake hmin hmax
    exact completesWritten_of_keepsAllButD he hkeeps hv rfl rfl
  | dctx rd rs1 rm traps =>
    obtain ⟨u, hu, hwf⟩ := hpremise
    exact completesWritten_dctx hu hwf
  | dround | dtrunc =>
    obtain ⟨u, hu, hquiet⟩ := hpremise
    exact completesWritten_of_operand hw rfl rfl rfl hu hquiet
  | dadd => exact completesWritten_of_operands (result := addResult s.cfg) hw rfl rfl rfl hpremise
  | dsub =>
    exact completesWritten_of_operands (result := fun x y => addResult s.cfg x (negateOperand y)) hw rfl rfl rfl hpremise
  | dmul => exact completesWritten_of_operands (result := mulResult s.cfg) hw rfl rfl rfl hpremise

end Sys2Proof.Machine
end

/-! PROOFS. The statements about the comparator, the adder and the multipliers (`41_compare_add_sub.md`): CMP orders the
readings (R170, R171); ADD, SUB and MUL share one ending, with the flags of R172 and the saturation of R173 to R175; MULW
writes the whole product (R176). -/

section
open Sys2Proof Sys2Proof.Machine

namespace Sys2Proof.Machine

/-! ### The comparison of two readings (R170) -/

theorem compareReadings_natCast (a b : Nat) :
    compareReadings a b = if a < b then .less else if b < a then .greater else .equal := by
  simp only [compareReadings, Nat.cast_lt]

theorem compareReadings_sub_right (a b c : Int) : compareReadings (a - c) (b - c) = compareReadings a b := by
  simp only [compareReadings, sub_lt_sub_iff_right]

theorem compareReadings_of_lt {a b : Int} (h : a < b) : compareReadings a b = .less := if_pos h

theorem compareReadings_of_gt {a b : Int} (h : b < a) : compareReadings a b = .greater := by
  rw [compareReadings, if_neg h.le.not_gt, if_pos h]

/-- Settles O29: the unsigned readings compare as naturals. -/
theorem cmpComparesReadings : Obligations.CmpComparesReadings := by
  intro rs1 rs2 sgn s a b _ ha hb
  rw [exec_of_readX2 (i := .cmp rs1 rs2 sgn) rfl ha hb, runCommand_ok rfl]
  cases sgn with
  | true => rfl
  | false =>
    exact congrArg (fun c => Host.Outcome.next { s with flags := { s.flags with cmp := c } }) (compareReadings_natCast _ _)

/-! ### The comparator's limb procedure (R171) -/

theorem uval_concat (ws : LimbArray) (w : Word) : uval (ws ++ [w]) = uval ws + modulus ws.length * w.toNat := by
  induction ws with
  | nil => simp [uval]
  | cons x xs ih =>
    rw [List.cons_append, uval, uval, ih, List.length_cons, modulus_succ]
    ring

/-- A greater top limb outweighs all the limbs below it. -/
theorem uval_concat_lt {us vs : LimbArray} (h : us.length = vs.length) {u v : Word} (huv : u < v) :
    uval (us ++ [u]) < uval (vs ++ [v]) := by
  have htop : u.toNat + 1 ≤ v.toNat := BitVec.lt_def.1 huv
  calc uval (us ++ [u]) = uval us + modulus us.length * u.toNat := uval_concat us u
    _ < modulus us.length + modulus us.length * u.toNat := Nat.add_lt_add_right (uval_lt us) _
    _ = modulus vs.length * (u.toNat + 1) := by rw [h]; ring
    _ ≤ modulus vs.length * v.toNat := Nat.mul_le_mul_left _ htop
    _ ≤ uval (vs ++ [v]) := uval_concat vs v ▸ Nat.le_add_left _ _

/-- The unsigned comparison from the top limb down, by induction from the top limb. -/
theorem compareFromTop_reverse {a b : LimbArray} (h : a.length = b.length) :
    compareFromTop a.reverse b.reverse = compareReadings (uval a) (uval b) := by
  induction a using List.reverseRecOn generalizing b with
  | nil =>
    obtain rfl : b = [] := List.length_eq_zero_iff.1 h.symm
    rfl
  | append_singleton us u ih =>
    rcases List.eq_nil_or_concat' b with rfl | ⟨vs, v, rfl⟩
    · simp at h
    · have hlen : us.length = vs.length := by simpa using h
      rw [List.reverse_concat, List.reverse_concat, compareFromTop]
      by_cases heq : u = v
      · subst heq
        rw [if_pos rfl, ih hlen, compareReadings_natCast, compareReadings_natCast, uval_concat, uval_concat, hlen]
        simp only [Nat.add_lt_add_iff_right]
      · rw [if_neg heq]
        by_cases hlt : u < v
        · rw [if_pos hlt, compareReadings_of_lt (by exact_mod_cast uval_concat_lt hlen hlt)]
        · have hgt : v < u := by bv_omega
          rw [if_neg hlt, compareReadings_of_gt (by exact_mod_cast uval_concat_lt hlen.symm hgt)]

theorem topBit_eq_testBit {n : Nat} (hn : 1 ≤ n) (a : LimbArray) : topBit n a = (uval a).testBit (width n - 1) := by
  rw [topBit, ← testBit_uval a (n - 1) (by decide), show 64 * (n - 1) + 63 = width n - 1 by simp only [width]; omega]

theorem sval_eq_of_topBit {n : Nat} (hn : 1 ≤ n) (a : LimbArray) :
    sval n a = if topBit n a then (uval a : Int) - modulus n else uval a := by
  rw [topBit_eq_testBit hn, sval]

/-- Settles O56: different signs decide the signed order, and under equal signs it is the order of the patterns. -/
theorem comparatorLimbProcedureAgrees : Obligations.ComparatorLimbProcedureAgrees := by
  intro n sgn a b hn ha hb
  have hmagnitude := compareFromTop_reverse (ha.trans hb.symm)
  have hltA := uval_lt_of_length ha
  have hltB := uval_lt_of_length hb
  cases sgn with
  | false => exact hmagnitude
  | true =>
    simp only [compareLimbs, reading, if_true, sval_eq_of_topBit hn, true_and]
    cases topBit n a <;> cases topBit n b
    case false.false => exact hmagnitude
    case true.true => exact hmagnitude.trans (compareReadings_sub_right _ _ _).symm
    case true.false => exact (compareReadings_of_lt (show (uval a : Int) - modulus n < uval b by omega)).symm
    case false.true => exact (compareReadings_of_gt (show (uval b : Int) - modulus n < uval a by omega)).symm

/-! ### The flags of the adder family (R172) -/

theorem signedOverflow_eq (n : Nat) (ts : Int) :
    signedOverflow n ts = decide (ts < -2 ^ (64 * n - 1) ∨ 2 ^ (64 * n - 1) ≤ ts) := by
  simp only [signedOverflow, minS, maxS, width, Int.sub_one_lt_iff]

theorem unsignedOverflow_natCast (n t : Nat) : unsignedOverflow n t = decide (2 ^ (64 * n) ≤ t) := by
  have hfits : ¬ (t : Int) < 0 := by omega
  simp only [unsignedOverflow, hfits, false_or, Nat.cast_lt, lt_of_maxU_lt, modulus, width]

/-- A difference of two patterns leaves `0..MAXU` by a borrow alone. -/
theorem unsignedOverflow_sub {n u : Nat} (hu : u < modulus n) (v : Nat) :
    unsignedOverflow n ((u : Int) - v) = decide (u < v) := by
  have hmax := maxU_succ n
  exact decide_eq_decide.2 (by omega)

theorem uval_pat_sub {n u v : Nat} (hu : u < modulus n) (hv : v < modulus n) :
    uval (pat n ((u : Int) - v)) = if v ≤ u then u - v else u + 2 ^ (64 * n) - v := by
  have hM : (2 : Nat) ^ (64 * n) = modulus n := rfl
  rw [hM]
  zify
  rw [uval_pat]
  split_ifs with h
  · rw [Int.emod_eq_of_lt (by omega) (by omega)]
    omega
  · rw [← Int.add_emod_right, Int.emod_eq_of_lt (by omega) (by omega)]
    omega

/-! ### Saturation (R173 to R175) -/

@[simp] theorem length_patSigned (n : Nat) (up : Bool) : (patSigned n up).length = n := by
  cases up <;> exact length_pat n _

theorem uval_patSigned {n : Nat} (hn : 1 ≤ n) (up : Bool) :
    uval (patSigned n up) = if up then 2 ^ (64 * n - 1) - 1 else 2 ^ (64 * n - 1) := by
  have htwice : (modulus n : Int) = 2 * 2 ^ (64 * n - 1) := by exact_mod_cast modulus_eq_twice hn
  have hpos : (1 : Int) ≤ 2 ^ (64 * n - 1) := one_le_pow₀ (by decide)
  cases up with
  | true =>
    have hmod : (2 ^ (64 * n - 1) - 1 : Int) % modulus n = 2 ^ (64 * n - 1) - 1 :=
      Int.emod_eq_of_lt (by omega) (by omega)
    zify [Nat.one_le_two_pow (n := 64 * n - 1)]
    exact (uval_pat n _).trans hmod
  | false =>
    have hmod : (-2 ^ (64 * n - 1) : Int) % modulus n = 2 ^ (64 * n - 1) := by
      rw [← Int.add_emod_right, Int.emod_eq_of_lt (by omega) (by omega)]
      omega
    zify
    exact (uval_pat n _).trans hmod

theorem zero_in_signed_range (n : Nat) : minS n < 0 ∧ 0 ≤ maxS n := by
  have hpos : (1 : Int) ≤ 2 ^ (width n - 1) := one_le_pow₀ (by decide)
  constructor <;> simp only [minS, maxS] <;> omega

/-- Beyond the signed range, the results above `MAXS` are the ones that are not negative. -/
theorem maxS_lt_of_signedOverflow {n : Nat} {ts : Int} (h : signedOverflow n ts = true) :
    decide (maxS n < ts) = decide (0 ≤ ts) := by
  have hout : ts < minS n ∨ maxS n < ts := of_decide_eq_true h
  have hzero := zero_in_signed_range n
  exact decide_eq_decide.2 (by omega)

/-- A result beyond the signed range is not zero. -/
theorem pos_of_signedOverflow {n : Nat} {ts : Int} (h : signedOverflow n ts = true) :
    decide (0 < ts) = decide (0 ≤ ts) := by
  have hout : ts < minS n ∨ maxS n < ts := of_decide_eq_true h
  have hzero := zero_in_signed_range n
  exact decide_eq_decide.2 (by omega)

/-! ### The shared ending of ADD, SUB and MUL (R144, R173 to R175) -/

/-- The ending of ADD, SUB and MUL, for a saturated result in the direction `up` or, unsigned, the `bound`. -/
theorem finishesAs_of_finishAdder {i : Instr} {s : State} {mode : Mode} {sgn up cf vf : Bool} {rd : XIdx} {tu ts : Int}
    {bound : LimbArray} {v m : Nat} (hn : 1 ≤ s.cfg.n) (hw : i.wf s.cfg.n = true)
    (he : exec i s =
      runCommand i s (finishAdder rd mode sgn tu ts (if sgn then patSigned s.cfg.n up else bound) s))
    (hcf : unsignedOverflow s.cfg.n tu = cf) (hvf : signedOverflow s.cfg.n ts = vf)
    (hv : uval (pat s.cfg.n tu) = v) (hlen : bound.length = s.cfg.n) (hbound : uval bound = m)
    (hup : signedOverflow s.cfg.n ts = true → up = decide (0 ≤ ts)) :
    finishesAs i s mode (if sgn then vf else cf) { cf := cf, vf := vf, of := if sgn then vf else cf } rd v
      (if sgn then (if 0 ≤ ts then 2 ^ (64 * s.cfg.n - 1) - 1 else 2 ^ (64 * s.cfg.n - 1)) else m) := by
  subst hcf hvf
  refine finishesAs_of_finish hw he (length_pat _ _) hv fun _ hof => ⟨rfl, ?_⟩
  cases sgn with
  | true => exact ⟨length_patSigned _ _, by simp [uval_patSigned hn, hup hof]⟩
  | false => exact ⟨hlen, hbound⟩

/-- Settles O30, by the shared ending; only a borrow takes the difference out of `0..MAXU`. -/
theorem addAndSubComputeExactResults : Obligations.AddAndSubComputeExactResults := by
  intro rd rs1 rs2 mode sgn s a b ⟨⟨hn, _⟩, hshape, _⟩ ha hb
  have hltA := uval_lt_of_length (length_of_readX hshape ha)
  have hltB := uval_lt_of_length (length_of_readX hshape hb)
  have hadd := exec_of_readX2 (i := .add rd rs1 rs2 mode sgn) rfl ha hb
  have hsub := exec_of_readX2 (i := .sub rd rs1 rs2 mode sgn) rfl ha hb
  exact ⟨finishesAs_of_finishAdder hn rfl hadd (unsignedOverflow_natCast _ _) (signedOverflow_eq _ _)
      (uval_pat_natCast _ _) (length_patMaxU _) (uval_patMaxU _) maxS_lt_of_signedOverflow,
    finishesAs_of_finishAdder hn rfl hsub (unsignedOverflow_sub hltA _) (signedOverflow_eq _ _)
      (uval_pat_sub hltA hltB) (length_zext _ _) (uval_zext_lt (modulus_pos _)) maxS_lt_of_signedOverflow⟩

/-- Settles O31, by the shared ending; a product that overflows is not zero, so its sign gives the direction. -/
theorem mulComputesProduct : Obligations.MulComputesProduct := by
  intro rd rs1 rs2 mode sgn s a b ⟨⟨hn, _⟩, _⟩ ha hb
  have hmul := exec_of_readX2 (i := .mul rd rs1 rs2 mode sgn) rfl ha hb
  exact finishesAs_of_finishAdder hn rfl hmul (unsignedOverflow_natCast _ _) (signedOverflow_eq _ _)
    (uval_pat_natCast _ _) (length_patMaxU _) (uval_patMaxU _) pos_of_signedOverflow

/-! ### The widening product (R176) -/

/-- Settles O32: the product of two patterns is below `2^(128N)`, so that its high half fits a register. -/
theorem mulwWritesBothHalves : Obligations.MulwWritesBothHalves := by
  intro rd rd2 rs1 rs2 s a b ⟨_, hshape, _⟩ ha hb
  have hltA := uval_lt_of_length (length_of_readX hshape ha)
  have hltB := uval_lt_of_length (length_of_readX hshape hb)
  have hmulw := exec_of_readX2 (i := .mulw rd rd2 rs1 rs2) rfl ha hb
  have hlow : uval a * uval b % modulus s.cfg.n < modulus s.cfg.n := Nat.mod_lt _ (modulus_pos _)
  have hhigh : uval a * uval b / modulus s.cfg.n < modulus s.cfg.n :=
    Nat.div_lt_of_lt_mul (Nat.mul_lt_mul'' hltA hltB)
  exact finishesAsPair_of_finish (exc := false) (by decide) rfl hmulw (length_zext _ _) (uval_zext_lt hlow)
    (length_zext _ _) (uval_zext_lt hhigh)

end Sys2Proof.Machine
end

/-! PROOFS. The statements of the division file (`42_division.md`): DIVREM, DIVRD and DIVW are exact past their zero test (R200,
R202 to R204) and end in DivZero at it (R201); the engine's two dividers by one limb are exact (R205, R206). -/

section
open Sys2Proof Sys2Proof.Machine

namespace Sys2Proof.Machine

/-! ### Division by zero (R201) -/

/-- A command whose rule is DivZero. -/
theorem divZero_ending {i : Instr} {s : State} {mode : Mode} (hw : i.wf s.cfg.n = true)
    (he : exec i s = runCommand i s (divZero mode s)) :
    (mode = .checked →
      exec i s = .next { s with flags := { cf := false, vf := false, of := false, none := true, cmp := s.flags.cmp } }) ∧
    (mode ≠ .checked → abortsWith i s .intDivByZero) := by
  cases mode with
  | checked => exact ⟨fun _ => he.trans (runCommand_ok hw), fun h => absurd rfl h⟩
  | wrapping | overflowing | saturating | strict =>
    exact ⟨fun h => absurd h (by decide), fun _ => abortsWith_of_error hw he rfl⟩

/-- A pattern that reads 0 as BigUInt reads 0 as BigInt (R12). -/
theorem sval_eq_zero (n : Nat) {b : LimbArray} (h : uval b = 0) : sval n b = 0 := by
  simp [sval, h]

theorem divremRule_zero {rd rd2 : XIdx} {mode : Mode} {a b : LimbArray} {s : State} (hb : uval b = 0) (sgn : Bool) :
    divremRule rd rd2 mode sgn a b s = divZero mode s := by
  cases sgn with
  | true => exact if_pos (sval_eq_zero _ hb)
  | false => exact if_pos hb

/-- Settles O36: each of the three rules is DivZero for its zero divisor, whichever reading or limb that is. -/
theorem divisionByZero : Obligations.DivisionByZero := by
  rintro rd rd2 rs1 rs2 mode sgn s a b i - hmode ha hb (⟨rfl, hzero⟩ | ⟨rfl, hzero⟩ | ⟨rfl, hn, hzero⟩)
  · have he := exec_of_readX2 (i := .divrem rd rd2 rs1 rs2 mode sgn) rfl ha hb
    exact divZero_ending (decide_eq_true hmode) (divremRule_zero hzero sgn ▸ he)
  · have he := exec_of_readX2 (i := .divrd rd rd2 rs1 rs2 mode) rfl ha hb
    rw [← limb_zero_toNat] at hzero
    exact divZero_ending (decide_eq_true hmode) (he.trans (congrArg _ (if_pos hzero)))
  · have he := exec_of_readX2 (i := .divw rd rd2 rs1 rs2 mode) rfl ha hb
    rw [← limb_zero_toNat] at hzero
    exact divZero_ending (Bool.and_eq_true_iff.2 ⟨decide_eq_true hmode, decide_eq_true hn⟩)
      (he.trans (congrArg _ (if_pos hzero)))

/-! ### Unsigned division (R200, R202 to R204) -/

/-- An unsigned division past its zero test ends in Finish with its quotient and remainder (R144, R200). -/
theorem finishesAsPair_of_unsigned {i : Instr} {s : State} {mode : Mode} {exc : Bool} {f : ArithFlags} {rd rd2 : XIdx}
    {v q r : Nat} (hmode : mode ≠ .saturating) (hw : i.wf s.cfg.n = true) (hv : v ≠ 0)
    (he : exec i s = runCommand i s (if v = 0 then divZero mode s
      else finish mode (onOverflow exc) [(rd, zext s.cfg.n q), (rd2, zext s.cfg.n r)] [] f s))
    (hq : q < modulus s.cfg.n) (hr : r < modulus s.cfg.n) : finishesAsPair i s mode exc f rd rd2 q r := by
  rw [if_neg hv] at he
  exact finishesAsPair_of_finish hmode hw he (length_zext _ _) (uval_zext_lt hq) (length_zext _ _) (uval_zext_lt hr)

/-- The equation of R200 has the quotient and the remainder as its one solution. -/
theorem eq_div_and_eq_mod {u v q r : Nat} (heq : u = q * v + r) (hr : r < v) : q = u / v ∧ r = u % v := by
  have hsum : r + v * q = u := by rw [heq, Nat.mul_comm, Nat.add_comm]
  obtain ⟨hquot, hrem⟩ := (Nat.div_mod_unique (Nat.zero_lt_of_lt hr)).2 ⟨hsum, hr⟩
  exact ⟨hquot.symm, hrem.symm⟩

/-- Settles O33: neither result is above the dividend, so that both fit a register. -/
theorem unsignedDivisionIsExact : Obligations.UnsignedDivisionIsExact := by
  rintro rd rd2 rs1 rs2 mode s a b q r ⟨_, hshape, _⟩ hmode ha hb
  have hlt := uval_lt_of_length (length_of_readX hshape ha)
  have hquot (v : Nat) : uval a / v < modulus s.cfg.n := (Nat.div_le_self _ v).trans_lt hlt
  have hrem (v : Nat) : uval a % v < modulus s.cfg.n := (Nat.mod_le _ v).trans_lt hlt
  refine ⟨fun heq hr => ?_, fun heq hr => ?_⟩
  · obtain ⟨rfl, rfl⟩ := eq_div_and_eq_mod heq hr
    have he := exec_of_readX2 (i := .divrem rd rd2 rs1 rs2 mode false) rfl ha hb
    exact finishesAsPair_of_unsigned (exc := false) hmode (decide_eq_true hmode) (Nat.ne_zero_of_lt hr) he
      (hquot _) (hrem _)
  · rw [← limb_zero_toNat] at heq hr
    obtain ⟨rfl, rfl⟩ := eq_div_and_eq_mod heq hr
    have he := exec_of_readX2 (i := .divrd rd rd2 rs1 rs2 mode) rfl ha hb
    exact finishesAsPair_of_unsigned (exc := false) hmode (decide_eq_true hmode) (Nat.ne_zero_of_lt hr) he
      (hquot _) (hrem _)

/-- The two low limbs are the dividend of DIVW (R204). -/
theorem low_limbs_toNat (a : LimbArray) : (limb a 1).toNat * 2 ^ 64 + (limb a 0).toNat = uval a % 2 ^ 128 := by
  rw [limb_zero_toNat, limb_toNat]
  omega

/-- A quotient of two limbs by one needs more than 64 bits exactly when the high limb reaches the divisor (R204). -/
theorem decide_le_high_limb {hi lo v : Nat} (hv : 0 < v) (hlo : lo < 2 ^ 64) :
    decide (v ≤ hi) = decide (2 ^ 64 ≤ (hi * 2 ^ 64 + lo) / v) := by
  rw [decide_eq_decide, Nat.le_div_iff_mul_le hv]
  omega

/-- Settles O35: with two limbs or more, the low 64 bits of the quotient and the remainder fit a register. -/
theorem divwDividesTwoLimbs : Obligations.DivwDividesTwoLimbs := by
  rintro rd rd2 rs1 rs2 mode s a b q r ⟨⟨hn, _⟩, _⟩ hone hmode ha hb heq hr
  have he := exec_of_readX2 (i := .divw rd rd2 rs1 rs2 mode) rfl ha hb
  rw [← limb_zero_toNat] at heq hr
  rw [← low_limbs_toNat] at heq
  obtain ⟨rfl, rfl⟩ := eq_div_and_eq_mod heq hr
  have hfits {x : Nat} (hx : x < 2 ^ 64) : x < modulus s.cfg.n :=
    hx.trans_le (Nat.pow_le_pow_right (by decide) (by simp only [width]; omega))
  rw [← decide_le_high_limb (Nat.zero_lt_of_lt hr) (limb a 0).isLt]
  exact finishesAsPair_of_unsigned hmode (Bool.and_eq_true_iff.2 ⟨decide_eq_true hmode, decide_eq_true hone⟩)
    (Nat.ne_zero_of_lt hr) he (hfits (Nat.mod_lt _ (by decide))) (hfits (hr.trans (limb b 0).isLt))

/-! ### Signed division (R202) -/

/-- A quotient whose remainder is smaller than the divisor and not of the sign against the dividend is the truncated one. -/
theorem eq_tdiv_and_eq_tmod {u v q r : Int} (heq : u = q * v + r) (hr : r.natAbs < v.natAbs) (hsign : 0 ≤ r * u) :
    q = u.tdiv v ∧ r = u.tmod v := by
  have hv : v ≠ 0 := by rintro rfl; simp at hr
  have hsum : r + v * q = u := by rw [heq]; ring
  suffices h : u.tdiv v = q ∧ u.tmod v = r from ⟨h.1.symm, h.2.symm⟩
  rcases lt_trichotomy u 0 with hneg | rfl | hpos
  · have hr0 : r ≤ 0 := nonpos_of_mul_nonneg_left hsign hneg
    exact (Int.tdiv_tmod_unique' hneg.le hv).2 ⟨hsum, by omega, hr0⟩
  · have hdvd : v ∣ r := ⟨-q, by linarith⟩
    obtain rfl : r = 0 := Int.eq_zero_of_dvd_of_natAbs_lt_natAbs hdvd hr
    exact (Int.tdiv_tmod_unique le_rfl hv).2 ⟨hsum, le_rfl, by omega⟩
  · have hr0 : 0 ≤ r := nonneg_of_mul_nonneg_left hsign hpos
    exact (Int.tdiv_tmod_unique hpos.le hv).2 ⟨hsum, hr0, by omega⟩

/-- Settles O34: truncation is what the remainder's sign selects, and Finish writes the patterns of both results. -/
theorem signedDivremTruncates : Obligations.SignedDivremTruncates := by
  rintro rd rd2 rs1 rs2 mode s a b q r - hmode ha hb heq hr hsign
  have hzero : sval s.cfg.n b ≠ 0 := fun h => by simp [h] at hr
  obtain ⟨rfl, rfl⟩ := eq_tdiv_and_eq_tmod heq hr hsign
  have he := exec_of_readX2 (i := .divrem rd rd2 rs1 rs2 mode true) rfl ha hb
  exact finishesAsPair_of_finish hmode (decide_eq_true hmode) (he.trans (congrArg _ (if_neg hzero)))
    (length_pat _ _) (uval_pat_toNat _ _) (length_pat _ _) (uval_pat_toNat _ _)

/-! ### Schoolbook division, one digit after another (R205, R206) -/

/-- Dividing the leading digits `x` first and then the remainder followed by `u` is dividing `x` followed by `u`. -/
theorem div_of_digits (x b u d : Nat) : (x * b + u) / d = x / d * b + (x % d * b + u) / d := by
  rcases Nat.eq_zero_or_pos d with rfl | hd
  · simp
  · have hsplit : x * b + u = d * (x / d * b) + (x % d * b + u) := by
      calc x * b + u = (d * (x / d) + x % d) * b + u := by rw [Nat.div_add_mod]
        _ = _ := by ring
    rw [hsplit, Nat.mul_add_div hd]

theorem mod_of_digits (x b u d : Nat) : (x * b + u) % d = (x % d * b + u) % d :=
  ((Nat.mod_modEq x d).symm.mul_right b).add_right u

/-- A remainder below the divisor, followed by one more digit, gives a quotient of one digit. -/
theorem div_lt_of_remainder_lt {x b u d : Nat} (hx : x < d) (hu : u < b) : (x * b + u) / d < b := by
  have hlt : x * b + u < d * b := by nlinarith
  exact Nat.div_lt_of_lt_mul hlt

/-! ### One quotient digit (R205) -/

section
variable {b d top u : Nat}

/-- A multiple of the divisor by way of the divisor's two halves. -/
theorem mul_eq_of_halves (q d b : Nat) : q * d = q * (d / b) * b + q * (d % b) := by
  rw [Nat.mul_assoc, ← Nat.mul_add, Nat.div_add_mod']

/-- The estimate `q` of the digit is too large exactly when the test of the correction loop says so. -/
theorem estimate_too_large_iff {q rhat : Nat} (htop : top < d) (hu : u < b) (hest : top = q * (d / b) + rhat) :
    (b ≤ q ∨ b * rhat + u < q * (d % b)) ↔ (top * b + u) / d < q := by
  have hdigit : (top * b + u) / d < b := div_lt_of_remainder_lt htop hu
  have htest : b * rhat + u < q * (d % b) ↔ (top * b + u) / d < q := by
    have hdiv : top * b + u = q * (d / b) * b + (b * rhat + u) := by rw [hest]; ring
    rw [Nat.div_lt_iff_lt_mul (by omega), mul_eq_of_halves q d b, hdiv, Nat.add_lt_add_iff_left]
  rw [htest, or_iff_right_of_imp hdigit.trans_le]

/-- Once the estimate's remainder reaches the base, the estimate is not too large: the loop may stop. -/
theorem le_digit_of_base_le {q rhat : Nat} (hd : 0 < d) (hu : u < b) (hest : top = q * (d / b) + rhat) (hr : b ≤ rhat)
    (hq : q ≤ b) : q ≤ (top * b + u) / d := by
  rw [Nat.le_div_iff_mul_le hd]
  calc q * d = q * (d / b) * b + q * (d % b) := mul_eq_of_halves q d b
    _ ≤ q * (d / b) * b + rhat * b := Nat.add_le_add_left (Nat.mul_le_mul (hq.trans hr) (Nat.mod_lt _ (by omega)).le) _
    _ ≤ top * b + u := by rw [hest, Nat.add_mul]; omega

/-- The correction loop finds the digit from any estimate at most `fuel` above it. -/
theorem correctDigit_eq {fuel q rhat : Nat} (htop : top < d) (hu : u < b) (hest : top = q * (d / b) + rhat)
    (hfuel : fuel ≤ 2) (hle : (top * b + u) / d ≤ q) (hnear : q ≤ (top * b + u) / d + fuel) :
    correctDigit b (d / b) (d % b) u fuel q rhat = (top * b + u) / d := by
  have hdigit : (top * b + u) / d < b := div_lt_of_remainder_lt htop hu
  set digit := (top * b + u) / d
  induction fuel generalizing q rhat with
  | zero => exact Nat.le_antisymm hnear hle
  | succ fuel ih =>
    rw [correctDigit]
    by_cases hlarge : digit < q
    · obtain ⟨p, rfl⟩ := Nat.exists_eq_succ_of_ne_zero (Nat.ne_zero_of_lt hlarge)
      have hest' : top = p * (d / b) + (rhat + d / b) := by
        rw [hest, Nat.succ_mul]
        ring
      rw [if_pos ((estimate_too_large_iff htop hu hest).2 hlarge), Nat.succ_sub_one]
      split_ifs with hstop
      · have hge : p ≤ digit := le_digit_of_base_le (Nat.zero_lt_of_lt htop) hu hest' hstop (by omega)
        exact Nat.le_antisymm hge (Nat.le_of_lt_succ hlarge)
      · exact ih hest' (by omega) (Nat.le_of_lt_succ hlarge) (by omega)
    · rw [if_neg (mt (estimate_too_large_iff htop hu hest).1 hlarge)]
      exact Nat.le_antisymm (Nat.le_of_not_lt hlarge) hle

/-- The estimate by the leading half of the divisor is not below the digit. -/
theorem digit_le_estimate (hd : 0 < d / b) (hu : u < b) : (top * b + u) / d ≤ top / (d / b) := by
  have hb : 0 < b := Nat.zero_lt_of_lt hu
  calc (top * b + u) / d ≤ (top * b + u) / (b * (d / b)) :=
        Nat.div_le_div_left (Nat.mul_div_le d b) (Nat.mul_pos hb hd)
    _ = top / (d / b) := by
        rw [← Nat.div_div_eq_div_mul, Nat.mul_comm, Nat.mul_add_div hb, Nat.div_eq_of_lt hu, Nat.add_zero]

/-- Under a normalized divisor the estimate is at most 2 above the digit: the source's "correct by at most 2". -/
theorem estimate_le_digit_add_two (hnorm : b ≤ 2 * (d / b)) (htop : top < d) (hu : u < b) :
    top / (d / b) ≤ (top * b + u) / d + 2 := by
  have hmod : d % b < b := Nat.mod_lt _ (by omega)
  have hsplit : d / b * b + d % b = d := Nat.div_add_mod' d b
  have hmul : top / (d / b) * (d / b) ≤ top := Nat.div_mul_le_self _ _
  rw [← Nat.sub_le_iff_le_add, Nat.le_div_iff_mul_le (by omega)]
  rcases Nat.lt_or_ge (top / (d / b)) 2 with hsmall | hbig
  · rw [Nat.sub_eq_zero_of_le (by omega), Nat.zero_mul]
    exact Nat.zero_le _
  obtain ⟨p, hp⟩ := Nat.exists_eq_add_of_le' hbig
  rw [hp] at hmul ⊢
  have hpb : p ≤ b := by
    by_contra hc
    nlinarith
  calc p * d = p * (d / b) * b + p * (d % b) := mul_eq_of_halves p d b
    _ ≤ p * (d / b) * b + 2 * (d / b) * b := by gcongr; nlinarith
    _ = (p + 2) * (d / b) * b := by ring
    _ ≤ top * b := Nat.mul_le_mul_right _ hmul
    _ ≤ top * b + u := Nat.le_add_right _ _

/-- One quotient digit by a divisor whose leading half is at least half the base (R205). -/
theorem quotientDigit_eq (hnorm : b ≤ 2 * (d / b)) (htop : top < d) (hu : u < b) :
    quotientDigit b (d / b) (d % b) top u = (top * b + u) / d :=
  correctDigit_eq htop hu (Nat.div_add_mod' _ _).symm le_rfl (digit_le_estimate (by omega) hu)
    (estimate_le_digit_add_two hnorm htop hu)

end

/-! ### The 128-by-64 fast divider (R205) -/

/-- The shift sets the top bit of the divisor and loses none. -/
theorem normalized_bounds {v : Nat} (hv : 0 < v) (hlt : v < 2 ^ 64) :
    2 ^ 63 ≤ v * 2 ^ leadingZeros64 v ∧ v * 2 ^ leadingZeros64 v < 2 ^ 64 := by
  have hlog : v.log2 + leadingZeros64 v = 63 := by
    have := (Nat.log2_lt hv.ne').2 hlt
    simp only [leadingZeros64]
    omega
  have hlow := Nat.mul_le_mul_right (2 ^ leadingZeros64 v) (Nat.log2_self_le hv.ne')
  have hhigh := Nat.mul_lt_mul_of_pos_right (Nat.lt_log2_self (n := v)) (Nat.two_pow_pos (leadingZeros64 v))
  rw [← Nat.pow_add] at hlow hhigh
  rw [hlog] at hlow
  rw [Nat.add_right_comm, hlog] at hhigh
  exact ⟨hlow, hhigh⟩

/-- The high limb of the shifted dividend, as R205 joins it from the dividend's limbs. -/
theorem shifted_high {hi lo s : Nat} (hs : s < 64) (hlo : lo < 2 ^ 64)
    (hfit : (hi * 2 ^ 64 + lo) * 2 ^ s / 2 ^ 64 < 2 ^ 64) :
    (if s = 0 then hi else (hi * 2 ^ s ||| lo / 2 ^ (64 - s)) % 2 ^ 64) = (hi * 2 ^ 64 + lo) * 2 ^ s / 2 ^ 64 := by
  split_ifs with hzero
  · subst hzero
    omega
  · have hpow : (2 : Nat) ^ 64 = 2 ^ (64 - s) * 2 ^ s := by rw [← Nat.pow_add, Nat.sub_add_cancel hs.le]
    have hcarry : lo * 2 ^ s / 2 ^ 64 = lo / 2 ^ (64 - s) := by
      rw [hpow, Nat.mul_div_mul_right _ _ (Nat.two_pow_pos s)]
    have hsum : (hi * 2 ^ 64 + lo) * 2 ^ s / 2 ^ 64 = 2 ^ s * hi + lo / 2 ^ (64 - s) := by
      rw [← hcarry, ← Nat.mul_add_div (by decide)]
      ring_nf
    have hlt : lo / 2 ^ (64 - s) < 2 ^ s := Nat.div_lt_of_lt_mul (hpow ▸ hlo)
    rw [Nat.mul_comm, ← Nat.two_pow_add_eq_or_of_lt hlt, ← hsum, Nat.mod_eq_of_lt hfit]

theorem shifted_low (hi lo s : Nat) : lo * 2 ^ s % 2 ^ 64 = (hi * 2 ^ 64 + lo) * 2 ^ s % 2 ^ 64 := by
  rw [Nat.add_mul, Nat.mul_right_comm, Nat.add_comm, Nat.add_mul_mod_self_right]

/-- A remainder below the modulus is what the wrapped subtraction leaves. -/
theorem wrapped_sub_eq_mod {x d : Nat} (hpos : 0 < d) (hd : d ≤ 2 ^ 64) :
    (((x : Nat) - (x / d * d : Nat) : Int) % (2 ^ 64 : Int)).toNat = x % d := by
  have hmod : x % d < d := Nat.mod_lt x hpos
  have hsplit : x / d * d + x % d = x := Nat.div_add_mod' x d
  have hsub : ((x : Nat) - (x / d * d : Nat) : Int) = (x % d : Nat) := by omega
  rw [hsub, Int.emod_eq_of_lt (by omega) (by omega), Int.toNat_natCast]

/-- The shifted dividend's digits join to its leading part and leave its last digit. -/
theorem half_digits (u : Nat) :
    u / 2 ^ 64 * halfBase + u % 2 ^ 64 / halfBase = u / halfBase ∧ u % 2 ^ 64 % halfBase = u % halfBase := by
  simp only [halfBase]
  omega

/-- The divider is two turns of schoolbook division on half limbs. Shifting dividend and divisor alike keeps the
quotient; the remainder comes out shifted (R205). -/
theorem divWide_eq {hi lo v : Nat} (hhi : hi < v) (hv : v < 2 ^ 64) (hlo : lo < 2 ^ 64) :
    divWide hi lo v = ((hi * 2 ^ 64 + lo) / v, (hi * 2 ^ 64 + lo) % v) := by
  obtain ⟨hnormal, hfits⟩ := normalized_bounds (Nat.zero_lt_of_lt hhi) hv
  have hshift : 0 < 2 ^ leadingZeros64 v := Nat.two_pow_pos _
  have hsmall : leadingZeros64 v < 64 := by simp only [leadingZeros64]; omega
  have hquot : (hi * 2 ^ 64 + lo) / v = (hi * 2 ^ 64 + lo) * 2 ^ leadingZeros64 v / (v * 2 ^ leadingZeros64 v) :=
    (Nat.mul_div_mul_right _ _ hshift).symm
  have hrem : (hi * 2 ^ 64 + lo) % v =
      (hi * 2 ^ 64 + lo) * 2 ^ leadingZeros64 v % (v * 2 ^ leadingZeros64 v) / 2 ^ leadingZeros64 v := by
    rw [Nat.mul_mod_mul_right, Nat.mul_div_cancel _ hshift]
  have htop : (hi * 2 ^ 64 + lo) * 2 ^ leadingZeros64 v / 2 ^ 64 < v * 2 ^ leadingZeros64 v := by
    have hlt : hi * 2 ^ 64 + lo < 2 ^ 64 * v := by omega
    apply Nat.div_lt_of_lt_mul
    rw [← Nat.mul_assoc]
    exact Nat.mul_lt_mul_of_pos_right hlt hshift
  simp only [divWide]
  rw [shifted_high hsmall hlo (htop.trans hfits), shifted_low hi lo, hquot, hrem]
  generalize (hi * 2 ^ 64 + lo) * 2 ^ leadingZeros64 v = u at htop ⊢
  generalize v * 2 ^ leadingZeros64 v = d at hnormal hfits htop ⊢
  obtain ⟨hjoin, hlast⟩ := half_digits u
  have hpos : 0 < d := Nat.zero_lt_of_lt htop
  have hhalf : halfBase ≤ 2 * (d / halfBase) := by simp only [halfBase]; omega
  have hfirst : quotientDigit halfBase (d / halfBase) (d % halfBase) (u / 2 ^ 64) (u % 2 ^ 64 / halfBase) =
      u / halfBase / d := by
    rw [quotientDigit_eq hhalf htop (by simp only [halfBase]; omega), hjoin]
  have hsecond := quotientDigit_eq hhalf (Nat.mod_lt (u / halfBase) hpos) (Nat.mod_lt u (by decide : 0 < halfBase))
  rw [hfirst, hjoin, hlast, wrapped_sub_eq_mod hpos hfits.le, hsecond, wrapped_sub_eq_mod hpos hfits.le,
    ← div_of_digits, ← mod_of_digits, Nat.div_add_mod']

/-! ### Division by one limb (R206) -/

/-- The loop divides the remainder so far followed by the limbs that are left; its precondition `r < v` holds at every limb. -/
theorem divDigitFromTop_eq {v : Nat} (hv : v < 2 ^ 64) (us : LimbArray) {r : Nat} (hr : r < v) :
    (divDigitFromTop v us r).1.length = us.length ∧
      uval (divDigitFromTop v us r).1.reverse = (r * modulus us.length + uval us.reverse) / v ∧
      (divDigitFromTop v us r).2 = (r * modulus us.length + uval us.reverse) % v := by
  induction us generalizing r with
  | nil => simp [divDigitFromTop, uval, Nat.div_eq_of_lt hr, Nat.mod_eq_of_lt hr]
  | cons u us ih =>
    have hdigit : (r * 2 ^ 64 + u.toNat) / v < 2 ^ 64 := div_lt_of_remainder_lt hr u.isLt
    have hvalue : r * modulus (us.length + 1) + uval (us.reverse ++ [u]) =
        (r * 2 ^ 64 + u.toNat) * modulus us.length + uval us.reverse := by
      rw [uval_concat, List.length_reverse, modulus_succ]
      ring
    obtain ⟨hlen, hquot, hrem⟩ := ih (Nat.mod_lt (r * 2 ^ 64 + u.toNat) (Nat.zero_lt_of_lt hr))
    simp only [divDigitFromTop, divWide_eq hr hv u.isLt, List.length_cons, List.reverse_cons, hvalue]
    refine ⟨by rw [hlen], ?_, ?_⟩
    · rw [uval_concat, List.length_reverse, hlen, hquot, BitVec.toNat_ofNat, Nat.mod_eq_of_lt hdigit,
        div_of_digits (r * 2 ^ 64 + u.toNat)]
      ring
    · rw [hrem, ← mod_of_digits]

/-- Settles O57: the loop of R206 starts at remainder 0. -/
theorem engineDividersAreExact : Obligations.EngineDividersAreExact := by
  refine ⟨fun hi lo v hhi hv hlo => divWide_eq hhi hv hlo, fun u v hpos hv => ?_⟩
  obtain ⟨hlen, hquot, hrem⟩ := divDigitFromTop_eq hv u.reverse hpos
  rw [Nat.zero_mul, Nat.zero_add, List.reverse_reverse] at hquot hrem
  exact ⟨by rw [divDigit, List.length_reverse, hlen, List.length_reverse], hquot, hrem⟩

end Sys2Proof.Machine
end

/-! PROOFS. The statements of the table file (`43_power_tables.md`): the digit count, by division and from the table of powers
(R234, R236), the reduced-maximum test (R233), and rescaling by a power of ten of any amount (R237, R238). -/

section
open Sys2Proof Sys2Proof.Machine

namespace Sys2Proof.Machine

/-! ### The digit count (R234) -/

/-- The digit count is the least positive number of digits that holds the value. -/
theorem dc_le_iff {m d : Nat} (hd : 1 ≤ d) : dc m ≤ d ↔ m < 10 ^ d := by
  constructor <;> intro h
  · exact (lt_pow_dc m).trans_le (Nat.pow_le_pow_right (by decide) h)
  · rcases Nat.eq_zero_or_pos m with rfl | hm
    · exact hd
    · have hpow : 10 ^ (dc m - 1) < 10 ^ d := (pow_dc_le hm.ne').trans_lt h
      have := (Nat.pow_lt_pow_iff_right (by decide : 1 < 10)).1 hpow
      omega

/-- The digit count of a value of N limbs fits in N limbs. -/
theorem dc_lt_modulus {n m : Nat} (hn : 1 ≤ n) (hm : m < modulus n) : dc m < modulus n := by
  have hpow : m < 10 ^ maxU n :=
    calc m ≤ maxU n := (le_maxU_iff n m).2 hm
      _ < 10 ^ maxU n := Nat.lt_pow_self (by decide)
  exact (le_maxU_iff n _).1 ((dc_le_iff (one_le_maxU hn)).2 hpow)

/-- Settles O38: the least count is the one that DIGITS computes. -/
theorem digitsCountsDecimalDigits : Obligations.DigitsCountsDecimalDigits := by
  rintro rd rs1 s a d ⟨⟨hn, _⟩, hshape, _⟩ ha hd hholds hleast
  have hcount : dc (uval a) = d :=
    Nat.le_antisymm ((dc_le_iff hd).2 hholds) (hleast _ (one_le_dc _) (lt_pow_dc _))
  have hfits : dc (uval a) < modulus s.cfg.n := dc_lt_modulus hn (uval_lt_of_length (length_of_readX hshape ha))
  exact writesValue_of_ok rfl (exec_of_readX rfl ha) rfl (length_zext _ _) ((uval_zext_lt hfits).trans hcount)

/-! ### The tables at work (R233, R234) -/

/-- Of the first `k` numbers, `min k j` are below `j`. -/
theorem length_filter_range_lt (k j : Nat) : ((List.range k).filter fun i => decide (i < j)).length = min k j := by
  rw [← List.Ico.zero_bot, List.Ico.filter_lt, List.Ico.length, Nat.sub_zero]

/-- The powers of the table that do not exceed a value are one fewer than its digits. -/
theorem dcByTable_eq_dc {n m : Nat} (hm : m ≤ maxU n) : dcByTable n m = dc m := by
  have hentry (i : Nat) : rom10 (i + 1) ≤ m ↔ i < dc m - 1 := by
    have hcount := dc_le_iff (m := m) (Nat.le_add_left 1 i)
    simp only [rom10]
    omega
  have hone : 1 ≤ dc m := one_le_dc m
  have hmax : dc m ≤ k10 n + 1 := dc_le_maxCLength ((le_maxU_iff n m).1 hm)
  simp only [dcByTable, hentry, length_filter_range_lt]
  omega

/-- Settles O40. -/
theorem tablesTestAndCountDigits : Obligations.TablesTestAndCountDigits := by
  intro n
  refine ⟨fun x k _ _ => Nat.le_div_iff_mul_le (pow10_pos k), fun m hm => ⟨dcByTable_eq_dc hm, ?_⟩, rfl,
    fun m hm => ⟨lt_pow_dc m, pow_dc_le hm⟩⟩
  exact dc_le_maxCLength ((le_maxU_iff n m).1 hm)

/-! ### Rescaling by a power of ten (R237, R238) -/

/-- Settles O39: the cut of the amount changes no result (`powerFor_eq`). -/
theorem rescalingByPowersOfTen : Obligations.RescalingByPowersOfTen := by
  rintro rd rd2 rs1 rs2 mode s a b ⟨_, hshape, _⟩ ha hb exc
  have hlt : uval a < modulus s.cfg.n := uval_lt_of_length (length_of_readX hshape ha)
  obtain ⟨hoverflow, hproduct, hquotient, hremainder⟩ := powerFor_eq s.cfg.n (uval b) (uval a) hlt
  have hexc : decide (maxU s.cfg.n < uval a * powerFor s.cfg.n (uval b)) = exc :=
    decide_eq_decide.2 ((lt_of_maxU_lt _ _).trans hoverflow.symm)
  have hmul := exec_of_readX2 (i := .mulp10 rd rs1 rs2 mode) rfl ha hb
  have hdiv := exec_of_readX2 (i := .divp10 rd rd2 rs1 rs2) rfl ha hb
  simp only [hexc] at hmul
  simp only [← hquotient, ← hremainder] at hdiv
  constructor
  · exact finishesAs_of_finish rfl hmul (length_pat _ _) ((uval_pat_natCast _ _).trans hproduct.symm)
      fun _ _ => ⟨rfl, length_patMaxU _, uval_patMaxU _⟩
  · exact finishesAsPair_of_finish (exc := false) (by decide) rfl hdiv
      (length_zext _ _) (uval_zext_lt ((Nat.div_le_self _ _).trans_lt hlt))
      (length_zext _ _) (uval_zext_lt ((Nat.mod_le _ _).trans_lt hlt))

end Sys2Proof.Machine
end

/-! PROOFS. The normalizer file's statements (`44_decimal_normalizer.md`) about rounding and the normalizer: what each rounding mode
means (R262), the shift count (R266, R267), the four stages with their signals (R268, R269), and the range of a result (R270). -/

section
open Sys2Proof Sys2Proof.Machine

namespace Sys2Proof.Machine

/-! ### The rounding modes (R262) -/

section
variable (m k : Nat) (neg : Bool)

/-- One equation for every `k`: with no digit to drop there is no remainder, so that no mode increments. -/
theorem roundDiv_eq (rm : RoundMode) :
    roundDiv m k neg rm = m / 10 ^ k + if roundUp rm neg (10 ^ k) (m / 10 ^ k) (m % 10 ^ k) then 1 else 0 := by
  by_cases hk : k = 0
  · simp [hk, Nat.mod_one, roundUp_exact]
  · rw [roundDiv, if_neg hk]

/-- The rounded value misses the magnitude by the remainder: below it, or above it by what the remainder lacks. -/
theorem roundDiv_mul_pow_add_mod (rm : RoundMode) :
    roundDiv m k neg rm * 10 ^ k + m % 10 ^ k =
      m + if roundUp rm neg (10 ^ k) (m / 10 ^ k) (m % 10 ^ k) then 10 ^ k else 0 := by
  have hdiv := Nat.div_add_mod' m (10 ^ k)
  rw [roundDiv_eq, Nat.add_mul, ite_mul, Nat.one_mul, Nat.zero_mul]
  omega

theorem roundDiv_up_bounds :
    m ≤ roundDiv m k neg .up * 10 ^ k ∧ roundDiv m k neg .up * 10 ^ k < m + 10 ^ k := by
  have hrem := Nat.mod_lt m (pow10_pos k)
  have hround := roundDiv_mul_pow_add_mod m k neg .up
  simp only [roundUp, decide_eq_true_eq] at hround
  split_ifs at hround <;> omega

theorem roundDiv_down : roundDiv m k neg .down = m / 10 ^ k := by simp [roundDiv_eq, roundUp]

theorem roundDiv_down_bounds :
    roundDiv m k neg .down * 10 ^ k ≤ m ∧ m < (roundDiv m k neg .down + 1) * 10 ^ k := by
  rw [roundDiv_down]
  exact ⟨Nat.div_mul_le_self m _, (Nat.div_lt_iff_lt_mul (pow10_pos k)).1 (Nat.lt_succ_self _)⟩

theorem roundDiv_ceiling :
    roundDiv m k neg .ceiling = if neg then roundDiv m k neg .down else roundDiv m k neg .up := by
  cases neg <;> simp [roundDiv_eq, roundUp]

theorem roundDiv_floor :
    roundDiv m k neg .floor = if neg then roundDiv m k neg .up else roundDiv m k neg .down := by
  cases neg <;> simp [roundDiv_eq, roundUp]

theorem roundDiv_halfUp_bounds :
    2 * roundDiv m k neg .halfUp * 10 ^ k ≤ 2 * m + 10 ^ k ∧ 2 * m < 2 * roundDiv m k neg .halfUp * 10 ^ k + 10 ^ k := by
  have hrem := Nat.mod_lt m (pow10_pos k)
  have hround := roundDiv_mul_pow_add_mod m k neg .halfUp
  simp only [roundUp, decide_eq_true_eq] at hround
  rw [Nat.mul_assoc]
  split_ifs at hround <;> omega

theorem roundDiv_halfDown_bounds :
    2 * roundDiv m k neg .halfDown * 10 ^ k < 2 * m + 10 ^ k ∧
      2 * m ≤ 2 * roundDiv m k neg .halfDown * 10 ^ k + 10 ^ k := by
  have hrem := Nat.mod_lt m (pow10_pos k)
  have hround := roundDiv_mul_pow_add_mod m k neg .halfDown
  simp only [roundUp, decide_eq_true_eq] at hround
  rw [Nat.mul_assoc]
  split_ifs at hround <;> omega

/-- A tie goes to the even one of the quotient and its successor. -/
theorem roundDiv_halfEven_bounds :
    2 * roundDiv m k neg .halfEven * 10 ^ k ≤ 2 * m + 10 ^ k ∧
      2 * m ≤ 2 * roundDiv m k neg .halfEven * 10 ^ k + 10 ^ k ∧
      (2 * roundDiv m k neg .halfEven * 10 ^ k = 2 * m + 10 ^ k ∨
        2 * m = 2 * roundDiv m k neg .halfEven * 10 ^ k + 10 ^ k → roundDiv m k neg .halfEven % 2 = 0) := by
  have hrem := Nat.mod_lt m (pow10_pos k)
  have hround := roundDiv_mul_pow_add_mod m k neg .halfEven
  have hvalue := roundDiv_eq m k neg .halfEven
  simp only [roundUp, Bool.or_eq_true, Bool.and_eq_true, decide_eq_true_eq] at hround hvalue
  rw [Nat.mul_assoc]
  split_ifs at hround hvalue <;> omega

end

/-- Settles O41: every mode is the quotient or its successor, as the remainder decides. -/
theorem roundDivMeansItsMode : Obligations.RoundDivMeansItsMode := by
  intro m k neg p v
  refine ⟨roundDiv_up_bounds m k neg, roundDiv_down_bounds m k neg, roundDiv_ceiling m k neg, roundDiv_floor m k neg,
    roundDiv_halfUp_bounds m k neg, roundDiv_halfDown_bounds m k neg, roundDiv_halfEven_bounds m k neg, ?_, fun rm h => ?_⟩
  · simp [v, roundDiv_eq, roundUp]
  · exact (roundDiv_mul_pow_eq_iff m k neg rm).2 h

/-! ### The shift count (R266, R267) -/

section
variable {lim m k kreq : Nat} {neg : Bool} {rm : RoundMode}

/-- The fuel of the search suffices for any bound: `dc(M)` digits more than asked for leave 0 or 1. -/
theorem roundDiv_fitCount_le (hl : 1 ≤ lim) : roundDiv m (fitCount lim m neg rm kreq) neg rm ≤ lim := by
  obtain ⟨_, _, _, hfit | hspent⟩ := leastFit_spec lim m neg rm (dc m) kreq
  · exact hfit
  · have hdigits : m < 10 ^ (kreq + dc m) :=
      (lt_pow_dc m).trans_le (Nat.pow_le_pow_right (by decide) (Nat.le_add_left _ _))
    rw [fitCount, hspent]
    exact (roundDiv_le_one neg rm hdigits).trans hl

/-- The shift count is the only least one that fits. -/
theorem fitCount_eq_of_least (hl : 1 ≤ lim) (hreq : kreq ≤ k) (hfit : roundDiv m k neg rm ≤ lim)
    (hleast : ∀ j, kreq ≤ j → j < k → lim < roundDiv m j neg rm) : fitCount lim m neg rm kreq = k := by
  obtain ⟨hge, _, hbefore, _⟩ := leastFit_spec lim m neg rm (dc m) kreq
  have hcount : roundDiv m (fitCount lim m neg rm kreq) neg rm ≤ lim := roundDiv_fitCount_le hl
  refine Nat.le_antisymm (Nat.le_of_not_lt fun hlt => ?_) (Nat.le_of_not_lt fun hlt => ?_)
  · exact absurd (hbefore k hreq hlt) (Nat.not_lt.2 hfit)
  · exact absurd (hleast _ hge hlt) (Nat.not_lt.2 hcount)

/-- Cutting is rounding down. -/
theorem leastCut_eq_leastFit (lim m : Nat) (neg : Bool) (fuel k : Nat) :
    leastCut lim m fuel k = leastFit lim m neg .down fuel k := by
  induction fuel generalizing k with
  | zero => rfl
  | succ fuel ih => simp only [leastCut, leastFit, roundDiv_down, ih]

/-- Rounding carries out of the last digit at most once: with one more digit dropped there is room again. -/
theorem fitCount_of_leastCut (hl : 1 ≤ lim) (hreq : kreq ≤ k) (hcut : m / 10 ^ k ≤ lim)
    (hleast : ∀ j, kreq ≤ j → j < k → lim < m / 10 ^ j) :
    fitCount lim m neg rm kreq = if roundDiv m k neg rm = lim + 1 then k + 1 else k := by
  have hbefore (j : Nat) (hj : kreq ≤ j) (hlt : j < k) : lim < roundDiv m j neg rm :=
    (hleast j hj hlt).trans_le (roundDiv_bounds m j neg rm).1
  have hround := (roundDiv_bounds m k neg rm).2
  split_ifs with hcarry
  · refine fitCount_eq_of_least hl (hreq.trans k.le_succ) ?_ fun j hj hlt => ?_
    · have hnext := (roundDiv_bounds m (k + 1) neg rm).2
      rw [Nat.pow_succ, ← Nat.div_div_eq_div_mul] at hnext
      omega
    · rcases Nat.lt_succ_iff_lt_or_eq.1 hlt with hlt | rfl
      · exact hbefore j hj hlt
      · omega
  · exact fitCount_eq_of_least hl hreq (by omega) hbefore

end

/-- Settles O45. -/
theorem shiftCountFromLeastCut : Obligations.ShiftCountFromLeastCut := by
  intro n m ka kreq neg rm hn hreq hcut hleast
  have hl : 1 ≤ maxU n := one_le_maxU hn
  have hcount := fitCount_of_leastCut (neg := neg) (rm := rm) hl hreq hcut hleast
  have hfound : leastCut (maxU n) m (dc m) kreq = ka := by
    rw [leastCut_eq_leastFit _ _ neg]
    exact fitCount_eq_of_least hl hreq (by rwa [roundDiv_down]) (by simpa only [roundDiv_down] using hleast)
  refine ⟨hcount, ?_⟩
  rw [hcount, fitCountByCut, hfound]

/-! ### The range stage (R269) -/

/-- The clamp of a high exponent does not fit. -/
def rangeOverflows (p : Params) (c : Nat) (e : Int) : Prop :=
  p.eMax < e ∧ maxU p.n < c * 10 ^ (e - p.eMax).toNat

section
variable (p : Params) (c : Nat) (neg : Bool) (e : Int) (new : SignalSet)

theorem rangeStage_neg : (rangeStage p c neg e new).neg = neg := by
  simp only [rangeStage]
  split_ifs <;> rfl

theorem rangeStage_of_overflow (h : rangeOverflows p c e) :
    rangeStage p c neg e new =
      { kind := .inf, coef := 0, neg := neg, exp := 0,
        new := new ||| single .overflow ||| single .inexact ||| single .rounded } := by
  obtain ⟨hhigh, hover⟩ := h
  simp only [rangeStage, if_neg (not_le.2 hhigh), if_neg (not_le.2 hover)]

/-- Where nothing overflows, an exponent in range appends no zeros, so that one form of the coefficient covers the clamp and it. -/
theorem rangeStage_of_fit (h : ¬ rangeOverflows p c e) :
    rangeStage p c neg e new =
      { kind := .finite, coef := c * 10 ^ (e - p.eMax).toNat, neg := neg, exp := min e p.eMax,
        new := if p.eMax < e then new ||| single .clamped ||| single .rounded else new } := by
  by_cases hhigh : p.eMax < e
  · have hfits : c * 10 ^ (e - p.eMax).toNat ≤ maxU p.n := not_lt.1 fun hover => h ⟨hhigh, hover⟩
    simp only [rangeStage, if_neg (not_le.2 hhigh), if_pos hfits, if_pos hhigh, min_eq_right hhigh.le]
  · have hle : e ≤ p.eMax := not_lt.1 hhigh
    simp [rangeStage, hle, hhigh, Int.toNat_of_nonpos (sub_nonpos.2 hle)]

/-- Which signals the range stage adds. -/
theorem rangeStage_has_iff (g : Signal) :
    (rangeStage p c neg e new).new.has g = true ↔
      new.has g = true ∨ (g = .rounded ∧ p.eMax < e) ∨ (g = .clamped ∧ p.eMax < e ∧ ¬ rangeOverflows p c e) ∨
        ((g = .overflow ∨ g = .inexact) ∧ rangeOverflows p c e) := by
  by_cases hover : rangeOverflows p c e
  · have hhigh : p.eMax < e := hover.1
    rw [rangeStage_of_overflow p c neg e new hover]
    cases g <;> simp [has_or, hover, hhigh]
  · rw [rangeStage_of_fit p c neg e new hover]
    by_cases hhigh : p.eMax < e <;> cases g <;> simp [has_or, hover, hhigh]

theorem not_rangeOverflows_zero : ¬ rangeOverflows p 0 e := by simp [rangeOverflows]

end

/-! ### The normalizer's stages (R266, R268, R269) -/

/-- Settles O42: stages 1 and 2 raise their own signals, and the range stage adds its. -/
theorem normalizerStages : Obligations.NormalizerStages := by
  intro p m neg e rm kreq hp
  constructor
  · intro hm
    obtain ⟨hreq, hfit, hleast⟩ := fitCount_spec p m neg rm kreq hp
    refine ⟨_, max (fitCount (maxU p.n) m neg rm kreq) (p.eMin - e).toNat, hreq, hfit, hleast, by omega, ?_⟩
    simp only [normOf, if_neg hm, normNonzero]
    generalize max (fitCount (maxU p.n) m neg rm kreq) (p.eMin - e).toNat = k
    refine ⟨?_, rangeStage_neg _ _ _ _ _, ?_⟩
    · split_ifs with hover
      · rw [rangeStage_of_overflow _ _ _ _ _ hover]
        exact ⟨rfl, rfl, rfl⟩
      · rw [rangeStage_of_fit _ _ _ _ _ hover]
        exact ⟨rfl, rfl, rfl⟩
    · simp [← Bool.not_eq_true, rangeStage_has_iff, has_or, rangeOverflows]
  · obtain ⟨_, _, _, hmin, hmax, _⟩ := hp
    have hhigh : p.eMax < max (e + kreq) p.eMin ↔ p.eMax < e + kreq := by omega
    have hfit := not_rangeOverflows_zero p (max (e + kreq) p.eMin)
    have hsignals := rangeStage_has_iff p 0 neg (max (e + kreq) p.eMin)
      (raiseIf (decide (0 < kreq)) .rounded ||| raiseIf (decide (e + kreq < p.eMin)) .clamped)
    simp only [hhigh, hfit, has_or, has_raiseIf] at hsignals
    simp only [normOf, if_true, normZero]
    refine ⟨?_, ?_, rangeStage_neg _ _ _ _ _, ?_, ?_, ?_, fun g hrounded hclamped => ?_⟩
    · rw [rangeStage_of_fit _ _ _ _ _ hfit]
    · rw [rangeStage_of_fit _ _ _ _ _ hfit, Nat.zero_mul]
    · rw [rangeStage_of_fit _ _ _ _ _ hfit]
    · simp [hsignals]
    · simp [hsignals]
    · simp [← Bool.not_eq_true, hsignals, hrounded, hclamped, hrounded.symm, hclamped.symm]

/-- Settles O43. -/
theorem normalizerResultInRange : Obligations.NormalizerResultInRange := by
  intro p m neg e rm kreq hp r hfinite
  obtain ⟨hcoef, hmin, hmax⟩ := normOf_inRange hp m neg e rm kreq hfinite
  exact ⟨hcoef, hmin, hmax, sval16_pat16_neg hp hmin hmax⟩

end Sys2Proof.Machine
end

/-! PROOFS. The normalizer file's statements (`44_decimal_normalizer.md`) about decimal registers: the moves of raw bits (R291, R295
to R297), DROUND and DTRUNC (R298, R299), and a NaN operand (R274, R276). -/

section
open Sys2Proof Sys2Proof.Machine

namespace Sys2Proof.Machine

/-! ### A rule after its decimal reads (R260, R340) -/

section
variable {i : Instr} {s : State} {r q : DIdx} {u w : DecWord} {a b : DecOperand}

theorem exec_of_readD {f : DecWord → Except Stop State} (he : exec i s = runCommand i s (s.readD r >>= f))
    (hw : s.readD r = .ok w) : exec i s = runCommand i s (f w) := by
  rw [he, hw]
  rfl

theorem exec_of_readDec {f : DecWord → DecOperand → Except Stop State}
    (he : exec i s = runCommand i s (s.readD r >>= fun w => readDec w >>= f w))
    (hw : s.readD r = .ok w) (ha : readDec w = .ok a) : exec i s = runCommand i s (f w a) := by
  rw [exec_of_readD he hw, ha]
  rfl

theorem exec_of_readDec2 {f : DecOperand × DecOperand → Except Stop State}
    (he : exec i s = runCommand i s (readDec2 s r q >>= f)) (hu : s.readD r = .ok u) (hw : s.readD q = .ok w)
    (ha : readDec u = .ok a) (hb : readDec w = .ok b) : exec i s = runCommand i s (f (a, b)) := by
  have hread : readDec2 s r q = .ok (a, b) := by simp only [readDec2, hu, hw, ha, hb, bind, Except.bind]
  rw [he, hread]
  rfl

end

theorem keepsAllButD_writeD (s : State) (r : DIdx) (v : DecWord) : (s.writeD r v).keepsAllButD s r :=
  ⟨fun _ hq => dSlots_writeD_ne s v hq, rfl, rfl, rfl, rfl, rfl, rfl, rfl, rfl⟩

/-! ### Moves and the context (R291, R295 to R297) -/

/-- Settles O47: only DCTX checks the control block, so that it alone needs it well-formed. -/
theorem decimalRegisterMoves : Obligations.DecimalRegisterMoves := by
  rintro rd rs1 rm traps s w ⟨⟨hn, _⟩, hshape, _⟩ hw
  refine ⟨?dmov, ?dcoef, ?dcb, fun hwf => ?dctx⟩
  case dmov =>
    exact ⟨_, (exec_of_readD (i := .dmov rd rs1) rfl hw).trans (runCommand_ok rfl), keepsAllButD_writeD s rd w,
      readD_writeD_self s rd w⟩
  case dcoef =>
    exact writesValue_of_ok rfl (exec_of_readD (i := .dcoef rd rs1) rfl hw) rfl (length_of_readD hshape hw) rfl
  case dcb =>
    exact writesValue_of_ok rfl (exec_of_readD (i := .dcb rd rs1) rfl hw) rfl (length_zext _ _)
      (uval_zext_lt (toNat_lt_modulus hn le_rfl w.cb))
  case dctx =>
    obtain ⟨a, ha, _⟩ := readDec_of_wellFormed hwf
    have he := exec_of_readDec (i := .dctx rd rs1 rm traps) rfl hw ha
    exact ⟨_, _, he.trans (runCommand_ok rfl), keepsAllButD_writeD _ _ _, readD_writeD_self _ _ _, rfl, by simp⟩

/-! ### Rounding and cutting to a scale (R298, R299) -/

/-- A command that ends with an Infinity, which needs no room in its register (R274). -/
theorem finishesDecimal_of_infResult {i : Instr} {s : State} {rd : DIdx} {neg : Bool} {inh : SignalSet} {ctx : Context}
    (hw : i.wf s.cfg.n = true) (he : exec i s = runCommand i s (finishDecimal rd (infResult neg) inh ctx s)) :
    finishesDecimal i s rd (infResult neg) inh ctx :=
  finishesDecimal_of_finish hw he nofun

/-- Settles O48. -/
theorem droundAndDtruncReachScale : Obligations.DroundAndDtruncReachScale := by
  rintro rd rs1 t s w v k ⟨hp, _⟩ hw hv hk
  obtain rfl : k = dropCount v.exp (sval16 t) := by simp only [dropCount, sval16]; omega
  have hround := exec_of_readDec (i := .dround rd rs1 t) rfl hw hv
  have htrunc := exec_of_readDec (i := .dtrunc rd rs1 t) rfl hw hv
  constructor <;> intro hkind <;> simp only [roundResult, truncResult, hkind] at hround htrunc
  · exact ⟨finishesDecimal_of_normOf hp rfl hround, finishesDecimal_of_normOf hp rfl htrunc⟩
  · exact ⟨finishesDecimal_of_infResult rfl hround, finishesDecimal_of_infResult rfl htrunc⟩

/-! ### NaN (R274, R276) -/

/-- The command completes with the canonical NaN of R274, which carries the signals `inh` and the context `ctx`. -/
def writesNan (i : Instr) (s : State) (rd : DIdx) (inh : SignalSet) (ctx : Context) : Prop :=
  ∃ t v, exec i s = .next t ∧ t.keepsAllButD s rd ∧ t.readD rd = .ok v ∧ uval v.coef = 0 ∧ cbScale v.cb = 0 ∧
    cbSign v.cb = false ∧ cbSpecial v.cb = 1 ∧ cbSignals v.cb = inh ∧ cbContext v.cb = ctx ∧ cbReserved v.cb = 0

/-- A NaN result that raises nothing passes the Strict check and the trap check whatever the context (R271, R272). -/
theorem writesNan_of_nanResult {i : Instr} {s : State} {rd : DIdx} {inh : SignalSet} {ctx : Context}
    (hw : i.wf s.cfg.n = true) (he : exec i s = runCommand i s (finishDecimal rd (nanResult 0) inh ctx s)) :
    writesNan i s rd inh ctx := by
  have hquiet := finishDecimal_of_quiet (rd := rd) (r := nanResult 0) (inh := inh) (ctx := ctx) (s := s)
    (by simp [nanResult]) (by simp [nanResult])
  refine ⟨_, _, (hquiet ▸ he).trans (runCommand_ok hw), keepsAllButD_writeD _ _ _, readD_writeD_self _ _ _, ?_⟩
  simp [resultWord, nanResult, uval_zext, Kind.code]

section
variable {p : Params} {a b : DecOperand}

theorem addResult_nan (h : a.kind = .nan ∨ b.kind = .nan) : addResult p a b = nanResult 0 := by
  cases ha : a.kind <;> simp_all [addResult]

theorem mulResult_nan (h : a.kind = .nan ∨ b.kind = .nan) : mulResult p a b = nanResult 0 := by
  cases ha : a.kind <;> simp_all [mulResult]

/-- DSUB's flip keeps the kind of its second operand (R314). -/
theorem negateOperand_kind (b : DecOperand) : (negateOperand b).kind = b.kind := by
  simp only [negateOperand]
  split_ifs <;> rfl

end

/-- Settles O53: each of the five rules gives the NaN that raises nothing. -/
theorem nanIsAbsorbing : Obligations.NanIsAbsorbing := by
  rintro rd rs1 rs2 t16 s u w a b i _ hu hw ha hb (⟨hnan, rfl, hi⟩ | ⟨hnan, hi⟩)
  · rw [BitVec.or_self]
    rcases hi with rfl | rfl
    · have he := exec_of_readDec (i := .dround rd rs1 t16) rfl hu ha
      simp only [roundResult, hnan] at he
      exact writesNan_of_nanResult rfl he
    · have he := exec_of_readDec (i := .dtrunc rd rs1 t16) rfl hu ha
      simp only [truncResult, hnan] at he
      exact writesNan_of_nanResult rfl he
  · rcases hi with rfl | rfl | rfl
    · have he := exec_of_readDec2 (i := .dadd rd rs1 rs2) rfl hu hw ha hb
      exact writesNan_of_nanResult rfl (addResult_nan (p := s.cfg) hnan ▸ he)
    · have he := exec_of_readDec2 (i := .dsub rd rs1 rs2) rfl hu hw ha hb
      have hflip : a.kind = .nan ∨ (negateOperand b).kind = .nan := by rwa [negateOperand_kind]
      exact writesNan_of_nanResult rfl (addResult_nan (p := s.cfg) hflip ▸ he)
    · have he := exec_of_readDec2 (i := .dmul rd rs1 rs2) rfl hu hw ha hb
      exact writesNan_of_nanResult rfl (mulResult_nan (p := s.cfg) hnan ▸ he)

end Sys2Proof.Machine
end

/-! PROOFS. The decimal arithmetic file's statements (`45_decimal_arith.md`): the alignment loop (R311), DADD and DSUB of finite
operands (R312 to R314), DMUL (R315), and the special-value tables (R310). -/

section
open Sys2Proof Sys2Proof.Machine

namespace Sys2Proof.Machine

/-! ### The alignment loop (R311) -/

section
variable (lim : Nat) (rm : RoundMode) (neg : Bool) (lo diff hi : Nat) (new : SignalSet)

/-- Where the loop stops: at the largest scale difference that fits, at 0 if none does. -/
theorem alignLoop_diff_largest :
    (alignLoop lim rm neg lo diff hi new).diff ≤ diff ∧
      ((alignLoop lim rm neg lo diff hi new).diff = 0 ∨ lo * 10 ^ (alignLoop lim rm neg lo diff hi new).diff ≤ lim) ∧
      ∀ d, (alignLoop lim rm neg lo diff hi new).diff < d → d ≤ diff → lim < lo * 10 ^ d := by
  fun_induction alignLoop lim rm neg lo diff hi new with
  | case1 hi new => exact ⟨le_rfl, .inl rfl, fun d hlt hle => absurd hle (not_le.2 hlt)⟩
  | case2 diff hi new hfits => exact ⟨le_rfl, .inr hfits, fun d hlt hle => absurd hle (not_le.2 hlt)⟩
  | case3 diff hi new hover ih =>
    obtain ⟨hle, hstop, hbefore⟩ := ih
    refine ⟨hle.trans diff.le_succ, hstop, fun d hlt hd => ?_⟩
    rcases Nat.le_succ_iff.1 hd with hd | rfl
    · exact hbefore d hlt hd
    · exact not_le.1 hover

theorem alignLoop_diff_le : (alignLoop lim rm neg lo diff hi new).diff ≤ diff :=
  (alignLoop_diff_largest lim rm neg lo diff hi new).1

/-- The loop drops one digit a turn, from the scale difference `diff` down to where it stops. -/
theorem alignLoop_coef :
    (alignLoop lim rm neg lo diff hi new).coef =
      (fun c => roundDiv c 1 neg rm)^[diff - (alignLoop lim rm neg lo diff hi new).diff] hi := by
  fun_induction alignLoop lim rm neg lo diff hi new with
  | case1 hi new => rfl
  | case2 diff hi new hfits => simp
  | case3 diff hi new hover ih => rw [ih, Nat.succ_sub (alignLoop_diff_le ..), Function.iterate_succ_apply]

/-- Which signals the loop adds: Rounded for any turn, and Inexact for a turn that dropped a nonzero digit. -/
theorem alignLoop_has_iff (g : Signal) :
    (alignLoop lim rm neg lo diff hi new).new.has g = true ↔
      new.has g = true ∨ (g = .rounded ∧ (alignLoop lim rm neg lo diff hi new).diff < diff) ∨
        (g = .inexact ∧ ∃ i, i < diff - (alignLoop lim rm neg lo diff hi new).diff ∧
          (fun c => roundDiv c 1 neg rm)^[i] hi % 10 ≠ 0) := by
  fun_induction alignLoop lim rm neg lo diff hi new with
  | case1 hi new => simp
  | case2 diff hi new hfits => simp
  | case3 diff hi new hover ih =>
    rw [ih, Nat.succ_sub (alignLoop_diff_le ..), Nat.exists_lt_succ_left]
    cases g <;> simp [Function.iterate_succ_apply, has_or, alignLoop_diff_le, or_assoc]

end

/-- Settles O49. -/
theorem alignmentDropsDigitByDigit : Obligations.AlignmentDropsDigitByDigit := by
  intro lim rm neg lo diff hi al after
  obtain ⟨hle, hstop, hbefore⟩ := alignLoop_diff_largest lim rm neg lo diff hi 0
  have hsignals := alignLoop_has_iff lim rm neg lo diff hi 0#8
  refine ⟨hle, hstop, hbefore, alignLoop_coef lim rm neg lo diff hi 0, ?_, ?_, fun g hrounded hinexact => ?_⟩
  · simp [al, hsignals]
  · simp [al, after, hsignals]
  · simp [al, ← Bool.not_eq_true, hsignals, hrounded, hinexact]

/-! ### The rules after their reads (R260, R314) -/

section
variable {rd rs1 rs2 : DIdx} {s : State} {u w : DecWord} {a b : DecOperand} {i : Instr} {r : NormResult} {inh : SignalSet}
  {ctx : Context}

/-- DADD and DSUB are one rule: DSUB adds its second operand with the sign inverted, which a NaN alone is spared (R314). -/
theorem exec_dadd_or_dsub (flip : Bool) (hu : s.readD rs1 = .ok u) (hw : s.readD rs2 = .ok w) (ha : readDec u = .ok a)
    (hb : readDec w = .ok b) (hnan : b.kind ≠ .nan) :
    exec (if flip then .dsub rd rs1 rs2 else .dadd rd rs1 rs2) s =
      runCommand (if flip then .dsub rd rs1 rs2 else .dadd rd rs1 rs2) s
        (finishDecimal rd (addResult s.cfg a { b with neg := xor flip b.neg }) (a.signals ||| b.signals) a.ctx s) := by
  cases flip with
  | false => simpa using exec_of_readDec2 (i := .dadd rd rs1 rs2) rfl hu hw ha hb
  | true => simpa [negateOperand, hnan] using exec_of_readDec2 (i := .dsub rd rs1 rs2) rfl hu hw ha hb

/-- DADD and DSUB are legal whatever the limb count (R110, R112). -/
theorem wf_dadd_or_dsub (flip : Bool) (rd rs1 rs2 : DIdx) (n : Nat) :
    (if flip then Instr.dsub rd rs1 rs2 else .dadd rd rs1 rs2).wf n = true := by cases flip <;> rfl

/-- A decimal command that ends with a result in range, which fits its register whatever its signals (R270 to R273). -/
theorem finishesDecimal_of_inRange (hp : s.cfg.legal) (hwf : i.wf s.cfg.n = true)
    (he : exec i s = runCommand i s (finishDecimal rd r inh ctx s)) (hr : r.inRange s.cfg) :
    finishesDecimal i s rd r inh ctx := by
  refine finishesDecimal_of_finish hwf he fun hfinite => ?_
  obtain ⟨hcoef, hmin, hmax⟩ := hr hfinite
  exact ⟨(le_maxU_iff _ _).1 hcoef, sval16_pat16_neg hp hmin hmax⟩

end

/-! ### Sums of finite operands (R311 to R314) -/

/-- `Combine` by its two parts: the magnitude is the sum or the distance of the magnitudes, and the sign that of the larger one
or, for a zero of opposite signs, the mode's (R312). -/
theorem combine_eq (a b : Nat) (negA negB : Bool) (rm : RoundMode) :
    combine a negA b negB rm =
      (if negA = negB then a + b else (a - b) + (b - a),
       if negA = negB then negA else if b < a then negA else if a < b then negB else decide (rm = .floor)) := by
  simp only [combine]
  split_ifs with hsign hba hab <;> simp only [Prod.mk.injEq, and_true] <;> omega

/-- `Combine` does not depend on the order of its operands (R312). -/
theorem combine_comm (a b : Nat) (negA negB : Bool) (rm : RoundMode) :
    combine a negA b negB rm = combine b negB a negA rm := by
  by_cases hsign : negA = negB
  · simp [combine, hsign, Nat.add_comm]
  · rcases lt_trichotomy a b with hlt | rfl | hlt
    · simp [combine, hsign, Ne.symm hsign, hlt, hlt.not_gt]
    · simp [combine, hsign, Ne.symm hsign]
    · simp [combine, hsign, Ne.symm hsign, hlt, hlt.not_gt]

/-- Settles O50: the operand that the alignment rounds is the only difference between the two orders of the scales. -/
theorem daddDsubOfFiniteOperands : Obligations.DaddDsubOfFiniteOperands := by
  rintro rd rs1 rs2 s u w a b flip ⟨hp, _⟩ hu hw ha hb hafin hbfin gb aIsHi al e ma mb m g r
  have hsum : addResult s.cfg a { b with neg := gb } = { r with new := al.new ||| r.new } := by
    have hm : m = (combine ma a.neg mb gb a.ctx.rm).1 := by rw [combine_eq]
    have hg : g = (combine ma a.neg mb gb a.ctx.rm).2 := by rw [combine_eq]
    simp only [addResult, hafin, hbfin, addFinite, r, hm, hg]
    by_cases hexp : a.exp ≤ b.exp
    · simp only [addAligned, combine_comm (b.coef * _) _ gb, e, ma, mb, al, aIsHi, hexp, decide_true, if_true]
    · simp [addAligned, e, ma, mb, al, aIsHi, hexp]
  have he := exec_dadd_or_dsub (rd := rd) flip hu hw ha hb (by simp [hbfin])
  rw [hsum] at he
  exact finishesDecimal_of_inRange hp (wf_dadd_or_dsub flip _ _ _ _) he (normOf_inRange hp m g e a.ctx.rm 0)

/-! ### Products of finite operands (R315) -/

/-- Settles O51. -/
theorem dmulOfFiniteOperands : Obligations.DmulOfFiniteOperands := by
  rintro rd rs1 rs2 s u w a b ⟨hp, _⟩ hu hw ha hb hafin hbfin
  have he := exec_of_readDec2 (i := .dmul rd rs1 rs2) rfl hu hw ha hb
  simp only [mulResult, hafin, hbfin] at he
  exact finishesDecimal_of_normOf hp rfl he

/-! ### Infinities (R310) -/

section
variable (p : Params) {a b : DecOperand}

/-- The rows of the tables: an Infinity in both places, or in one of them beside a finite operand. -/
theorem kinds_of_inf (ha : a.kind ≠ .nan) (hb : b.kind ≠ .nan) (hinf : a.kind = .inf ∨ b.kind = .inf) :
    (a.kind = .inf ∧ b.kind = .inf) ∨ (a.kind = .inf ∧ b.kind = .finite) ∨ (a.kind = .finite ∧ b.kind = .inf) := by
  cases hka : a.kind with
  | nan => exact absurd hka ha
  | finite => exact .inr (.inr ⟨rfl, hinf.resolve_left (by simp [hka])⟩)
  | inf =>
    cases hkb : b.kind with
    | nan => exact absurd hkb hb
    | finite => exact .inr (.inl ⟨rfl, rfl⟩)
    | inf => exact .inl ⟨rfl, rfl⟩

/-- The table of addition: with an Infinity, the sum is the Infinity, and two opposite ones have none. -/
theorem addResult_of_inf (ha : a.kind ≠ .nan) (hb : b.kind ≠ .nan) (hinf : a.kind = .inf ∨ b.kind = .inf) :
    addResult p a b =
      if a.kind = .inf ∧ b.kind = .inf ∧ a.neg ≠ b.neg then nanResult (single .invalid)
      else if a.kind = .inf then infResult a.neg else infResult b.neg := by
  rcases kinds_of_inf ha hb hinf with ⟨hka, hkb⟩ | ⟨hka, hkb⟩ | ⟨hka, hkb⟩
  · by_cases hsign : a.neg = b.neg <;> simp [addResult, hka, hkb, hsign]
  · simp [addResult, hka, hkb]
  · simp [addResult, hka, hkb]

/-- The table of multiplication: with an Infinity, the product is the Infinity of the product sign, and a zero has none. -/
theorem mulResult_of_inf (ha : a.kind ≠ .nan) (hb : b.kind ≠ .nan) (hinf : a.kind = .inf ∨ b.kind = .inf) :
    mulResult p a b =
      if (a.kind = .finite ∧ a.coef = 0) ∨ (b.kind = .finite ∧ b.coef = 0) then nanResult (single .invalid)
      else infResult (xor a.neg b.neg) := by
  rcases kinds_of_inf ha hb hinf with ⟨hka, hkb⟩ | ⟨hka, hkb⟩ | ⟨hka, hkb⟩ <;> simp [mulResult, hka, hkb]

end

/-- Settles O52: no result of the tables is finite, so that none needs room in its register. -/
theorem infinityTables : Obligations.InfinityTables := by
  rintro rd rs1 rs2 s u w a b flip ⟨hp, _⟩ hu hw ha hb hanan hbnan hinf gb inf invalid
  constructor
  · have he := exec_dadd_or_dsub (rd := rd) flip hu hw ha hb hbnan
    rw [addResult_of_inf s.cfg (b := { b with neg := gb }) hanan hbnan hinf] at he
    refine finishesDecimal_of_inRange hp (wf_dadd_or_dsub flip _ _ _ _) he ?_
    split_ifs <;> nofun
  · have he := exec_of_readDec2 (i := .dmul rd rs1 rs2) rfl hu hw ha hb
    simp only [mulResult_of_inf s.cfg hanan hbnan hinf] at he
    refine finishesDecimal_of_inRange hp rfl he ?_
    split_ifs <;> nofun

end Sys2Proof.Machine
end

/-! PROOFS. The exceptions file's statements (`60_exceptions.md`): which command records which cause (R341), what an abort changes
(R343, R345), and the one way out of the aborted state (R347). -/

section
open Sys2Proof Sys2Proof.Machine

namespace Sys2Proof.Machine

/-! ### The way out of the aborted state (R347) -/

/-- `RESET` is the word of no other offset (R86). -/
theorem portMap_eq_reset_iff {n : Nat} {off : BitVec 16} : portMap n off = .reset ↔ off = offReset := by
  constructor
  · intro h
    simp only [portMap] at h
    split_ifs at h with _ _ _ _ _ hoff
    exact hoff
  · rintro rfl
    exact portMap_reset n

section
variable {s t : State} {a : HostAccess}

/-- Every other case of a write needs another word of the map at the offset. -/
theorem Performed.eq_resetBlock {v : Word} (hp : Performed s (.write offReset v) t) : t = s.resetBlock := by
  have hm := portMap_reset s.cfg.n
  cases hp with
  | reset => rfl
  | _ => simp_all only [List.mem_cons, List.not_mem_nil, reduceCtorEq, or_self]

/-- On an aborted block no other access writes STATUS, ABORT_CMD or FLAGS: commands are ignored (R346), and host writes of
these words too (R87). -/
theorem Performed.keeps_abort_record (hp : Performed s a t) (ha : s.status.aborted = true)
    (hreset : ∀ v, a ≠ .write offReset v) :
    t.status = s.status ∧ t.abortCmd = s.abortCmd ∧ t.flags = s.flags := by
  cases hp with
  | reset off v hm => exact absurd (portMap_eq_reset_iff.1 hm ▸ rfl) (hreset v)
  | illegalWord off v e hm hrunning => simp [ha] at hrunning
  | command off v i t hm hrunning => simp [ha] at hrunning
  | _ => exact ⟨rfl, rfl, rfl⟩

end

/-- Settles O7, by the cases of `step_next`. -/
theorem abortLeftOnlyByReset : Obligations.AbortLeftOnlyByReset := by
  intro s t ha hstep
  rcases step_next hstep with ⟨hs, rfl⟩ | ⟨a, rest, hs, hp⟩
  · exact ⟨by simp [hs], fun _ => ⟨rfl, rfl, rfl⟩⟩
  · constructor
    · rintro ⟨v, rest', hport⟩
      obtain ⟨rfl, rfl⟩ : a = .write offReset v ∧ rest = rest' := by simpa [hs] using hport
      rw [hp.eq_resetBlock]
      exact ⟨rfl, rfl, rfl⟩
    · intro hother
      exact hp.keeps_abort_record ha fun v hv => hother ⟨v, rest, hv ▸ hs⟩

/-! ### What an abort changes (R343, R345) -/

/-- Settles O20: a completed command does not abort, and the word that an abort records is the one that was decoded. -/
theorem abortIsAtomic : Obligations.AbortIsAtomic := by
  intro s t v rest hport ha hstep habort
  obtain ⟨hlegal, hillegal⟩ := stepRunsDecodedCommand s v rest hport ha
  by_cases hd : ∃ i, decode s.cfg.n (v.setWidth 32) = .ok i
  · obtain ⟨i, hi⟩ := hd
    rw [hlegal i hi] at hstep
    obtain ⟨hword, _⟩ := encodeOfDecode _ _ _ hi
    rcases exec_completes_or_aborts hstep with hc | ⟨c, rfl⟩
    · simp [hc.status, ha] at habort
    · exact ⟨c, by rw [State.takeAbort, hword, setWidth_commandWord]⟩
  · rw [hillegal (not_exists.1 hd)] at hstep
    injection hstep with ht
    exact ⟨.illegalCommand, ht.symm⟩

/-! ### The table of causes, row by row (R341) -/

/-- DADD, DSUB and DMUL: the commands that can raise Invalid (R310). -/
def isDecimalArith (i : Instr) : Prop :=
  (∃ d a b, i = .dadd d a b) ∨ (∃ d a b, i = .dsub d a b) ∨ (∃ d a b, i = .dmul d a b)

section
variable {i : Instr}

theorem not_mayRaise_illegalCommand : ¬ mayRaise i .illegalCommand := by
  cases i <;> simp [mayRaise]

theorem mayRaise_intOverflow_iff : mayRaise i .intOverflow ↔
    (∃ d a b, i = .shl d a b .strict) ∨ (∃ d a b g, i = .shr d a b .strict g) ∨ (∃ d a b g, i = .add d a b .strict g) ∨
      (∃ d a b g, i = .sub d a b .strict g) ∨ (∃ d a b g, i = .mul d a b .strict g) ∨
      (∃ d e a b, i = .divrem d e a b .strict true) ∨ (∃ d e a b, i = .divw d e a b .strict) ∨
      (∃ d a b, i = .mulp10 d a b .strict) := by
  cases i <;> simp [mayRaise]

theorem mayRaise_intDivByZero_iff : mayRaise i .intDivByZero ↔
    ∃ m, m ≠ Mode.checked ∧
      ((∃ d e a b g, i = .divrem d e a b m g) ∨ (∃ d e a b, i = .divrd d e a b m) ∨ (∃ d e a b, i = .divw d e a b m)) := by
  cases i <;> simp [mayRaise]

theorem mayRaise_indexRange_iff : mayRaise i .indexRange ↔
    (∃ d a k, i = .lget d a k) ∨ (∃ d a k, i = .lset d a k) ∨ (∃ d k, i = .tpow10 d k) ∨ (∃ d k, i = .tpow5 d k) ∨
      (∃ d k, i = .trmax d k) := by
  cases i <;> simp [mayRaise]

theorem mayRaise_reservedOperand_iff : mayRaise i .reservedOperand ↔
    (∃ d a m k, i = .dctx d a m k) ∨ (∃ d a k, i = .dround d a k) ∨ (∃ d a k, i = .dtrunc d a k) ∨ isDecimalArith i := by
  cases i <;> simp [mayRaise, isDecimalArith]

theorem mayRaise_roundStrict_iff : mayRaise i .roundStrict ↔
    (∃ d a k, i = .dround d a k) ∨ (∃ d a k, i = .dtrunc d a k) ∨ isDecimalArith i := by
  cases i <;> simp [mayRaise, isDecimalArith]

/-- The commands that end in the checks of R271 and R272 raise a signal where they can raise ROUND_STRICT; DMAKE, whose context
is the default one, only Overflow. -/
theorem mayRaise_signal_iff {g : Signal} : mayRaise i (.signal g) ↔
    (g ≠ .divByZero ∧ mayRaise i .roundStrict ∧ (g = .invalid → isDecimalArith i)) ∨
      (g = .overflow ∧ ∃ d a n k, i = .dmake d a n k) := by
  cases i <;> simp [mayRaise, isDecimalArith]

end

/-- The code of a signal that is neither DivByZero nor Invalid (R36, R341). -/
theorem signal_code_mem {g : Signal} (hzero : g ≠ .divByZero) (hinvalid : g ≠ .invalid) :
    (Cause.signal g).code ∈ [0x06, 0x10, 0x12, 0x14, 0x15, 0x16, 0x17] := by
  cases g with
  | divByZero => exact absurd rfl hzero
  | invalid => exact absurd rfl hinvalid
  | _ => decide

/-- Settles O22, by the cause: one row of the table each. -/
theorem causesAreRaisedAsListed : Obligations.CausesAreRaisedAsListed := by
  intro i s t _ ha hwf he habort
  rcases exec_next he with ⟨_, _, hc⟩ | ⟨_, c, hr, rfl⟩ | ⟨hill, _⟩
  · simp [hc.status, ha] at habort
  · cases c with
    | illegalCommand => exact absurd hr not_mayRaise_illegalCommand
    | intOverflow => exact .inl ⟨rfl, mayRaise_intOverflow_iff.1 hr⟩
    | intDivByZero => exact .inr (.inl ⟨rfl, mayRaise_intDivByZero_iff.1 hr⟩)
    | indexRange => exact .inr (.inr (.inl ⟨rfl, mayRaise_indexRange_iff.1 hr⟩))
    | reservedOperand => exact .inr (.inr (.inr (.inl ⟨rfl, mayRaise_reservedOperand_iff.1 hr⟩)))
    | roundStrict =>
      exact .inr (.inr (.inr (.inr (.inl ⟨List.mem_cons_self, mayRaise_roundStrict_iff.1 hr⟩))))
    | signal g =>
      rcases mayRaise_signal_iff.1 hr with ⟨hzero, hstrict, harith⟩ | ⟨rfl, hmake⟩
      · by_cases hg : g = .invalid
        · subst hg
          exact .inr (.inr (.inr (.inr (.inr (.inl ⟨rfl, harith rfl⟩)))))
        · exact .inr (.inr (.inr (.inr (.inl ⟨signal_code_mem hzero hg, mayRaise_roundStrict_iff.1 hstrict⟩))))
      · exact .inr (.inr (.inr (.inr (.inr (.inr ⟨rfl, hmake⟩)))))
  · simp [hwf] at hill

end Sys2Proof.Machine
end

/-! PROOFS. The reset file's statement (`70_reset_and_hazards.md`): what a write to `RESET` clears and keeps (R380). -/

section
open Sys2Proof Sys2Proof.Machine

namespace Sys2Proof.Machine

/-- A write to `RESET` resets the block, once the access is off the port; the value written plays no part (R86, R380). -/
theorem step_reset {s : State} {v : Word} {rest : List HostAccess} (hp : s.port = .write offReset v :: rest) :
    step s = .next { s with port := rest }.resetBlock := by
  rw [step_write hp]
  simp only [hostWrite, portMap_reset]

/-! ### The marks after a reset (R49, R380) -/

theorem mark_of_mem_unwrittenX {n : Nat} {w : Slot} (hw : w ∈ unwrittenX n) : w.mark = false :=
  List.eq_of_mem_replicate hw ▸ rfl

theorem resetBlock_xSlots_unmarked (s : State) (r : XIdx) : ∀ w ∈ s.resetBlock.xSlots r, w.mark = false := by
  rw [xSlots_resetBlock]
  exact fun _ => mark_of_mem_unwrittenX

theorem resetBlock_dSlots_unmarked (s : State) (r : DIdx) :
    (∀ w ∈ (s.resetBlock.dSlots r).coef, w.mark = false) ∧ (s.resetBlock.dSlots r).cb.mark = false := by
  rw [dSlots_resetBlock]
  exact ⟨fun _ => mark_of_mem_unwrittenX, rfl⟩

/-- Settles O8. -/
theorem resetWriteClearsBlock : Obligations.ResetWriteClearsBlock := by
  intro s v rest hp
  obtain ⟨hflags, hstatus⟩ := toWord_zero
  exact ⟨_, step_reset hp, hflags, hstatus, rfl, resetBlock_xSlots_unmarked _, resetBlock_dSlots_unmarked _, rfl, rfl, rfl, rfl⟩

end Sys2Proof.Machine
end
